-- ==== Sys2Proof/Word.lean ====
section
/-! DEFINITION. The word types of the WAVLPF core (spec/00_scope.md R8, R9): the 64-bit data word every register, buffer
word and bus transfer has, the 32-bit host word address, the 32-bit count of N, IDX and SPU, and the byte of the order in
which a word is serialised outside the core (spec/20_memory.md R64). -/

namespace Sys2Proof

/-- A data word, DW = 64 bits (R8). -/
abbrev Word := BitVec 64

/-- A host word address, AW = 32 bits (R8, R62). -/
abbrev Addr := BitVec 32

/-- A count, IDXW = 32 bits unsigned (R8, R29). -/
abbrev Count := BitVec 32

/-- A byte of a word that is serialised outside the core (R64). -/
abbrev Byte := BitVec 8

end Sys2Proof
end

