-- ==== Sys2Proof/Syntax.lean ====
section
/-! DEFINITION. The seven commands of the WAVLPF core (spec/00_scope.md R3, spec/30_encoding.md R94). A command carries no
operand in its own word: its operands are registers (R90, R93), so the constructors have no arguments. -/

namespace Sys2Proof

/-- A command: one row of spec/opcode_table.json each (R3, R94, R95). -/
inductive Instr where
  /-- OSC_SAW, `generate_sawtooth` (spec/41_oscillator.md R165). -/
  | oscSaw
  /-- OSC_PULSE, `generate_pulse` (spec/41_oscillator.md R168). -/
  | oscPulse
  /-- BQ_NEW, `new` (spec/42_biquad.md R181). -/
  | bqNew
  /-- BQ_SETC, `set_coefficients` (spec/42_biquad.md R183). -/
  | bqSetc
  /-- BQ_STEP, `process_sample` (spec/42_biquad.md R204). -/
  | bqStep
  /-- BQ_RESET, `reset` (spec/42_biquad.md R208). -/
  | bqReset
  /-- RENDER, `render` (spec/43_render.md R221). -/
  | render
  deriving DecidableEq, Repr

end Sys2Proof
end

