-- ==== Sys2Proof/WellFormed.lean ====
section
/-! DEFINITION. Which terms and words are well formed. A command has no operand, so every term of Instr is well formed
(spec/30_encoding.md R93). Of the words a host writes, the spec says which are canonical: a CMD word with a command's opcode
and zeros in the bits that are not decoded (R90, R94), and a MODE word whose three fields hold codes the spec gives a meaning
of their own and whose reserved bits are zero (R91, spec/10_state.md R23). Every other word is accepted too (R97): it is
decoded or resolved as Decode.lean and Machine/Operands.lean say. -/

namespace Sys2Proof

/-- A command is well formed: it has no operand that could be ill formed (R93). -/
def Instr.wf : Instr → Bool
  | .oscSaw | .oscPulse | .bqNew | .bqSetc | .bqStep | .bqReset | .render => true

/-- A canonical CMD word: an opcode of R94, and zero in the bits [63:4] that software should write 0 (R90). -/
def cmdWordWf (w : Word) : Bool :=
  (1 ≤ w.toNat) && (w.toNat ≤ 7)

/-- A canonical MODE word: TOPO at most 6, WAVE at most 1, UNIT at most 1, zero in [63:12] (R23). -/
def modeWordWf (w : Word) : Bool :=
  (w.extractLsb' 0 4).toNat ≤ 6 && (w.extractLsb' 4 4).toNat ≤ 1 && (w.extractLsb' 8 4).toNat ≤ 1 &&
    w.extractLsb' 12 52 = 0#52

end Sys2Proof
end

