-- ==== Sys2Proof/Decode.lean ====
section
/-! DEFINITION. Decoding a CMD word and encoding a command (spec/30_encoding.md R90, R94, R96, R97, R105), and the
little-endian bytes in which a word is serialised outside the core (spec/20_memory.md R64). The decoder is total: a reserved
opcode and a word with bytes missing are rejected by name. -/

namespace Sys2Proof

/-- Why a decoder rejects. -/
inductive DecodeError where
  /-- The opcode field is 0x0 or 0x8 to 0xF (R96). -/
  | reservedOpcode (op : BitVec 4)
  /-- Fewer than the eight bytes of a CMDW word (R105: every command is one word). -/
  | truncated
  deriving DecidableEq, Repr

/-- The OP field of a CMDW word, bits [3:0] (R90). -/
def opField (w : Word) : BitVec 4 :=
  w.extractLsb' 0 4

/-- The opcode map of R94: the command an opcode names. -/
def commandOf (op : BitVec 4) : Option Instr :=
  match op.toNat with
  | 1 => some .oscSaw
  | 2 => some .oscPulse
  | 3 => some .bqNew
  | 4 => some .bqSetc
  | 5 => some .bqStep
  | 6 => some .bqReset
  | 7 => some .render
  | _ => none

/-- Decode a CMDW word. Only [3:0] is looked at (R94, R97); a reserved opcode is rejected (R96). -/
def decode (w : Word) : Except DecodeError Instr :=
  match commandOf (opField w) with
  | some i => .ok i
  | none => .error (.reservedOpcode (opField w))

/-- The eight bytes of a word in the order of R64: the byte at the lowest address holds bits [7:0]. -/
def wordBytes (w : Word) : List Byte :=
  [w.extractLsb' 0 8, w.extractLsb' 8 8, w.extractLsb' 16 8, w.extractLsb' 24 8,
   w.extractLsb' 32 8, w.extractLsb' 40 8, w.extractLsb' 48 8, w.extractLsb' 56 8]

/-- The word eight bytes stand for (R64), with the bytes that follow; none when fewer than eight are left. -/
def wordOfBytes : List Byte → Option (Word × List Byte)
  | c0 :: c1 :: c2 :: c3 :: c4 :: c5 :: c6 :: c7 :: rest =>
    some (c7 ++ c6 ++ c5 ++ c4 ++ c3 ++ c2 ++ c1 ++ c0, rest)
  | _ => none

/-- Decode a serialised CMDW word, with the bytes that follow it. -/
def decodeBytes (bytes : List Byte) : Except DecodeError (Instr × List Byte) :=
  match wordOfBytes bytes with
  | none => .error .truncated
  | some (w, rest) =>
    match decode w with
    | .ok i => .ok (i, rest)
    | .error e => .error e

/-- The opcode of a command (R94). -/
def opcode : Instr → BitVec 4
  | .oscSaw => 0x1
  | .oscPulse => 0x2
  | .bqNew => 0x3
  | .bqSetc => 0x4
  | .bqStep => 0x5
  | .bqReset => 0x6
  | .render => 0x7

/-- The CMDW word a host writes for a command: OP zero-extended to 64 bits (R108). -/
def encode (i : Instr) : Word :=
  (opcode i).zeroExtend 64

/-- The serialised form of that word. -/
def encodeBytes (i : Instr) : List Byte :=
  wordBytes (encode i)

/-- The CMDW word whose low nbits bits are those of w and whose other bits are 0. -/
def tableWord (nbits w : Nat) : Word :=
  BitVec.ofNat 64 (w % 2 ^ nbits)

/-- What the decoder reads from an opcode-table word of nbits bits. -/
def decodeTableWord (nbits w : Nat) : Option Instr :=
  match decodeBytes (wordBytes (tableWord nbits w)) with
  | .ok (i, _) => some i
  | .error _ => none

end Sys2Proof
end

