-- ==== Sys2Proof/Config.lean ====
section
/-! DEFINITION. What an instance of the core fixes (spec/00_scope.md R8) and the model's free values. NMAX and UNIT_FALLBACK
are arguments of the model: they are plain data (Params), which State carries and nothing writes, so that a statement about
every state holds for every value of them. The four transcendental functions are arguments too (spec/40_numerics.md R130):
an opaque constant, of which nothing can be proved. A free value is an opaque constant applied to a number no two draws
share: nothing constrains it (spec/00_scope.md R17, spec/93_implementation_defined.md U1, U9). -/

namespace Sys2Proof.Config

/-- A decay unit (R102, R232). -/
inductive DecayUnit where
  | hz
  | cent
  deriving DecidableEq, Repr

/-- The arguments NMAX and UNIT_FALLBACK of R8. -/
structure Params where
  /-- NMAX, the capacity of each sample buffer in samples. -/
  nmax : Nat
  /-- UNIT_FALLBACK, the decay unit an unrecognised UNIT code resolves to. -/
  unitFallback : DecayUnit
  deriving DecidableEq, Repr

/-- NMAX is in the range R8 gives it: 1 ≤ NMAX ≤ 2^30. -/
def Params.ok (p : Params) : Bool :=
  1 ≤ p.nmax && p.nmax ≤ 2 ^ 30

/-- The values R8 suggests: NMAX = 2^20, UNIT_FALLBACK = Hz. DESIGN CHOICE, log 3. -/
def suggested : Params :=
  { nmax := 2 ^ 20, unitFallback := .hz }

/-- A numerics record (R130): four total functions on binary64 patterns. T0 holds by the type. -/
structure Numerics where
  sin : Word → Word
  cos : Word → Word
  log2 : Word → Word
  exp2 : Word → Word
  deriving Inhabited

/-- The numerics record of this instance. Free: log 4. -/
opaque numerics : Numerics

/-- The k-th free 64-bit pattern: an arithmetic result that depends on a NaN or an infinity (R140), a read that R66 or R300
leaves unspecified. Log 5, log 13. -/
opaque freeWord : Nat → Word

/-- The k-th free outcome of a comparison with a NaN or an infinity (R140). Log 6. -/
opaque freeBit : Nat → Bool

/-- The k-th free count: an update interval computed from a NaN or an infinity (R140). Log 7. -/
opaque freeCount : Nat → Count

/-- What word i of DRY (false) or OUT (true) holds after reset number `epoch` until a command writes it (R66, U9, U14).
Log 10. -/
opaque freeBuffer : (epoch : Nat) → (isOut : Bool) → (i : Nat) → Word

end Sys2Proof.Config
end

