-- ==== Sys2Proof/Machine/Ieee.lean ====
section
/-! DEFINITION. IEEE 754 binary64 (spec/00_scope.md R10, spec/40_numerics.md R120 to R123, R141): patterns, and the four basic
operations, square root, sign change and floor, each rounded once to nearest with ties to even, with gradual underflow and
no flags. A finite value is kept exactly: a sign and a magnitude that counts units of 2^-1074, the smallest positive
binary64 value. A NaN has no sign, payload or pattern: R140 defines none. -/

namespace Sys2Proof.Machine

/-- A finite binary64 value: (−1)^neg · mag · 2^-1074. A zero keeps its sign. -/
structure Fin64 where
  neg : Bool
  mag : Nat
  deriving DecidableEq, Repr

/-- A binary64 value (R10). -/
inductive Ieee where
  | nan
  | inf (neg : Bool)
  | fin (x : Fin64)
  deriving DecidableEq, Repr

/-- The magnitude of 1.0. -/
def oneMag : Nat := 2 ^ 1074

/-- The smallest magnitude that is too large for a finite value: that of 2^1024. -/
def magLimit : Nat := 2 ^ 2098

/-- The exponent of a unit in the last place of a value whose magnitude is q or a fraction above it: 53 significant bits, and
never below the subnormal unit (R141). -/
def ulpExp (q : Nat) : Nat :=
  q.log2 - 52

/-- The magnitude num / den rounded to a binary64 magnitude, to nearest with ties to even (R121); den is not 0. -/
def roundMag (num den : Nat) : Nat :=
  let k := ulpExp (num / den)
  let d := den * 2 ^ k
  let m := num / d
  let r := num % d
  (if d < 2 * r ∨ (2 * r = d ∧ m % 2 = 1) then m + 1 else m) * 2 ^ k

/-- A rounded magnitude as a value: an infinity when it is too large (R121). -/
def ieeeOfMag (neg : Bool) (mag : Nat) : Ieee :=
  if mag < magLimit then .fin { neg := neg, mag := mag } else .inf neg

/-- The value of a pattern (R10). -/
def ieeeOfWord (w : Word) : Ieee :=
  let neg := w.getLsbD 63
  let e := (w.extractLsb' 52 11).toNat
  let f := (w.extractLsb' 0 52).toNat
  if e = 2047 then
    if f = 0 then .inf neg else .nan
  else if e = 0 then .fin { neg := neg, mag := f }
  else .fin { neg := neg, mag := (2 ^ 52 + f) * 2 ^ (e - 1) }

/-- The pattern of a finite value (R10): biased exponent and fraction are one number, since the leading bit of a normal
significand carries into the exponent field. -/
def Fin64.pack (x : Fin64) : Word :=
  BitVec.ofNat 64 ((if x.neg then 2 ^ 63 else 0) + (ulpExp x.mag * 2 ^ 52 + x.mag / 2 ^ ulpExp x.mag))

/-- The exact value of a finite binary64 value, in units of 2^-1074. -/
def Fin64.toInt (x : Fin64) : Int :=
  if x.neg then -(x.mag : Int) else (x.mag : Int)

/-- Unary minus flips the sign and is exact (R123). -/
def Fin64.negate (x : Fin64) : Fin64 :=
  { neg := !x.neg, mag := x.mag }

/-- The largest integral value not greater than x (R123). The sign of a zero result is x's. -/
def Fin64.floor (x : Fin64) : Fin64 :=
  if x.neg then { neg := true, mag := (x.mag + (oneMag - 1)) / oneMag * oneMag }
  else { neg := false, mag := x.mag / oneMag * oneMag }

/-- Unary minus (R123). -/
def ieeeNeg : Ieee → Ieee
  | .nan => .nan
  | .inf n => .inf (!n)
  | .fin x => .fin x.negate

/-- The sum of two finite values, rounded once (R121). An exact zero is −0.0 only when both operands are negative. -/
def finAdd (x y : Fin64) : Ieee :=
  let s := x.toInt + y.toInt
  if s = 0 then .fin { neg := x.neg && y.neg, mag := 0 }
  else ieeeOfMag (decide (s < 0)) (roundMag s.natAbs 1)

/-- Addition (R121). -/
def ieeeAdd : Ieee → Ieee → Ieee
  | .nan, _ => .nan
  | _, .nan => .nan
  | .inf a, .inf b => if a = b then .inf a else .nan
  | .inf a, .fin _ => .inf a
  | .fin _, .inf b => .inf b
  | .fin x, .fin y => finAdd x y

/-- Subtraction (R121). -/
def ieeeSub (a b : Ieee) : Ieee :=
  ieeeAdd a (ieeeNeg b)

/-- The product of two finite values, rounded once (R121). -/
def finMul (x y : Fin64) : Ieee :=
  ieeeOfMag (x.neg ^^ y.neg) (roundMag (x.mag * y.mag) oneMag)

/-- Multiplication (R121). -/
def ieeeMul : Ieee → Ieee → Ieee
  | .nan, _ => .nan
  | _, .nan => .nan
  | .inf a, .inf b => .inf (a ^^ b)
  | .inf a, .fin y => if y.mag = 0 then .nan else .inf (a ^^ y.neg)
  | .fin x, .inf b => if x.mag = 0 then .nan else .inf (x.neg ^^ b)
  | .fin x, .fin y => finMul x y

/-- The quotient of two finite values, rounded once (R121); a zero divisor gives an infinity, or a NaN for 0 / 0. -/
def finDiv (x y : Fin64) : Ieee :=
  if y.mag = 0 then (if x.mag = 0 then .nan else .inf (x.neg ^^ y.neg))
  else ieeeOfMag (x.neg ^^ y.neg) (roundMag (x.mag * oneMag) y.mag)

/-- Division (R121). -/
def ieeeDiv : Ieee → Ieee → Ieee
  | .nan, _ => .nan
  | _, .nan => .nan
  | .inf _, .inf _ => .nan
  | .inf a, .fin y => .inf (a ^^ y.neg)
  | .fin x, .inf b => .fin { neg := x.neg ^^ b, mag := 0 }
  | .fin x, .fin y => finDiv x y

/-- The integer square root of x, bit by bit from bit b − 1 down, added to acc. -/
def sqrtBits : (b : Nat) → (x acc : Nat) → Nat
  | 0, _, acc => acc
  | b + 1, x, acc => sqrtBits b x (if (acc + 2 ^ b) * (acc + 2 ^ b) ≤ x then acc + 2 ^ b else acc)

/-- The square root of a magnitude, rounded to nearest with ties to even (R122). -/
def sqrtMag (mag : Nat) : Nat :=
  let x := mag * oneMag
  let k := x.log2 / 2 - 52
  let m := sqrtBits 54 (x / 4 ^ k) 0
  let mid := (2 * m + 1) * (2 * m + 1) * 4 ^ k
  (if mid < 4 * x ∨ (mid = 4 * x ∧ m % 2 = 1) then m + 1 else m) * 2 ^ k

/-- The square root of a finite value: of a zero that zero, of a negative non-zero value NaN (R122). -/
def finSqrt (x : Fin64) : Ieee :=
  if x.mag = 0 then .fin x
  else if x.neg then .nan
  else .fin { neg := false, mag := sqrtMag x.mag }

end Sys2Proof.Machine
end

