-- ==== Sys2Proof/Machine/Arith.lean ====
section
/-! DEFINITION. The arithmetic primitives of spec/00_scope.md R11 as spec/40_numerics.md defines them, on the values of a
formula. Such a value is a finite binary64 value, or `none` when it depends on a NaN or an infinity: of a result that does,
the spec fixes nothing (R140), so `none` passes through every operation and a register that is given one takes a free value
(log 5). -/

namespace Sys2Proof.Machine

/-- A value inside a formula: finite, or unspecified (R140). -/
abbrev Val := Option Fin64

/-- A finite result is a value; a NaN or an infinity makes what depends on it unspecified (R140). -/
def valOfIeee : Ieee → Val
  | .fin x => some x
  | _ => none

/-- The value of a register or buffer word (R10). -/
def valOf (w : Word) : Val :=
  valOfIeee (ieeeOfWord w)

/-- The word a register takes: the value's pattern, or the k-th free word when the value is unspecified (R140). -/
def orFree (v : Val) (k : Nat) : Word :=
  match v with
  | some x => x.pack
  | none => Config.freeWord k

/-- The word a register takes when a word is moved to it by the recurrence's shift: a finite word bit for bit, of a NaN or an
infinity the k-th free word, since no payload is preserved and such a run is given no value (R140, log 8). -/
def copyWord (w : Word) (k : Nat) : Word :=
  if (valOf w).isSome then w else Config.freeWord k

/-- A binary operation on values (R121, R140). -/
def arith2 (op : Fin64 → Fin64 → Ieee) (a b : Val) : Val :=
  match a, b with
  | some x, some y => valOfIeee (op x y)
  | _, _ => none

/-- `a + b` (R121). -/
def fadd (a b : Val) : Val := arith2 finAdd a b

/-- `a − b` (R121). -/
def fsub (a b : Val) : Val := arith2 (fun x y => finAdd x y.negate) a b

/-- `a × b` (R121). -/
def fmul (a b : Val) : Val := arith2 finMul a b

/-- `a / b` (R121). -/
def fdiv (a b : Val) : Val := arith2 finDiv a b

/-- `fsqrt` (R122). -/
def fsqrt (a : Val) : Val :=
  match a with
  | some x => valOfIeee (finSqrt x)
  | none => none

/-- `−a` (R123). -/
def fneg (a : Val) : Val := a.map Fin64.negate

/-- `ffloor` (R123). -/
def ffloor (a : Val) : Val := a.map Fin64.floor

/-- `a ≤ b` on finite values; the two zeros are equal (R125). -/
def Fin64.le (x y : Fin64) : Bool := decide (x.toInt ≤ y.toInt)

/-- `a < b` on finite values (R127). -/
def Fin64.lt (x y : Fin64) : Bool := decide (x.toInt < y.toInt)

/-- `fmax`: the first operand when it is not below the second (R125). -/
def fmax (a b : Val) : Val :=
  match a, b with
  | some x, some y => some (if y.le x then x else y)
  | _, _ => none

/-- `fmin`: the first operand when it is not above the second (R125). -/
def fmin (a b : Val) : Val :=
  match a, b with
  | some x, some y => some (if x.le y then x else y)
  | _, _ => none

/-- `clamp(v, lo, hi)`: the upper bound wins on an empty range (R126). -/
def clamp (v lo hi : Val) : Val :=
  fmin (fmax v lo) hi

/-- `flt`; none is an unspecified outcome (R127, R140). -/
def flt (a b : Val) : Option Bool :=
  match a, b with
  | some x, some y => some (x.lt y)
  | _, _ => none

/-- `u2f`: a count as a value, exact (R136). -/
def u2f (n : Count) : Val :=
  some { neg := false, mag := n.toNat * oneMag }

/-- `len_of` (R135), on every binary64 value. -/
def lenOf : Ieee → Count
  | .nan => 0
  | .inf true => 0
  | .inf false => BitVec.ofNat 32 4294967295
  | .fin x =>
    if x.neg then 0
    else if x.mag < oneMag then 0
    else if 4294967295 * oneMag ≤ x.mag then BitVec.ofNat 32 4294967295
    else BitVec.ofNat 32 (x.mag / oneMag)

/-- `max(a, b)` on counts (R137). -/
def maxCount (a b : Count) : Count :=
  if a.toNat ≤ b.toNat then b else a

/-- `SIN` of the numerics record (R130). -/
def fsin (nm : Config.Numerics) (a : Val) : Val :=
  match a with
  | some x => valOf (nm.sin x.pack)
  | none => none

/-- `COS` of the numerics record (R130). -/
def fcos (nm : Config.Numerics) (a : Val) : Val :=
  match a with
  | some x => valOf (nm.cos x.pack)
  | none => none

/-- An operand that must be above zero: itself, or unspecified when it is zero or negative (R131; spec/42_biquad.md R202;
spec/93_implementation_defined.md U2, U3, U4; logs 9, 22). -/
def positive (a : Val) : Val :=
  a.filter fun x => decide (0 < x.toInt)

/-- `LOG2` of the numerics record (R130); of zero and of a negative value unspecified (R131), log 9. -/
def flog2 (nm : Config.Numerics) (a : Val) : Val :=
  match positive a with
  | some x => valOf (nm.log2 x.pack)
  | none => none

/-- `EXP2` of the numerics record (R130). -/
def fexp2 (nm : Config.Numerics) (a : Val) : Val :=
  match a with
  | some x => valOf (nm.exp2 x.pack)
  | none => none

/-- 0.0 (R133). -/
def cZero : Val := valOf 0x0000000000000000
/-- 1.0 (R133); also the shelf gain A_SHELF (spec/42_biquad.md R194). -/
def cOne : Val := valOf 0x3FF0000000000000
/-- −1.0 (R133). -/
def cMinusOne : Val := valOf 0xBFF0000000000000
/-- 2.0 (R133). -/
def cTwo : Val := valOf 0x4000000000000000
/-- −2.0: the literal of spec/42_biquad.md R195 and R197. -/
def cMinusTwo : Val := valOf 0xC000000000000000
/-- 2.5 (R133). -/
def cTwoPointFive : Val := valOf 0x4004000000000000
/-- 100.0 (R133). -/
def cHundred : Val := valOf 0x4059000000000000
/-- 1000.0 (R133). -/
def cThousand : Val := valOf 0x408F400000000000
/-- 0.001, the binary64 value nearest it (R133). -/
def cMilli : Word := 0x3F50624DD2F1A9FC
/-- 1200.0 (R133). -/
def c1200 : Val := valOf 0x4092C00000000000
/-- PI (R132). -/
def cPi : Val := valOf 0x400921FB54442D18

end Sys2Proof.Machine
end

