-- ==== Sys2Proof/Machine/State.lean ====
section
/-! DEFINITION. The state of the WAVLPF core (spec/10_state.md, spec/20_memory.md) as plain data, its reset state
(spec/10_state.md R39, spec/70_reset_and_hazards.md R290), and the reasons a step could stop. INVENTORY.md lists every piece
with its rule. -/

namespace Sys2Proof.Machine

/-- One access of the host, an atomic event (spec/20_memory.md R63, R67). The first three are the bus accesses and `rst`;
`start`, `tick` and `wait` show a command sample by sample (spec/00_scope.md R15), log 1. -/
inductive HostAct where
  /-- `we` = 1 with `addr` and `wdata`. A write of CMD with a command's opcode runs the whole command (R15, R300). -/
  | write (addr : Addr) (data : Word)
  /-- `re` = 1 with `addr`: the word read is `rdata` in the next state. -/
  | read (addr : Addr)
  /-- `rst` (R290). -/
  | reset
  /-- A write of CMD after which the host goes on while BUSY = 1 (R300): the command is started, not run to its end. -/
  | start (data : Word)
  /-- The host does nothing while the core produces one sample or ends a phase (R15, R228). -/
  | tick
  /-- The WAIT of spec/30_encoding.md R108: STATUS is read until BUSY = 0. -/
  | wait
  deriving DecidableEq, Repr

/-- The sequencer's phase (R38). -/
inductive Phase where
  | idle
  | gen
  | filt
  deriving DecidableEq, Repr

/-- The two fault causes of spec/60_exceptions.md R261. Neither stops the machine: `raise` (Machine/Ops.lean) is their entry. -/
inductive FaultCause where
  | capacity
  | illegalCommand
  deriving DecidableEq, Repr

/-- The registers the host writes (R22, R23, R24). -/
structure OperandRegs where
  /-- MODE[11:0]; MODE[63:12] is not stored and reads zero (R23, R97). -/
  mode : BitVec 12
  freq : Word
  srate : Word
  dur : Word
  duty : Word
  cutoff0 : Word
  q : Word
  rate : Word
  xin : Word
  deriving DecidableEq, Repr

/-- The five stored, normalised coefficients (R26). -/
structure Coefs where
  b0 : Word
  b1 : Word
  b2 : Word
  a1 : Word
  a2 : Word
  deriving DecidableEq, Repr

/-- The four history cells (R26; spec/00_scope.md R12). -/
structure History where
  x1 : Word
  x2 : Word
  y1 : Word
  y2 : Word
  deriving DecidableEq, Repr

/-- STATUS (R33); bits [63:4] read zero and are not stored. -/
structure Status where
  busy : Bool
  done : Bool
  cap : Bool
  illcmd : Bool
  deriving DecidableEq, Repr

/-- A sample buffer: (index, word) pairs at strictly rising indices. A word that is not listed has not been written since
reset: it has no value of its own and reads as a free value (spec/20_memory.md R66), log 10. -/
abbrev Memory := List (Nat × Word)

/-- The architectural state of spec/10_state.md R20, the host's coming accesses, the last word read, the instance's
parameters, and the two numbers that name the free values. -/
structure State where
  /-- MODE, FREQ, SRATE, DUR, DUTY, CUTOFF0, Q, RATE, XIN. -/
  opr : OperandRegs
  /-- YOUT (R24). -/
  yout : Word
  /-- B0, B1, B2, A1, A2 (R26). -/
  coef : Coefs
  /-- X1, X2, Y1, Y2 (R26). -/
  hist : History
  /-- FS (R26). -/
  fs : Word
  /-- N (R29). -/
  n : Count
  /-- IDX (R29, R30). -/
  idx : Count
  /-- SPU (R29). -/
  spu : Count
  /-- STATUS (R33). -/
  status : Status
  /-- The hidden phase of the sequencer (R38). -/
  phase : Phase
  /-- The command the sequencer is running; none in phase IDLE (R38, R236). -/
  running : Option Instr
  /-- The dry-waveform buffer DRY (R60). -/
  dry : Memory
  /-- The output buffer OUT (R60). -/
  out : Memory
  /-- `rdata`: the word the last read returned (R63). -/
  rdata : Word
  /-- The host's coming accesses, in the order it issues them (R74). The model's own, log 2. -/
  pending : List HostAct
  /-- NMAX and UNIT_FALLBACK (R8). Never written, log 3. -/
  params : Config.Params
  /-- How many free values have been drawn. The model's own, log 5. -/
  draws : Nat
  /-- How many resets there have been. The model's own, log 10. -/
  epoch : Nat
  deriving DecidableEq, Repr

/-- Why a step could stop with a fault. There is no reason: the core's two fault causes are state changes after which it goes
on (spec/60_exceptions.md R260, R268, R269), so nothing raises one; safe, log 12. -/
inductive Fault where
  deriving DecidableEq, Repr

/-- Why a step could be refused. -/
inductive Refusal where
  /-- Raised by exec's arm of a command that has no meaning yet. No arm raises it: all seven have one. Safe. -/
  | notModelled (mnemonic : String)
  deriving DecidableEq, Repr

/-- Every coefficient +0.0 (R39, R181). -/
def Coefs.zero : Coefs :=
  { b0 := 0, b1 := 0, b2 := 0, a1 := 0, a2 := 0 }

/-- Every history cell +0.0 (R39, R181, R208). -/
def History.zero : History :=
  { x1 := 0, x2 := 0, y1 := 0, y2 := 0 }

/-- The state right after reset: R39, R290. `rdata`, `pending`, `params`, `draws` and `epoch` are logs 14, 2, 3, 5, 10. -/
def State.reset : State :=
  { opr := { mode := 0, freq := 0, srate := 0, dur := 0, duty := 0, cutoff0 := 0, q := 0, rate := 0, xin := 0 }
    yout := 0
    coef := Coefs.zero
    hist := History.zero
    fs := 0
    n := 0
    idx := 0
    spu := 0
    status := { busy := false, done := false, cap := false, illcmd := false }
    phase := .idle
    running := none
    dry := []
    out := []
    rdata := 0
    pending := []
    params := Config.suggested
    draws := 0
    epoch := 0 }

end Sys2Proof.Machine
end

