-- ==== Sys2Proof/Machine/Operands.lean ====
section
/-! DEFINITION. The operands of the commands: the fields of MODE and their resolution (spec/10_state.md R23,
spec/30_encoding.md R91, R100 to R102), the string tokens of the binding layer (R104), and the buffer length every buffer
command computes from its operands (spec/41_oscillator.md R161). Every other operand is a whole F64W word of a register
(R93), read with `valOf`. -/

namespace Sys2Proof.Machine

/-- A filter topology (R100). -/
inductive Topology where
  | lowPass
  | highPass
  | bandPass
  | notch
  | allPass
  | lowShelf
  | highShelf
  deriving DecidableEq, Repr

/-- A waveform kind (R101). -/
inductive Waveform where
  | sawtooth
  | pulse
  deriving DecidableEq, Repr

/-- TOPO = MODE[3:0] (R23). -/
def topoField (mode : BitVec 12) : BitVec 4 := mode.extractLsb' 0 4

/-- WAVE = MODE[7:4] (R23). -/
def waveField (mode : BitVec 12) : BitVec 4 := mode.extractLsb' 4 4

/-- UNIT = MODE[11:8] (R23). -/
def unitField (mode : BitVec 12) : BitVec 4 := mode.extractLsb' 8 4

/-- The value a write of MODE stores: [11:0] of the word; [63:12] is ignored (R23, R97). -/
def modeOfWord (w : Word) : BitVec 12 := w.extractLsb' 0 12

/-- The word a read of MODE returns: the written codes, zero in [63:12] (R23, R97). -/
def modeWord (mode : BitVec 12) : Word := mode.zeroExtend 64

/-- The word a read of a count register returns: zext_64 (R29, R91). -/
def countWord (c : Count) : Word := c.zeroExtend 64

/-- `topology(MODE)` (R100): codes 7 to 15 fall back to LowPass. -/
def topology (mode : BitVec 12) : Topology :=
  match (topoField mode).toNat with
  | 1 => .highPass
  | 2 => .bandPass
  | 3 => .notch
  | 4 => .allPass
  | 5 => .lowShelf
  | 6 => .highShelf
  | _ => .lowPass

/-- `waveform(MODE)` (R101): codes 2 to 15 fall back to Sawtooth. -/
def waveform (mode : BitVec 12) : Waveform :=
  match (waveField mode).toNat with
  | 1 => .pulse
  | _ => .sawtooth

/-- `unit(MODE)` (R102): codes 2 to 15 resolve to UNIT_FALLBACK. -/
def decayUnit (p : Config.Params) (mode : BitVec 12) : Config.DecayUnit :=
  match (unitField mode).toNat with
  | 0 => .hz
  | 1 => .cent
  | _ => p.unitFallback

/-- The TOPO code of a filter_topology string: exact, case-sensitive; any other string is code 15 (R104). -/
def topoToken (t : String) : BitVec 4 :=
  if t = "lpf" then 0
  else if t = "hpf" then 1
  else if t = "bpf" then 2
  else if t = "notch" then 3
  else if t = "apf" then 4
  else if t = "lowshelf" then 5
  else if t = "highshelf" then 6
  else 15

/-- The WAVE code of a waveform_kind string (R104). -/
def waveToken (t : String) : BitVec 4 :=
  if t = "sawtooth" then 0
  else if t = "pulse" then 1
  else 15

/-- The UNIT code of a decay_unit string (R104). -/
def unitToken (t : String) : BitVec 4 :=
  if t = "Hz" then 0
  else if t = "Cent" then 1
  else 15

/-- MODE[11:0] from its three fields (R23). -/
def modeOfFields (topo wave unit : BitVec 4) : BitVec 12 :=
  unit ++ (wave ++ topo)

/-- `n = len_of(SRATE × DUR)`: one rounded multiplication, on every pattern (R161, spec/40_numerics.md R140: N is as R135
gives, whatever the operands). -/
def bufferLen (o : OperandRegs) : Count :=
  lenOf (ieeeMul (ieeeOfWord o.srate) (ieeeOfWord o.dur))

/-- The capacity comparison `len_of(SRATE × DUR) > NMAX` (spec/40_numerics.md R138, spec/60_exceptions.md R261). -/
def overCapacity (s : State) : Bool :=
  decide (s.params.nmax < (bufferLen s.opr).toNat)

end Sys2Proof.Machine
end

