-- ==== Sys2Proof/Machine/Flags.lean ====
section
/-! DEFINITION. The STATUS register (spec/10_state.md R33, spec/30_encoding.md R92): its word, and the ways its bits change.
No arithmetic result sets a flag (R33). -/

namespace Sys2Proof.Machine

/-- The STATW word: [0] BUSY, [1] DONE, [2] CAP, [3] ILLCMD, [63:4] zero (R33, R92). -/
def statusWord (f : Status) : Word :=
  0#60 ++ (BitVec.ofBool f.illcmd ++ (BitVec.ofBool f.cap ++ (BitVec.ofBool f.done ++ BitVec.ofBool f.busy)))

/-- A CMD write is accepted: BUSY set, DONE cleared (R33). -/
def Status.accepted (f : Status) : Status :=
  { f with busy := true, done := false }

/-- A command completes or faults: BUSY cleared, DONE set (R33). -/
def Status.completed (f : Status) : Status :=
  { f with busy := false, done := true }

/-- The sticky bit CAP (R33, spec/60_exceptions.md R263). -/
def Status.withCap (f : Status) : Status :=
  { f with cap := true }

/-- The sticky bit ILLCMD (R33, spec/60_exceptions.md R264). -/
def Status.withIllcmd (f : Status) : Status :=
  { f with illcmd := true }

end Sys2Proof.Machine
end

