-- ==== Sys2Proof/Machine/Ops.lean ====
section
/-! DEFINITION. The named operations over memory and registers that the commands share: reading and writing a sample buffer,
accepting and completing a command, raising a fault (spec/60_exceptions.md R262 to R264: the one shared operation of taking
an exception; nothing is saved and there is no return, R268, R269), and repeating a sample step. -/

namespace Sys2Proof.Machine

/-- The word a buffer lists at index i, if a command has written it since reset. -/
def memGet (i : Nat) : Memory → Option Word
  | [] => none
  | (j, v) :: rest => if i = j then some v else memGet i rest

/-- A buffer with word i written; the form stays canonical. -/
def memSet (i : Nat) (w : Word) : Memory → Memory
  | [] => [(i, w)]
  | (j, v) :: rest =>
    if i < j then (i, w) :: (j, v) :: rest
    else if i = j then (i, w) :: rest
    else (j, v) :: memSet i w rest

/-- The canonical form: indices strictly rising. An unlisted word has no value, so no entry can equal it. -/
def Memory.wf : Memory → Bool
  | [] => true
  | (i, _) :: rest => (rest.all fun e => decide (i < e.1)) && Memory.wf rest

/-- Every listed index is below a bound. -/
def Memory.below (bound : Nat) (m : Memory) : Bool :=
  m.all fun e => decide (e.1 < bound)

/-- What DRY[i] reads as: the word written last, or the free value it has held since reset (R66). -/
def dryWord (s : State) (i : Nat) : Word :=
  (memGet i s.dry).getD (Config.freeBuffer s.epoch false i)

/-- What OUT[i] reads as: the word written last, or the free value it has held since reset (R66). -/
def outWord (s : State) (i : Nat) : Word :=
  (memGet i s.out).getD (Config.freeBuffer s.epoch true i)

/-- A CMD write is accepted: BUSY set, DONE cleared, the command is in progress (R32, R33). -/
def accept (i : Instr) (s : State) : State :=
  { s with status := s.status.accepted, running := some i }

/-- A command completes: BUSY cleared, DONE set, phase IDLE (R33, R38). -/
def complete (s : State) : State :=
  { s with status := s.status.completed, phase := .idle, running := none }

/-- The state change of the Capacity fault (spec/60_exceptions.md R263): nothing else is written. -/
def raiseCapacity (s : State) : State :=
  { s with status := s.status.completed.withCap, n := 0, idx := 0, phase := .idle, running := none }

/-- The state change of the IllegalCommand fault (spec/60_exceptions.md R264): nothing else is written. -/
def raiseIllegal (s : State) : State :=
  { s with status := s.status.withIllcmd }

/-- `raise <Fault>` (spec/60_exceptions.md R262): the fault's sticky bit and the state change of its own rule. -/
def raise (c : FaultCause) (s : State) : State :=
  match c with
  | .capacity => raiseCapacity s
  | .illegalCommand => raiseIllegal s

/-- The code number that names a fault cause in the spec; no register holds it (R261). -/
def faultCode : FaultCause → Nat
  | .capacity => 1
  | .illegalCommand => 2

/-- k sample steps in a row: the body of a loop over the sample index, in increasing order (spec/20_memory.md R68). -/
def repeatStep : (k : Nat) → (f : State → State) → State → State
  | 0, _, s => s
  | k + 1, f, s => repeatStep k f (f s)

/-- The block's reset (spec/70_reset_and_hazards.md R290, R292): every register to its reset value, phase IDLE, the buffers
unspecified anew. What is no register stays: the instance's parameters, the host's coming accesses, `rdata` (log 14), and the
count of the free values drawn. -/
def hardReset (s : State) : State :=
  { State.reset with
    params := s.params, pending := s.pending, rdata := s.rdata, draws := s.draws, epoch := s.epoch + 1 }

end Sys2Proof.Machine
end

