-- ==== Sys2Proof/Machine/Bus.lean ====
section
/-! DEFINITION. The host bus (spec/20_memory.md R62 to R67): the register map (spec/10_state.md R21), reads, and the writes
that start no command, with the access rules of R35 and R36 and the ownership rule while BUSY = 1
(spec/70_reset_and_hazards.md R300). -/

namespace Sys2Proof.Machine

/-- The address space, `addr[31:30]` (R62). -/
def addrSpace (a : Addr) : Nat := (a.extractLsb' 30 2).toNat

/-- The register number or sample index, `addr[29:0]` (R62). -/
def addrIndex (a : Addr) : Nat := (a.extractLsb' 0 30).toNat

/-- The word address of CMD (R21). -/
def cmdAddr : Addr := 0x00000000

/-- The word address of STATUS (R21). -/
def statusAddr : Addr := 0x00000001

/-- What register number r reads as (R21): CMD and every reserved number read 0 (R32, R35, R36). -/
def regRead (r : Nat) (s : State) : Word :=
  match r with
  | 0x01 => statusWord s.status
  | 0x02 => modeWord s.opr.mode
  | 0x03 => s.opr.freq
  | 0x04 => s.opr.srate
  | 0x05 => s.opr.dur
  | 0x06 => s.opr.duty
  | 0x07 => s.opr.cutoff0
  | 0x08 => s.opr.q
  | 0x09 => s.opr.rate
  | 0x0A => s.opr.xin
  | 0x0B => s.yout
  | 0x10 => s.coef.b0
  | 0x11 => s.coef.b1
  | 0x12 => s.coef.b2
  | 0x13 => s.coef.a1
  | 0x14 => s.coef.a2
  | 0x15 => s.hist.x1
  | 0x16 => s.hist.x2
  | 0x17 => s.hist.y1
  | 0x18 => s.hist.y2
  | 0x19 => s.fs
  | 0x1A => countWord s.n
  | 0x1B => countWord s.idx
  | 0x1C => countWord s.spu
  | _ => 0

/-- The operand registers after a write of register number r (R21, R22, R23, R24): a read-only register, CMD and a reserved
number take nothing here (R35, R36). -/
def oprWrite (r : Nat) (w : Word) (o : OperandRegs) : OperandRegs :=
  match r with
  | 0x02 => { o with mode := modeOfWord w }
  | 0x03 => { o with freq := w }
  | 0x04 => { o with srate := w }
  | 0x05 => { o with dur := w }
  | 0x06 => { o with duty := w }
  | 0x07 => { o with cutoff0 := w }
  | 0x08 => { o with q := w }
  | 0x09 => { o with rate := w }
  | 0x0A => { o with xin := w }
  | _ => o

/-- A read that the spec leaves unspecified: a free word (R66, R300; log 13). -/
def readFree (s : State) : State :=
  { s with rdata := Config.freeWord s.draws, draws := s.draws + 1 }

/-- A read of an address while BUSY = 0 (R62): an index at or above NMAX is unspecified (R66), space 3 reads 0 (R62). -/
def readIdle (a : Addr) (s : State) : State :=
  match addrSpace a with
  | 0 => { s with rdata := regRead (addrIndex a) s }
  | 1 => if addrIndex a < s.params.nmax then { s with rdata := dryWord s (addrIndex a) } else readFree s
  | 2 => if addrIndex a < s.params.nmax then { s with rdata := outWord s (addrIndex a) } else readFree s
  | _ => { s with rdata := 0 }

/-- A read: while BUSY = 1 STATUS can be read, and anything else is unspecified (R300). -/
def busRead (a : Addr) (s : State) : State :=
  if s.status.busy then
    if a = statusAddr then { s with rdata := statusWord s.status } else readFree s
  else readIdle a s

/-- A write of any address but CMD: dropped while BUSY = 1 (R300); the buffers are read only and space 3 is ignored (R62). -/
def busWrite (a : Addr) (w : Word) (s : State) : State :=
  if s.status.busy then s
  else if addrSpace a = 0 then { s with opr := oprWrite (addrIndex a) w s.opr }
  else s

/-- The output `done`: a level equal to STATUS.DONE (spec/60_exceptions.md R266). -/
def doneOut (s : State) : Bool := s.status.done

end Sys2Proof.Machine
end

