-- ==== Sys2Proof/Machine/Biquad.lean ====
section
/-! DEFINITION. The biquad filter unit (spec/42_biquad.md): the coefficient engine of the seven topologies, the recurrence,
and the commands BQ_NEW, BQ_SETC, BQ_STEP and BQ_RESET. Lower-case b0 to a2 are unnormalised, the registers hold the
normalised five (spec/00_scope.md R13). -/

namespace Sys2Proof.Machine

/-- The six unnormalised coefficients of a topology (R184). -/
structure RawCoefs where
  b0 : Val
  b1 : Val
  b2 : Val
  a0 : Val
  a1 : Val
  a2 : Val
  deriving DecidableEq, Repr

/-- The five normalised coefficients (R199). -/
structure CoefVals where
  b0 : Val
  b1 : Val
  b2 : Val
  a1 : Val
  a2 : Val
  deriving DecidableEq, Repr

/-- `fcc = clamp(fc, 1.0, FS / 2.5)` (R185). -/
def clampedCutoff (fs fc : Val) : Val :=
  clamp fc cOne (fdiv fs cTwoPointFive)

/-- `w = ((2.0 × PI) × fcc) / FS` (R186). -/
def omega (fs fc : Val) : Val :=
  fdiv (fmul (fmul cTwo cPi) (clampedCutoff fs fc)) fs

/-- `al = sn / (2.0 × q)` (R187). -/
def alpha (sn q : Val) : Val :=
  fdiv sn (fmul cTwo q)

/-- `be = fsqrt(A) × fsqrt(2.0 × al)` with A = 1.0 (R194, R196). -/
def beta (al : Val) : Val :=
  fmul (fsqrt cOne) (fsqrt (fmul cTwo al))

/-- The LowPass row (R188, R189). -/
def rawLowPass (cs al : Val) : RawCoefs :=
  let b1 := fsub cOne cs
  { b0 := fdiv b1 cTwo, b1 := b1, b2 := fdiv b1 cTwo
    a0 := fadd cOne al, a1 := fneg (fmul cTwo cs), a2 := fsub cOne al }

/-- The HighPass row (R188, R190). -/
def rawHighPass (cs al : Val) : RawCoefs :=
  let s := fadd cOne cs
  { b0 := fdiv s cTwo, b1 := fneg s, b2 := fdiv s cTwo
    a0 := fadd cOne al, a1 := fneg (fmul cTwo cs), a2 := fsub cOne al }

/-- The BandPass row (R188, R191). -/
def rawBandPass (cs al : Val) : RawCoefs :=
  { b0 := al, b1 := cZero, b2 := fneg al
    a0 := fadd cOne al, a1 := fneg (fmul cTwo cs), a2 := fsub cOne al }

/-- The Notch row (R188, R192). -/
def rawNotch (cs al : Val) : RawCoefs :=
  { b0 := cOne, b1 := fneg (fmul cTwo cs), b2 := cOne
    a0 := fadd cOne al, a1 := fneg (fmul cTwo cs), a2 := fsub cOne al }

/-- The AllPass row (R188, R193). -/
def rawAllPass (cs al : Val) : RawCoefs :=
  { b0 := fsub cOne al, b1 := fneg (fmul cTwo cs), b2 := fadd cOne al
    a0 := fadd cOne al, a1 := fneg (fmul cTwo cs), a2 := fsub cOne al }

/-- The LowShelf row, with A = 1.0 (R194, R195). -/
def rawLowShelf (cs al : Val) : RawCoefs :=
  let be := beta al
  let ap := fadd cOne cOne
  let am := fsub cOne cOne
  { b0 := fmul cOne (fadd (fsub ap (fmul am cs)) be)
    b1 := fmul (fmul cTwo cOne) (fsub am (fmul ap cs))
    b2 := fmul cOne (fsub (fsub ap (fmul am cs)) be)
    a0 := fadd (fadd ap (fmul am cs)) be
    a1 := fmul cMinusTwo (fadd am (fmul ap cs))
    a2 := fsub (fadd ap (fmul am cs)) be }

/-- The HighShelf row, with A = 1.0 (R194, R197). -/
def rawHighShelf (cs al : Val) : RawCoefs :=
  let be := beta al
  let ap := fadd cOne cOne
  let am := fsub cOne cOne
  { b0 := fmul cOne (fadd (fadd ap (fmul am cs)) be)
    b1 := fmul (fmul cMinusTwo cOne) (fadd am (fmul ap cs))
    b2 := fmul cOne (fsub (fadd ap (fmul am cs)) be)
    a0 := fadd (fsub ap (fmul am cs)) be
    a1 := fmul cTwo (fsub am (fmul ap cs))
    a2 := fsub (fsub ap (fmul am cs)) be }

/-- The formulas of a topology (R188 to R197). -/
def rawCoefs (topo : Topology) (cs al : Val) : RawCoefs :=
  match topo with
  | .lowPass => rawLowPass cs al
  | .highPass => rawHighPass cs al
  | .bandPass => rawBandPass cs al
  | .notch => rawNotch cs al
  | .allPass => rawAllPass cs al
  | .lowShelf => rawLowShelf cs al
  | .highShelf => rawHighShelf cs al

/-- Normalisation: five rounded divisions by a0 (R199). -/
def normalise (r : RawCoefs) : CoefVals :=
  { b0 := fdiv r.b0 r.a0, b1 := fdiv r.b1 r.a0, b2 := fdiv r.b2 r.a0
    a1 := fdiv r.a1 r.a0, a2 := fdiv r.a2 r.a0 }

/-- The coefficients `setc(topo, fc, q)` computes at sample rate fs with a numerics record (R184). For q ≤ 0 (R202, U2) and for
fs ≤ 0 (U3) all five are unspecified: α, and with it a0, is; log 22. -/
def coefVals (nm : Config.Numerics) (topo : Topology) (fs fc q : Val) : CoefVals :=
  let w := omega (positive fs) fc
  normalise (rawCoefs topo (fcos nm w) (alpha (fsin nm w) (positive q)))

/-- Store the five coefficients, a fresh draw for each that is unspecified (R184, spec/40_numerics.md R140). -/
def storeCoefs (c : CoefVals) (s : State) : State :=
  { s with
    coef :=
      { b0 := orFree c.b0 s.draws, b1 := orFree c.b1 (s.draws + 1), b2 := orFree c.b2 (s.draws + 2)
        a1 := orFree c.a1 (s.draws + 3), a2 := orFree c.a2 (s.draws + 4) }
    draws := s.draws + 5 }

/-- The function `setc(topo, fc, q)` (R184): the sample rate is FS, the history is not touched (R200). -/
def setc (topo : Topology) (fc q : Val) (s : State) : State :=
  storeCoefs (coefVals Config.numerics topo (valOf s.fs) fc q) s

/-- The value of the recurrence, `((((B0 × x) + (B1 × X1)) + (B2 × X2)) − (A1 × Y1)) − (A2 × Y2)` (R205). -/
def recurrence (c : Coefs) (h : History) (x : Word) : Val :=
  fsub
    (fsub
      (fadd
        (fadd (fmul (valOf c.b0) (valOf x)) (fmul (valOf c.b1) (valOf h.x1)))
        (fmul (valOf c.b2) (valOf h.x2)))
      (fmul (valOf c.a1) (valOf h.y1)))
    (fmul (valOf c.a2) (valOf h.y2))

/-- The output word of `step(x)`, a fresh draw when it is unspecified (R205, spec/40_numerics.md R140). -/
def stepOut (x : Word) (s : State) : Word :=
  orFree (recurrence s.coef s.hist x) s.draws

/-- The shift of the history, `X2 <- X1; X1 <- x; Y2 <- Y1; Y1 <- y` in parallel (R205). A NaN or an infinity in x, X1 or Y1
leaves a fresh free word where it is moved (spec/40_numerics.md R140); y is the output just computed, drawn at most once
(log 8). Four draws: the output's and one for each move. -/
def shiftHistory (x y : Word) (s : State) : State :=
  { s with
    hist :=
      { x1 := copyWord x (s.draws + 1), x2 := copyWord s.hist.x1 (s.draws + 2)
        y1 := y, y2 := copyWord s.hist.y1 (s.draws + 3) }
    draws := s.draws + 4 }

/-- The effect of BQ_NEW on the filter registers (R181). -/
def newFilter (s : State) : State :=
  { s with fs := s.opr.srate, coef := Coefs.zero, hist := History.zero }

/-- What BQ_NEW does to the state (R181). -/
def runBqNew (s : State) : State :=
  complete (newFilter (accept .bqNew s))

/-- What BQ_SETC does to the state (R183). -/
def runBqSetc (s : State) : State :=
  complete (setc (topology s.opr.mode) (valOf s.opr.cutoff0) (valOf s.opr.q) (accept .bqSetc s))

/-- What BQ_STEP does to the state: `YOUT <- step(XIN)` (R204). -/
def runBqStep (s : State) : State :=
  let s1 := accept .bqStep s
  let y := stepOut s1.opr.xin s1
  complete { shiftHistory s1.opr.xin y s1 with yout := y }

/-- What BQ_RESET does to the state: the four history cells only (R208). -/
def runBqReset (s : State) : State :=
  complete { accept .bqReset s with hist := History.zero }

/-- Command BQ_NEW (R181). -/
def execBqNew (s : State) : Host.Outcome State Fault Refusal :=
  .next (runBqNew s)

/-- Command BQ_SETC (R183). -/
def execBqSetc (s : State) : Host.Outcome State Fault Refusal :=
  .next (runBqSetc s)

/-- Command BQ_STEP (R204). -/
def execBqStep (s : State) : Host.Outcome State Fault Refusal :=
  .next (runBqStep s)

/-- Command BQ_RESET (R208). -/
def execBqReset (s : State) : Host.Outcome State Fault Refusal :=
  .next (runBqReset s)

end Sys2Proof.Machine
end

