-- ==== Sys2Proof/Machine/Oscillator.lean ====
section
/-! DEFINITION. The oscillator unit (spec/41_oscillator.md): the phase, the two waveforms, the generation of the dry buffer,
and the commands OSC_SAW and OSC_PULSE. -/

namespace Sys2Proof.Machine

/-- The phase at sample index i: `p − ffloor(p)` with `p = (u2f(i) / SRATE) × FREQ` (R163). -/
def phaseAt (o : OperandRegs) (i : Count) : Val :=
  let t := fdiv (u2f i) (valOf o.srate)
  let p := fmul t (valOf o.freq)
  fsub p (ffloor p)

/-- The sawtooth sample `(2.0 × phase(i)) − 1.0` (R164). -/
def sawAt (o : OperandRegs) (i : Count) : Val :=
  fsub (fmul cTwo (phaseAt o i)) cOne

/-- `duty = clamp(DUTY, 0.0, 100.0) / 100.0` (R166). -/
def dutyOf (o : OperandRegs) : Val :=
  fdiv (clamp (valOf o.duty) cZero cHundred) cHundred

/-- The pulse comparison `flt(phase(i), duty)`; none when it is unspecified (R167, spec/40_numerics.md R140). -/
def pulseHigh (o : OperandRegs) (i : Count) : Option Bool :=
  flt (phaseAt o i) (dutyOf o)

/-- The two levels of the pulse, exactly 1.0 or −1.0 (R167). -/
def pulseLevel (high : Bool) : Word :=
  if high then 0x3FF0000000000000 else 0xBFF0000000000000

/-- The word of sample i, with draw k where it is unspecified: of the sawtooth a free word, of the pulse a free outcome of its
comparison, so that the sample is one of the two levels all the same (R164, R167; logs 5, 6). -/
def sampleWord (w : Waveform) (o : OperandRegs) (i : Count) (k : Nat) : Word :=
  match w with
  | .sawtooth => orFree (sawAt o i) k
  | .pulse => pulseLevel ((pulseHigh o i).getD (Config.freeBit k))

/-- `DRY[i] <- sample(i)` (R165, R168). -/
def putSample (w : Waveform) (i : Count) (s : State) : State :=
  { s with
    dry := memSet i.toNat (sampleWord w s.opr i s.draws) s.dry
    draws := s.draws + 1 }

/-- One turn of an oscillator command's loop: `DRY[IDX] <- sample(IDX)`, then IDX advances by 1 (R165, R168,
spec/10_state.md R30; log 23). -/
def genSample (w : Waveform) (s : State) : State :=
  { putSample w s.idx s with idx := s.idx + 1 }

/-- `N <- n` and the start of the generation loop at index 0 (R162, R165). -/
def openBuffer (s : State) : State :=
  { s with n := bufferLen s.opr, idx := 0, phase := .gen }

/-- The generation loop, for i = 0 to n − 1 in increasing order (R165, R168, spec/20_memory.md R68). -/
def fillDry (w : Waveform) (s : State) : State :=
  repeatStep s.n.toNat (genSample w) s

/-- The samples of indices 0 to k − 1 in increasing order, with IDX left where it is: RENDER's generation, whose IDX counts
the samples of its filter loop alone (spec/43_render.md R223, spec/10_state.md R30). DESIGN CHOICE, log 23. -/
def generate (w : Waveform) : (k : Nat) → State → State
  | 0, s => s
  | k + 1, s => putSample w (BitVec.ofNat 32 k) (generate w k s)

/-- What OSC_SAW does to the state (R165). -/
def runOscSaw (s : State) : State :=
  let s1 := accept .oscSaw s
  if overCapacity s1 then raise .capacity s1
  else complete (fillDry .sawtooth (openBuffer s1))

/-- What OSC_PULSE does to the state (R168). -/
def runOscPulse (s : State) : State :=
  let s1 := accept .oscPulse s
  if overCapacity s1 then raise .capacity s1
  else complete (fillDry .pulse (openBuffer s1))

/-- Command OSC_SAW (R165). -/
def execOscSaw (s : State) : Host.Outcome State Fault Refusal :=
  .next (runOscSaw s)

/-- Command OSC_PULSE (R168). -/
def execOscPulse (s : State) : Host.Outcome State Fault Refusal :=
  .next (runOscPulse s)

end Sys2Proof.Machine
end

