-- ==== Sys2Proof/Machine/Render.lean ====
section
/-! DEFINITION. The render pipeline and coefficient scheduler (spec/43_render.md): the update interval, the decay schedule,
the loop body, and the command RENDER. -/

namespace Sys2Proof.Machine

/-- `SPU = max(1, len_of(SRATE × 0.001))` (R225). When the product is a NaN or an infinity `len_of` is unspecified there
(spec/40_numerics.md R140) and draw k stands for it; SPU ≥ 1 all the same (R137); log 7. -/
def updateInterval (o : OperandRegs) (k : Nat) : Count :=
  match ieeeMul (ieeeOfWord o.srate) (ieeeOfWord cMilli) with
  | .fin x => maxCount 1 (lenOf (.fin x))
  | _ => maxCount 1 (Config.freeCount k)

/-- Steps 2 and 3: BQ_NEW's effect, SPU, phase FILT (R221, R224, R225). -/
def openFilter (s : State) : State :=
  { newFilter s with
    spu := updateInterval s.opr s.draws, phase := .filt, draws := s.draws + 1 }

/-- Steps 1 to 3 from N on: the whole dry buffer, then the filter, before the loop starts (R221, R223, R224). IDX stays at 0 for the
loop, so that it has the one course of spec/10_state.md R30; log 23. -/
def prepareRender (s : State) : State :=
  openFilter (generate (waveform s.opr.mode) s.n.toNat s)

/-- `tms = (u2f(i) / SRATE) × 1000.0` (R227). -/
def elapsedMs (srate : Val) (i : Count) : Val :=
  fmul (fdiv (u2f i) srate) cThousand

/-- Hz decay, `fmax(1.0, CUTOFF0 − (tms × RATE))` (R229). -/
def hzCutoff (cutoff0 rate tms : Val) : Val :=
  fmax cOne (fsub cutoff0 (fmul tms rate))

/-- Cent decay (R230). -/
def centCutoff (nm : Config.Numerics) (cutoff0 rate tms : Val) : Val :=
  let mc := fmul c1200 (flog2 nm cutoff0)
  let tc := fmin (fmul tms rate) mc
  let ratio := fexp2 nm (fdiv (fneg tc) c1200)
  fmax cOne (fmul cutoff0 ratio)

/-- `cutoff_at(tms)` for a decay unit (R229, R230, R232). -/
def cutoffAt (nm : Config.Numerics) (u : Config.DecayUnit) (cutoff0 rate tms : Val) : Val :=
  match u with
  | .hz => hzCutoff cutoff0 rate tms
  | .cent => centCutoff nm cutoff0 rate tms

/-- The cutoff the schedule gives at sample index i, from the operands alone (R227, R232, R233). -/
def scheduledCutoff (nm : Config.Numerics) (p : Config.Params) (o : OperandRegs) (i : Count) : Val :=
  cutoffAt nm (decayUnit p o.mode) (valOf o.cutoff0) (valOf o.rate) (elapsedMs (valOf o.srate) i)

/-- Sample index i is an update tick, `(i mod SPU) == 0` (R226). -/
def isTick (s : State) : Bool :=
  decide (s.idx.toNat % s.spu.toNat = 0)

/-- The coefficients' update at the present index (R228). -/
def updateCoefs (s : State) : State :=
  setc (topology s.opr.mode) (scheduledCutoff Config.numerics s.params s.opr s.idx) (valOf s.opr.q) s

/-- `OUT[IDX] <- step(DRY[IDX])`, then IDX advances by 1 (R228, spec/10_state.md R30). -/
def filterOne (s : State) : State :=
  let x := dryWord s s.idx.toNat
  let y := stepOut x s
  { shiftHistory x y s with out := memSet s.idx.toNat y s.out, idx := s.idx + 1 }

/-- The loop body of R228: at a tick recompute the cutoff and the coefficients, then filter; at every index filter. -/
def filterSample (s : State) : State :=
  filterOne (if isTick s then updateCoefs s else s)

/-- The loop of step 4, for i = 0 to n − 1 in increasing order (R221). -/
def filterDry (s : State) : State :=
  repeatStep s.n.toNat filterSample s

/-- What RENDER does to the state (R221). -/
def runRender (s : State) : State :=
  let s1 := accept .render s
  if overCapacity s1 then raise .capacity s1
  else complete (filterDry (prepareRender (openBuffer s1)))

/-- Command RENDER (R221). -/
def execRender (s : State) : Host.Outcome State Fault Refusal :=
  .next (runRender s)

end Sys2Proof.Machine
end

