-- ==== Sys2Proof/Machine/Dispatch.lean ====
section
/-! DEFINITION. The dispatch of a command to its meaning: one arm per constructor of Instr (spec/30_encoding.md R94). -/

namespace Sys2Proof.Machine

def exec (i : Instr) (s : State) : Host.Outcome State Fault Refusal :=
  match i with
  | .oscSaw => Sys2Proof.Machine.execOscSaw s
  | .oscPulse => Sys2Proof.Machine.execOscPulse s
  | .bqNew => Sys2Proof.Machine.execBqNew s
  | .bqSetc => Sys2Proof.Machine.execBqSetc s
  | .bqStep => Sys2Proof.Machine.execBqStep s
  | .bqReset => Sys2Proof.Machine.execBqReset s
  | .render => Sys2Proof.Machine.execRender s

end Sys2Proof.Machine
end

