-- ==== Sys2Proof/Machine/Sequencer.lean ====
section
/-! DEFINITION. The sequencer sample by sample (spec/00_scope.md R15: "a model may also take one sample as its step";
spec/10_state.md R30, R38; spec/43_render.md R236): starting a command, one step of its phase, and running it to its end.
It uses the same sample steps as the commands' meanings. Phases are shown for the three commands that loop; the four BQ
commands have no loop, and a started one ends at once (log 1). -/

namespace Sys2Proof.Machine

/-- Start a buffer command: BUSY, the capacity check, N, IDX = 0, phase GEN (R33, R162, R165). -/
def startBuffer (i : Instr) (s : State) : State :=
  let s1 := accept i s
  if overCapacity s1 then raise .capacity s1 else openBuffer s1

/-- Start a command (R32). -/
def startCommand (i : Instr) (s : State) : State :=
  match i with
  | .oscSaw => startBuffer .oscSaw s
  | .oscPulse => startBuffer .oscPulse s
  | .bqNew => runBqNew s
  | .bqSetc => runBqSetc s
  | .bqStep => runBqStep s
  | .bqReset => runBqReset s
  | .render => startBuffer .render s

/-- The waveform the running oscillator command generates, whatever MODE holds (spec/41_oscillator.md R172). -/
def runningWave (s : State) : Waveform :=
  match s.running with
  | some .oscPulse => .pulse
  | _ => .sawtooth

/-- One step of the sequencer: a sample, or the end of the command once IDX = N (R30, R38, R236). That the end is a step of its
own, and that RENDER's steps 1 to 3 are one step, is the model's choice: R15 offers the sample as a step inside the loop of
spec/43_render.md R228 (logs 1, 23). In phase IDLE nothing happens (spec/60_exceptions.md R276,
spec/70_reset_and_hazards.md R291). -/
def tick (s : State) : State :=
  match s.phase with
  | .idle => s
  | .gen =>
    if s.running = some .render then prepareRender s
    else if s.idx.toNat < s.n.toNat then genSample (runningWave s) s
    else complete s
  | .filt =>
    if s.idx.toNat < s.n.toNat then filterSample s
    else complete s

/-- How many steps the running command takes to its end (spec/43_render.md R237). -/
def ticksLeft (s : State) : Nat :=
  match s.phase with
  | .idle => 0
  | .gen => (s.n.toNat - s.idx.toNat) + 1 + (if s.running = some .render then 1 else 0)
  | .filt => (s.n.toNat - s.idx.toNat) + 1

/-- Run the running command to its end (R237: it always ends). -/
def finish (s : State) : State :=
  repeatStep (ticksLeft s) tick s

end Sys2Proof.Machine
end

