-- ==== Sys2Proof/Machine/Drive.lean ====
section
/-! DEFINITION. What one access of the host makes the core do: a CMD write decodes its word and runs the command
(spec/10_state.md R32, spec/30_encoding.md R94, R96), every other access is the bus's or the reset's. -/

namespace Sys2Proof.Machine

/-- A CMD write: dropped while BUSY = 1 (spec/70_reset_and_hazards.md R300), else the command its word decodes to, run whole
(spec/00_scope.md R15), or the IllegalCommand fault (spec/60_exceptions.md R264). -/
def commandWrite (w : Word) (s : State) : Host.Outcome State Fault Refusal :=
  if s.status.busy then .next s
  else
    match decode w with
    | .ok i => exec i s
    | .error _ => .next (raise .illegalCommand s)

/-- The same CMD write when the host goes on while the command runs: the command is started (R32, R300). -/
def commandStart (w : Word) (s : State) : State :=
  if s.status.busy then s
  else
    match decode w with
    | .ok i => startCommand i s
    | .error _ => raise .illegalCommand s

/-- WAIT (spec/30_encoding.md R108): the core runs to the end of its command, and the last read of STATUS shows BUSY = 0. -/
def waitDone (s : State) : State :=
  { finish s with rdata := statusWord (finish s).status }

/-- One access of the host. -/
def perform (a : HostAct) (s : State) : Host.Outcome State Fault Refusal :=
  match a with
  | .write addr w => if addr = cmdAddr then commandWrite w s else .next (busWrite addr w s)
  | .read addr => .next (busRead addr s)
  | .reset => .next (hardReset s)
  | .start w => .next (commandStart w s)
  | .tick => .next (tick s)
  | .wait => .next (waitDone s)

/-- The state in which the host's next access writes the word w to CMD and the core is free to accept it (BUSY = 0). -/
def withCommand (w : Word) (s : State) : State :=
  { s with
    pending := .write cmdAddr w :: s.pending
    status := { s.status with busy := false }
    phase := .idle
    running := none }

end Sys2Proof.Machine
end

