-- ==== Sys2Proof/Machine/Step.lean ====
section
/-! DEFINITION. The step of the machine: the host's next access, or, when it has none, the core's own next step, which in
phase IDLE is none (spec/70_reset_and_hazards.md R291, spec/60_exceptions.md R276). -/

namespace Sys2Proof.Machine

/-- One step. The core fetches nothing (spec/10_state.md R30, R31): commands come in the order of the host's CMD writes. -/
def step (s : State) : Host.Outcome State Fault Refusal :=
  match s.pending with
  | [] => .next (tick s)
  | a :: rest => perform a { s with pending := rest }

/-- s with the command word w (its low nbits bits, the others 0) as the host's next CMD write, accepted by the next step. -/
def State.withFetchWord (s : State) (nbits w : Nat) : State :=
  withCommand (tableWord nbits w) s

end Sys2Proof.Machine
end

