-- ==== Sys2Proof/Machine/HostCalls.lean ====
section
/-! DEFINITION. The host's statements as bus accesses (spec/30_encoding.md R108) and the source's calls as sequences of them
(R109), with the string tokens of R104. Nothing in the step depends on this file. -/

namespace Sys2Proof.Machine

/-- `WR <reg>, <value>`: a write of a register number (R108). -/
def wr (reg : Nat) (w : Word) : HostAct := .write (BitVec.ofNat 32 reg) w

/-- `CMD <mnemonic>`: a write of OP, zero-extended, to address 0 (R108). -/
def cmd (i : Instr) : HostAct := .write cmdAddr (encode i)

/-- `RD <reg>` (R108). -/
def rd (reg : Nat) : HostAct := .read (BitVec.ofNat 32 reg)

/-- The word address of DRY[i] (spec/20_memory.md R62). -/
def dryAddr (i : Nat) : Addr := BitVec.ofNat 32 (0x40000000 + i)

/-- The word address of OUT[i] (spec/20_memory.md R62). -/
def outAddr (i : Nat) : Addr := BitVec.ofNat 32 (0x80000000 + i)

/-- `RD DRY[0] ... RD DRY[n−1]` (R108, R109). -/
def rdDry (n : Nat) : List HostAct := (List.range n).map fun i => .read (dryAddr i)

/-- `RD OUT[0] ... RD OUT[n−1]` (R108, R109). -/
def rdOut (n : Nat) : List HostAct := (List.range n).map fun i => .read (outAddr i)

/-- `generate_sawtooth(f, sr, d)`; n is the value `RD N` returns (R109). -/
def callGenerateSawtooth (f sr d : Word) (n : Nat) : List HostAct :=
  [wr 0x03 f, wr 0x04 sr, wr 0x05 d, cmd .oscSaw, .wait, rd 0x1A] ++ rdDry n

/-- `generate_pulse(f, sr, d, duty)`; n is the value `RD N` returns (R109). -/
def callGeneratePulse (f sr d duty : Word) (n : Nat) : List HostAct :=
  [wr 0x03 f, wr 0x04 sr, wr 0x05 d, wr 0x06 duty, cmd .oscPulse, .wait, rd 0x1A] ++ rdDry n

/-- `new(sr)` (R109). -/
def callNew (sr : Word) : List HostAct :=
  [wr 0x04 sr, cmd .bqNew, .wait]

/-- `set_coefficients(topology, cutoff_hz, q)`; the other fields of MODE as before (R109). -/
def callSetCoefficients (before : BitVec 12) (topo : String) (cutoff q : Word) : List HostAct :=
  [wr 0x02 (modeWord (modeOfFields (topoToken topo) (waveField before) (unitField before))),
   wr 0x07 cutoff, wr 0x08 q, cmd .bqSetc, .wait]

/-- `process_sample(x)` (R109). -/
def callProcessSample (x : Word) : List HostAct :=
  [wr 0x0A x, cmd .bqStep, .wait, rd 0x0B]

/-- `reset()` (R109). -/
def callReset : List HostAct :=
  [cmd .bqReset, .wait]

/-- `render(wave, f, sr, d, duty, topo, fc0, q, unit, rate)`; n is the value `RD N` returns (R109). -/
def callRender (wave : String) (f sr d duty : Word) (topo : String) (fc0 q : Word) (unit : String) (rate : Word)
    (n : Nat) : List HostAct :=
  [wr 0x02 (modeWord (modeOfFields (topoToken topo) (waveToken wave) (unitToken unit))),
   wr 0x03 f, wr 0x04 sr, wr 0x05 d, wr 0x06 duty, wr 0x07 fc0, wr 0x08 q, wr 0x09 rate,
   cmd .render, .wait, rd 0x01, rd 0x1A] ++ rdOut n

end Sys2Proof.Machine
end

