-- ==== Sys2Proof/Machine/Numerics.lean ====
section
/-! DEFINITION. The properties T1 to T5 a claim may assume of a numerics record (spec/40_numerics.md R130). They are
predicates on an arbitrary record, which a statement takes as premises by name; the model assumes none of them of its own
record (log 4). T0 holds by the type of a record. -/

namespace Sys2Proof.Machine

/-- 2.6, the bound of T2, as the binary64 value nearest it (spec/00_scope.md R10). -/
def cTwoPointSix : Val := valOf 0x4004CCCCCCCCCCCD

/-- a ≤ b for two specified values. -/
def Val.leq (a b : Val) : Prop :=
  ∃ x y : Fin64, a = some x ∧ b = some y ∧ x.toInt ≤ y.toInt

/-- T1: for finite x, −1.0 ≤ SIN(x) ≤ 1.0 and −1.0 ≤ COS(x) ≤ 1.0. -/
def T1 (nm : Config.Numerics) : Prop :=
  ∀ w : Word, (valOf w).isSome = true →
    Val.leq cMinusOne (valOf (nm.sin w)) ∧ Val.leq (valOf (nm.sin w)) cOne ∧
      Val.leq cMinusOne (valOf (nm.cos w)) ∧ Val.leq (valOf (nm.cos w)) cOne

/-- T2: for 0 ≤ x ≤ 2.6, SIN(x) ≥ 0. -/
def T2 (nm : Config.Numerics) : Prop :=
  ∀ w : Word, Val.leq cZero (valOf w) → Val.leq (valOf w) cTwoPointSix → Val.leq cZero (valOf (nm.sin w))

/-- T3: EXP2(+0.0) = EXP2(−0.0) = 1.0 exactly. -/
def T3 (nm : Config.Numerics) : Prop :=
  nm.exp2 0x0000000000000000 = 0x3FF0000000000000 ∧ nm.exp2 0x8000000000000000 = 0x3FF0000000000000

/-- T4: LOG2(1.0) = +0.0 exactly. -/
def T4 (nm : Config.Numerics) : Prop :=
  nm.log2 0x3FF0000000000000 = 0x0000000000000000

/-- The real number a finite value stands for. -/
noncomputable def Fin64.toReal (x : Fin64) : ℝ :=
  (x.toInt : ℝ) / 2 ^ 1074

/-- A unit in the last place at a real number: 53 significant bits, never below 2^-1074. -/
noncomputable def ulpAt (r : ℝ) : ℝ :=
  if r = 0 then (2 : ℝ) ^ (-1074 : ℤ) else (2 : ℝ) ^ (max (Int.log 2 |r| - 52) (-1074))

/-- A word is finite and within tol units in the last place of a real number. -/
def Near (tol : ℝ) (w : Word) (r : ℝ) : Prop :=
  ∃ y : Fin64, valOf w = some y ∧ |y.toReal - r| ≤ tol * ulpAt r

/-- T5 with TOL_ULP = tol: each function is within tol units in the last place of the exact real function on finite in-domain
operands; of EXP2 in domain means that the exact result is below 2^1023. R130 names TOL_ULP a parameter, suggested 1, and no type
for it; that it is a real number is DESIGN CHOICE, log 17, as is what a unit in the last place is (PRESUMED). -/
def T5 (tol : ℝ) (nm : Config.Numerics) : Prop :=
  ∀ (w : Word) (x : Fin64),
    valOf w = some x →
      Near tol (nm.sin w) (Real.sin x.toReal) ∧
      Near tol (nm.cos w) (Real.cos x.toReal) ∧
      (0 < x.toInt → Near tol (nm.log2 w) (Real.logb 2 x.toReal)) ∧
      (x.toReal < 1023 → Near tol (nm.exp2 w) ((2 : ℝ) ^ x.toReal))

end Sys2Proof.Machine
end

