-- ==== Sys2Proof/Safety.lean ====
section
/-! DEFINITION. What counts as a safe run, in the terms the statements use: the end of a command and of a run
(spec/70_reset_and_hazards.md R313), the host's duty while BUSY = 1 (R300), the source's domains (spec/00_scope.md R17), and
the invariant of the machine. -/

namespace Sys2Proof.Machine

/-- A command has ended (R313). -/
def State.Ended (s : State) : Prop :=
  s.status.busy = false ∧ s.status.done = true

/-- A run has ended successfully: nothing is left to perform, BUSY = 0, and neither fault has happened (R313, R34). -/
def State.RunOk (s : State) : Prop :=
  s.pending = [] ∧ s.status.busy = false ∧ s.status.cap = false ∧ s.status.illcmd = false

/-- No command is in progress: phase IDLE with BUSY = 0 (R38). -/
def State.Idle (s : State) : Prop :=
  s.phase = .idle ∧ s.status.busy = false ∧ s.running = none

/-- What the host may do while BUSY = 1: read STATUS, assert rst, or let time pass (R300). -/
def hostMay (a : HostAct) : Bool :=
  match a with
  | .write _ _ => false
  | .read addr => addr = statusAddr
  | .reset => true
  | .start _ => false
  | .tick => true
  | .wait => true

/-- The word is a finite value that meets a condition on its exact value in units of 2^-1074. -/
def finiteWith (p : Int → Prop) (w : Word) : Prop :=
  ∃ x : Fin64, valOf w = some x ∧ p x.toInt

/-- The operands are in the source's domain: FREQ, SRATE, CUTOFF0, Q above 0, DUR and RATE at least 0, all finite (R17). -/
structure InDomain (o : OperandRegs) : Prop where
  freq : finiteWith (0 < ·) o.freq
  srate : finiteWith (0 < ·) o.srate
  dur : finiteWith (0 ≤ ·) o.dur
  duty : finiteWith (fun _ => True) o.duty
  cutoff0 : finiteWith (0 < ·) o.cutoff0
  q : finiteWith (0 < ·) o.q
  rate : finiteWith (0 ≤ ·) o.rate

/-- A magnitude a finite binary64 value can have, but for its upper bound: at most 53 significant bits (R10). -/
def Representable (mag : Nat) : Prop :=
  ∃ m k : Nat, m < 2 ^ 53 ∧ mag = m * 2 ^ k

/-- A finite value that a pattern stands for: its magnitude is representable and below that of 2^1024 (R10). -/
def Fin64.Ok (x : Fin64) : Prop :=
  Representable x.mag ∧ x.mag < magLimit

/-- The word is the pattern of the value, wherever the value is specified (spec/40_numerics.md R140). -/
def Shows (v : Val) (w : Word) : Prop :=
  ∀ x : Fin64, v = some x → w = x.pack

/-- Word r is word w moved: w itself wherever w is finite (R140: of a NaN or an infinity no payload is preserved). -/
def Copied (w r : Word) : Prop :=
  ∀ x : Fin64, valOf w = some x → r = w

/-- Words 0 to bound − 1 of a buffer have been written. -/
def filledTo (bound : Nat) (m : Memory) : Prop :=
  ∀ i, i < bound → (memGet i m).isSome = true

/-- The invariant of the machine. -/
structure State.Inv (s : State) : Prop where
  /-- NMAX is in its range (R8). -/
  paramsOk : s.params.ok = true
  /-- Both buffers are in canonical form and within their capacity (R60). -/
  dryWf : s.dry.wf = true
  outWf : s.out.wf = true
  dryBelow : s.dry.below s.params.nmax = true
  outBelow : s.out.below s.params.nmax = true
  /-- IDX ≤ N ≤ NMAX (R30). -/
  nLe : s.n.toNat ≤ s.params.nmax
  idxLe : s.idx.toNat ≤ s.n.toNat
  /-- BUSY = 1 exactly when the phase is not IDLE (R38), and a command is in progress exactly then. -/
  busyIff : s.status.busy = true ↔ s.phase ≠ .idle
  runningIff : s.running = none ↔ s.phase = .idle
  /-- BUSY and DONE are never both 1 (R33). -/
  notBoth : ¬(s.status.busy = true ∧ s.status.done = true)
  /-- Phase GEN belongs to the three commands that generate, phase FILT to RENDER, which has written SPU ≥ 1 (R137, R236). -/
  genRuns : s.phase = .gen → s.running = some .oscSaw ∨ s.running = some .oscPulse ∨ s.running = some .render
  filtRuns : s.phase = .filt → s.running = some .render ∧ 1 ≤ s.spu.toNat
  /-- RENDER generates with IDX at 0: IDX counts the samples of its filter loop (R30, log 23). -/
  genRender : s.phase = .gen → s.running = some .render → s.idx = 0
  /-- Only words a command has written lie below N in DRY, or below IDX while they are being produced: RENDER reads only words
  it has itself generated (R66, R68). -/
  dryFilled : filledTo (if s.phase = .gen then s.idx.toNat else s.n.toNat) s.dry
  outFilled : s.phase = .filt → filledTo s.idx.toNat s.out

end Sys2Proof.Machine
end

