-- ==== Sys2Proof/Certificates/Slice0/Obligations.lean ====
section
/-! DEFINITION. The statements for the provers. Each docstring names the rules of spec/ it formalises. A value that the spec
leaves unspecified (spec/40_numerics.md R140) is not constrained by any statement: `Shows v w` says that the word w is the
pattern of the value v wherever v is specified. -/

open Sys2Proof Sys2Proof.Machine

/-! ## Encodings -/

/-- R94 on words written out from its table. -/
def Obligations.OpcodeTableWordsDecode : Prop :=
  decode 0x0000000000000001 = .ok .oscSaw ∧ decode 0x0000000000000002 = .ok .oscPulse ∧
    decode 0x0000000000000003 = .ok .bqNew ∧ decode 0x0000000000000004 = .ok .bqSetc ∧
    decode 0x0000000000000005 = .ok .bqStep ∧ decode 0x0000000000000006 = .ok .bqReset ∧
    decode 0x0000000000000007 = .ok .render ∧
    decode 0x0000000000000000 = .error (.reservedOpcode 0x0) ∧
    decode 0x0000000000000009 = .error (.reservedOpcode 0x9) ∧
    decode 0xFFFFFFFFFFFFFFF7 = .ok .render

/-- R94: the OP column of the opcode map. -/
def Sys2Proof.Spec.OpCode (i : Instr) : Nat :=
  match i with
  | .oscSaw => 0x1
  | .oscPulse => 0x2
  | .bqNew => 0x3
  | .bqSetc => 0x4
  | .bqStep => 0x5
  | .bqReset => 0x6
  | .render => 0x7

/-- R94: of all 2^64 words, those that decode to a command are the ones whose bits [3:0] are its OP, and a word is rejected
exactly when they are 0 or 8 and above. -/
def Obligations.DecodeLooksOnlyAtTheOpcode : Prop :=
  ∀ w : Word,
    (∀ i : Instr, decode w = .ok i ↔ w.toNat % 16 = Spec.OpCode i) ∧
      ((∃ e, decode w = .error e) ↔ w.toNat % 16 = 0 ∨ 8 ≤ w.toNat % 16)

/-- R90, R94, R105 and the byte order of R64: a command's word, with any value in the bits that are not decoded, serialised and
followed by any bytes, decodes to the command and leaves those bytes; and a canonical word is the encoding of what it
decodes to. -/
def Obligations.DecodeAfterEncode : Prop :=
  (∀ (i : Instr) (ignored : BitVec 60) (rest : List Byte),
      decodeBytes (wordBytes (ignored ++ opcode i) ++ rest) = .ok (i, rest)) ∧
    (∀ (i : Instr) (rest : List Byte), i.wf = true → decodeBytes (encodeBytes i ++ rest) = .ok (i, rest)) ∧
    ∀ w : Word, cmdWordWf w = true → ∃ i, decode w = .ok i ∧ encode i = w

/-- R10: a finite pattern is the pattern of its value, for every one of the finite patterns, and two different values a
pattern stands for have different patterns. -/
def Obligations.FinitePatternsRoundTrip : Prop :=
  (∀ (w : Word) (x : Fin64), ieeeOfWord w = .fin x → x.pack = w ∧ x.Ok) ∧
    ∀ x y : Fin64, x.Ok → y.Ok → x.pack = y.pack → x = y

/-- R100, R101, R102: the resolution of every code of the three fields of MODE. -/
def Obligations.ModeFieldsResolve : Prop :=
  ∀ (p : Config.Params) (topo wave unit : BitVec 4),
    topology (modeOfFields topo wave unit) =
        (if topo = 1 then .highPass else if topo = 2 then .bandPass else if topo = 3 then .notch
          else if topo = 4 then .allPass else if topo = 5 then .lowShelf else if topo = 6 then .highShelf
          else .lowPass) ∧
      waveform (modeOfFields topo wave unit) = (if wave = 1 then .pulse else .sawtooth) ∧
      decayUnit p (modeOfFields topo wave unit) =
        (if unit = 0 then .hz else if unit = 1 then .cent else p.unitFallback)

/-! ## Arithmetic -/

/-- R121: the rounding of an exact magnitude num / den is representable, nothing representable is nearer, and on a tie between
two representable magnitudes its significand is even. -/
def Obligations.RoundingIsToNearestEven : Prop :=
  ∀ num den : Nat, 0 < den →
    Representable (roundMag num den) ∧
      ∀ M : Nat, Representable M →
        |(roundMag num den * den : Int) - num| ≤ |(M * den : Int) - num| ∧
          (M ≠ roundMag num den → |(roundMag num den * den : Int) - num| = |(M * den : Int) - num| →
            2 ^ (ulpExp (num / den) + 1) ∣ roundMag num den)

/-- R121: r is the magnitude (in units of 2^-1074) that num / den rounds to: representable, none nearer, and even on a tie. -/
def Sys2Proof.Spec.Nearest (num den r : Nat) : Prop :=
  Representable r ∧
    ∀ M : Nat, Representable M →
      |(r * den : Int) - num| ≤ |(M * den : Int) - num| ∧
        (M ≠ r → |(r * den : Int) - num| = |(M * den : Int) - num| → 2 ^ (ulpExp (num / den) + 1) ∣ r)

/-- R121: the result of an operation whose exact result is (−1)^neg · num / den in units of 2^-1074: the rounding, or an infinity
when that is 2^1024 or more. -/
def Sys2Proof.Spec.Rounds (neg : Bool) (num den : Nat) (out : Ieee) : Prop :=
  ∃ r : Nat, Spec.Nearest num den r ∧ out = if r < 2 ^ 2098 then .fin { neg := neg, mag := r } else .inf neg

/-- R121: `+`, `−`, `×` and `/` on finite values round the exact sum, difference, product and quotient once. The sign of a zero
sum is that of IEEE 754 (log 18); a zero divisor gives no finite value, and what depends on such a result is unspecified
(R140, log 5). The product of the length and the update interval is the same one. -/
def Obligations.TheFourOperationsRoundOnce : Prop :=
  (∀ x y : Fin64,
      (if x.toInt + y.toInt = 0 then finAdd x y = .fin { neg := x.neg && y.neg, mag := 0 }
        else Spec.Rounds (decide (x.toInt + y.toInt < 0)) (x.toInt + y.toInt).natAbs 1 (finAdd x y)) ∧
      y.negate.toInt = -y.toInt ∧
      Spec.Rounds (x.neg ^^ y.neg) (x.mag * y.mag) (2 ^ 1074) (finMul x y) ∧
      (if y.mag = 0 then valOfIeee (finDiv x y) = none
        else Spec.Rounds (x.neg ^^ y.neg) (x.mag * 2 ^ 1074) y.mag (finDiv x y)) ∧
      fadd (some x) (some y) = valOfIeee (finAdd x y) ∧
      fsub (some x) (some y) = valOfIeee (finAdd x y.negate) ∧
      fmul (some x) (some y) = valOfIeee (finMul x y) ∧
      fdiv (some x) (some y) = valOfIeee (finDiv x y) ∧
      ieeeMul (.fin x) (.fin y) = finMul x y) ∧
    ∀ v : Val,
      fadd none v = none ∧ fadd v none = none ∧ fsub none v = none ∧ fsub v none = none ∧
        fmul none v = none ∧ fmul v none = none ∧ fdiv none v = none ∧ fdiv v none = none

/-- R122: the square root of a positive finite value is representable, and every other representable value lies strictly
farther from the exact root: the midpoint (M + r) / 2, squared, lies strictly on the other side of mag · 2^1074 (so no tie
occurs). Of a zero it is that zero (the sign: log 18), of a negative non-zero value a NaN. -/
def Obligations.SqrtIsCorrectlyRounded : Prop :=
  (∀ mag : Nat, 0 < mag → mag < magLimit → Representable mag →
    finSqrt { neg := false, mag := mag } = .fin { neg := false, mag := sqrtMag mag } ∧
      Representable (sqrtMag mag) ∧
      ∀ M : Nat, Representable M →
        (M < sqrtMag mag → (M + sqrtMag mag) ^ 2 < 4 * (mag * 2 ^ 1074)) ∧
          (sqrtMag mag < M → 4 * (mag * 2 ^ 1074) < (M + sqrtMag mag) ^ 2)) ∧
    ∀ x : Fin64,
      (x.mag = 0 → finSqrt x = .fin x) ∧ (x.mag ≠ 0 → x.neg = true → finSqrt x = .nan) ∧
        fsqrt (some x) = valOfIeee (finSqrt x) ∧ fsqrt none = none

/-- R123: unary minus flips bit 63 and nothing else; the floor is the largest integral value not above, and is the value itself
from 2^52 on. -/
def Obligations.NegationAndFloor : Prop :=
  ∀ (w : Word) (x : Fin64), ieeeOfWord w = .fin x →
    x.negate.pack = w ^^^ 0x8000000000000000 ∧ x.negate.toInt = -x.toInt ∧
      x.floor.Ok ∧ (oneMag : Int) ∣ x.floor.toInt ∧ x.floor.toInt ≤ x.toInt ∧
      (∀ z : Int, (oneMag : Int) ∣ z → z ≤ x.toInt → z ≤ x.floor.toInt) ∧
      (2 ^ 52 * oneMag ≤ x.mag → x.floor = x)

/-- R125, R126: what clamp gives on finite values, and that the upper bound wins on an empty range. -/
def Obligations.ClampTakesTheUpperBoundLast : Prop :=
  ∀ v lo hi : Fin64,
    (lo.toInt ≤ hi.toInt →
      clamp (some v) (some lo) (some hi) =
        if v.toInt < lo.toInt then some lo else if hi.toInt < v.toInt then some hi else some v) ∧
      (hi.toInt < lo.toInt → clamp (some v) (some lo) (some hi) = some hi)

/-- R135: the count of every binary64 value. -/
def Obligations.CountsAreTruncated : Prop :=
  lenOf .nan = 0 ∧ lenOf (.inf true) = 0 ∧ (lenOf (.inf false)).toNat = 4294967295 ∧
    ∀ x : Fin64,
      (x.toInt < oneMag → lenOf (.fin x) = 0) ∧
        (4294967295 * (oneMag : Int) ≤ x.toInt → (lenOf (.fin x)).toNat = 4294967295) ∧
        ((oneMag : Int) ≤ x.toInt → x.toInt < 4294967295 * (oneMag : Int) →
          ((lenOf (.fin x)).toNat : Int) * oneMag ≤ x.toInt ∧ x.toInt < ((lenOf (.fin x)).toNat + 1 : Int) * oneMag)

/-! ## The oscillator -/

/-- R163, R164, R166, R167: the word of sample i of a waveform, from the operands. Of a pulse with an unspecified phase or duty
only the two levels are fixed. -/
def Sys2Proof.Spec.Sample (o : OperandRegs) (pulse : Bool) (i : Nat) (w : Word) : Prop :=
  let p := fmul (fdiv (u2f (BitVec.ofNat 32 i)) (valOf o.srate)) (valOf o.freq)
  let phase := fsub p (ffloor p)
  let duty := fdiv (fmin (fmax (valOf o.duty) cZero) cHundred)
    cHundred
  if pulse then
    ∃ high : Bool, w = (if high then 0x3FF0000000000000 else 0xBFF0000000000000) ∧
      ∀ x d : Fin64, phase = some x → duty = some d → high = decide (x.toInt < d.toInt)
  else Shows (fsub (fmul cTwo phase) cOne) w

/-- R161: the length of the buffers, from the operands. -/
def Sys2Proof.Spec.Length (o : OperandRegs) : Nat :=
  (lenOf (ieeeMul (ieeeOfWord o.srate) (ieeeOfWord o.dur))).toNat

/-- R263: the state the Capacity fault leaves. -/
def Sys2Proof.Spec.CapacityFaulted (s : State) : State :=
  { s with
    n := 0, idx := 0, phase := .idle, running := none
    status := { s.status with busy := false, done := true, cap := true } }

/-- R165: OSC_SAW, with its Capacity fault. -/
def Obligations.OscSawWritesTheSawtooth : Prop :=
  ∀ s : State,
    (s.params.nmax < Spec.Length s.opr → exec .oscSaw s = .next (Spec.CapacityFaulted s)) ∧
      (Spec.Length s.opr ≤ s.params.nmax →
        ∃ t, exec .oscSaw s = .next t ∧
          t = { s with
            n := t.n, idx := t.n, dry := t.dry, draws := t.draws, phase := .idle, running := none
            status := { s.status with busy := false, done := true } } ∧
          t.n.toNat = Spec.Length s.opr ∧
          ∀ i : Nat,
            if i < Spec.Length s.opr then ∃ w, memGet i t.dry = some w ∧ Spec.Sample s.opr false i w
            else memGet i t.dry = memGet i s.dry)

/-- R168: OSC_PULSE, with its Capacity fault. That a sample is one of the two levels even where its phase or the duty is
unspecified is the model's reading of R167 against R140 (log 6). -/
def Obligations.OscPulseWritesThePulse : Prop :=
  ∀ s : State,
    (s.params.nmax < Spec.Length s.opr → exec .oscPulse s = .next (Spec.CapacityFaulted s)) ∧
      (Spec.Length s.opr ≤ s.params.nmax →
        ∃ t, exec .oscPulse s = .next t ∧
          t = { s with
            n := t.n, idx := t.n, dry := t.dry, draws := t.draws, phase := .idle, running := none
            status := { s.status with busy := false, done := true } } ∧
          t.n.toNat = Spec.Length s.opr ∧
          ∀ i : Nat,
            if i < Spec.Length s.opr then ∃ w, memGet i t.dry = some w ∧ Spec.Sample s.opr true i w
            else memGet i t.dry = memGet i s.dry)

/-- R163: the phase is p − ffloor(p); for p ≥ 0 the subtraction is exact and the phase lies in [0, 1); for p < 0 it lies in
[0, 1], and is 1.0 only for p of magnitude at most 2^-54. -/
def Obligations.PhaseLiesInTheUnitInterval : Prop :=
  ∀ (o : OperandRegs) (i : Count),
    (fmul (fdiv (u2f i) (valOf o.srate)) (valOf o.freq) = none → phaseAt o i = none) ∧
    ∀ p : Fin64, fmul (fdiv (u2f i) (valOf o.srate)) (valOf o.freq) = some p →
      ∃ ph : Fin64, phaseAt o i = some ph ∧ fsub (some p) (ffloor (some p)) = some ph ∧
        0 ≤ ph.toInt ∧ ph.toInt ≤ oneMag ∧
        (0 ≤ p.toInt → ph.toInt < oneMag ∧ ph.toInt = p.toInt - p.floor.toInt) ∧
        (ph.toInt = oneMag → p.toInt < 0 ∧ -(2 ^ 1020 : Int) ≤ p.toInt)

/-- R164: the sawtooth sample is (2.0 × phase) − 1.0; at phase 0 it is −1.0; for finite FREQ ≥ 0 and SRATE > 0, the operands of
the source's domain that the sample reads and FREQ = 0 too, a specified sample lies in [−1, 1). -/
def Obligations.SawtoothStaysBelowOne : Prop :=
  ∀ (o : OperandRegs) (i : Count),
    sawAt o i = fsub (fmul cTwo (phaseAt o i)) cOne ∧
    (∀ ph : Fin64, phaseAt o i = some ph → ph.toInt = 0 → sawAt o i = cMinusOne) ∧
    ∀ y : Fin64, finiteWith (0 ≤ ·) o.freq → finiteWith (0 < ·) o.srate → sawAt o i = some y →
      -(oneMag : Int) ≤ y.toInt ∧ y.toInt < oneMag

/-- R161, R222: the length the three buffer commands report in N is a function of SRATE, DUR and NMAX alone, the same for all
three, whatever else the two states hold. -/
def Obligations.BufferCommandsAgreeOnTheLength : Prop :=
  ∀ (i j : Instr) (s u t v : State), i = .oscSaw ∨ i = .oscPulse ∨ i = .render → j = .oscSaw ∨ j = .oscPulse ∨ j = .render →
    s.opr.srate = u.opr.srate → s.opr.dur = u.opr.dur → s.params.nmax = u.params.nmax →
    exec i s = .next t → exec j u = .next v →
      t.n = v.n ∧ t.idx = t.n ∧ v.idx = v.n ∧ t.n.toNat = if Spec.Length s.opr ≤ s.params.nmax then Spec.Length s.opr else 0

/-- R165, R168: the oscillator's result depends on FREQ, SRATE and DUR alone, the pulse's on DUTY too: not on MODE, the filter,
OUT, SPU, XIN, YOUT or the earlier contents of DRY. -/
def Obligations.OscillatorReadsOnlyItsOperands : Prop :=
  ∀ (s u t v : State) (i : Instr), i = .oscSaw ∨ i = .oscPulse →
    s.opr.freq = u.opr.freq → s.opr.srate = u.opr.srate → s.opr.dur = u.opr.dur →
    (i = .oscPulse → s.opr.duty = u.opr.duty) → s.params = u.params → s.draws = u.draws →
    exec i s = .next t → exec i u = .next v →
      t.n = v.n ∧ t.idx = v.idx ∧ ∀ k : Nat, k < t.n.toNat → memGet k t.dry = memGet k v.dry

/-! ## The filter -/

/-- R181: BQ_NEW. -/
def Obligations.BqNewZeroesTheFilter : Prop :=
  ∀ s : State,
    exec .bqNew s = .next
      { s with
        fs := s.opr.srate
        coef := { b0 := 0, b1 := 0, b2 := 0, a1 := 0, a2 := 0 }
        hist := { x1 := 0, x2 := 0, y1 := 0, y2 := 0 }
        phase := .idle, running := none
        status := { s.status with busy := false, done := true } }

/-- R199: the five quotients by a0. -/
def Sys2Proof.Spec.Divided (b0 b1 b2 a0 a1 a2 : Val) : CoefVals :=
  { b0 := fdiv b0 a0, b1 := fdiv b1 a0, b2 := fdiv b2 a0, a1 := fdiv a1 a0, a2 := fdiv a2 a0 }

/-- R188, R199: a row with the shared denominator. -/
def Sys2Proof.Spec.Shared (cs al b0 b1 b2 : Val) : CoefVals :=
  Spec.Divided b0 b1 b2 (fadd cOne al) (fneg (fmul cTwo cs)) (fsub cOne al)

/-- R195, R199 with A = 1.0: LowShelf. -/
def Sys2Proof.Spec.LowShelf (cs be : Val) : CoefVals :=
  Spec.Divided (fmul cOne (fadd (fsub (fadd cOne cOne) (fmul (fsub cOne cOne) cs)) be))
    (fmul (fmul cTwo cOne) (fsub (fsub cOne cOne) (fmul (fadd cOne cOne) cs)))
    (fmul cOne (fsub (fsub (fadd cOne cOne) (fmul (fsub cOne cOne) cs)) be))
    (fadd (fadd (fadd cOne cOne) (fmul (fsub cOne cOne) cs)) be)
    (fmul cMinusTwo (fadd (fsub cOne cOne) (fmul (fadd cOne cOne) cs)))
    (fsub (fadd (fadd cOne cOne) (fmul (fsub cOne cOne) cs)) be)

/-- R197, R199 with A = 1.0: HighShelf. -/
def Sys2Proof.Spec.HighShelf (cs be : Val) : CoefVals :=
  Spec.Divided (fmul cOne (fadd (fadd (fadd cOne cOne) (fmul (fsub cOne cOne) cs)) be))
    (fmul (fmul cMinusTwo cOne) (fadd (fsub cOne cOne) (fmul (fadd cOne cOne) cs)))
    (fmul cOne (fsub (fadd (fadd cOne cOne) (fmul (fsub cOne cOne) cs)) be))
    (fadd (fsub (fadd cOne cOne) (fmul (fsub cOne cOne) cs)) be)
    (fmul cTwo (fsub (fsub cOne cOne) (fmul (fadd cOne cOne) cs)))
    (fsub (fsub (fadd cOne cOne) (fmul (fsub cOne cOne) cs)) be)

/-- R188 to R199: the row of a TOPO code. -/
def Sys2Proof.Spec.Row (topo : Nat) (cs al : Val) : CoefVals :=
  if topo = 1 then
    Spec.Shared cs al (fdiv (fadd cOne cs) cTwo) (fneg (fadd cOne cs)) (fdiv (fadd cOne cs) cTwo)
  else if topo = 2 then Spec.Shared cs al al cZero (fneg al)
  else if topo = 3 then Spec.Shared cs al cOne (fneg (fmul cTwo cs)) cOne
  else if topo = 4 then Spec.Shared cs al (fsub cOne al) (fneg (fmul cTwo cs)) (fadd cOne al)
  else if topo = 5 then Spec.LowShelf cs (fmul (fsqrt cOne) (fsqrt (fmul cTwo al)))
  else if topo = 6 then Spec.HighShelf cs (fmul (fsqrt cOne) (fsqrt (fmul cTwo al)))
  else Spec.Shared cs al (fdiv (fsub cOne cs) cTwo) (fsub cOne cs) (fdiv (fsub cOne cs) cTwo)

/-- R185, R186: the angle from FS and a cutoff. -/
def Sys2Proof.Spec.Angle (fs fc : Val) : Val :=
  fdiv (fmul (fmul cTwo cPi) (fmin (fmax fc cOne) (fdiv fs cTwoPointFive))) fs

/-- R202, U2, U3: an operand above zero, or unspecified. -/
def Sys2Proof.Spec.AboveZero (a : Val) : Val :=
  a.filter fun x => decide (0 < x.toInt)

/-- R184 to R199: the five stored values of a topology from FS, a cutoff and Q, written out from the table of the rules. They are
unspecified for Q ≤ 0 (R202); for FS ≤ 0 no value is claimed either (U3, log 22). -/
def Sys2Proof.Spec.Coefficients (nm : Config.Numerics) (topo : Nat) (fs fc q : Val) : CoefVals :=
  Spec.Row topo (fcos nm (Spec.Angle (Spec.AboveZero fs) fc))
    (fdiv (fsin nm (Spec.Angle (Spec.AboveZero fs) fc)) (fmul cTwo (Spec.AboveZero q)))

/-- The five registers show five values. -/
def Sys2Proof.Spec.CoefsShow (v : CoefVals) (c : Coefs) : Prop :=
  Shows v.b0 c.b0 ∧ Shows v.b1 c.b1 ∧ Shows v.b2 c.b2 ∧ Shows v.a1 c.a1 ∧ Shows v.a2 c.a2

/-- R183 to R202: BQ_SETC, for every topology code, the fallback codes too (R201). -/
def Obligations.BqSetcStoresTheTopologysCoefficients : Prop :=
  ∀ s : State,
    ∃ t, exec .bqSetc s = .next t ∧
      t = { s with
        coef := t.coef, draws := t.draws, phase := .idle, running := none
        status := { s.status with busy := false, done := true } } ∧
      Spec.CoefsShow
        (Spec.Coefficients Config.numerics (s.opr.mode.toNat % 16) (valOf s.fs) (valOf s.opr.cutoff0)
          (valOf s.opr.q)) t.coef

/-- R205: the value of the recurrence. -/
def Sys2Proof.Spec.Output (c : Coefs) (h : History) (x : Word) : Val :=
  fsub
    (fsub (fadd (fadd (fmul (valOf c.b0) (valOf x)) (fmul (valOf c.b1) (valOf h.x1)))
      (fmul (valOf c.b2) (valOf h.x2))) (fmul (valOf c.a1) (valOf h.y1)))
    (fmul (valOf c.a2) (valOf h.y2))

/-- R204, R205: BQ_STEP. Of a XIN, X1 or Y1 that is a NaN or an infinity nothing is said where it is moved (R140). That an
unspecified output is one word in YOUT and Y1 is the model's choice (log 8). -/
def Obligations.BqStepRunsTheRecurrence : Prop :=
  ∀ s : State,
    ∃ t, exec .bqStep s = .next t ∧
      t = { s with
        yout := t.yout, hist := t.hist, draws := t.draws, phase := .idle, running := none
        status := { s.status with busy := false, done := true } } ∧
      Shows (Spec.Output s.coef s.hist s.opr.xin) t.yout ∧
      Copied s.opr.xin t.hist.x1 ∧ Copied s.hist.x1 t.hist.x2 ∧ t.hist.y1 = t.yout ∧ Copied s.hist.y1 t.hist.y2

/-- R206, R40: with all coefficients zero the output is a zero for every finite input, and the input is remembered. -/
def Obligations.ZeroCoefficientsGiveZero : Prop :=
  ∀ s t : State, s.coef = { b0 := 0, b1 := 0, b2 := 0, a1 := 0, a2 := 0 } →
    finiteWith (fun _ => True) s.opr.xin → finiteWith (fun _ => True) s.hist.x1 →
    finiteWith (fun _ => True) s.hist.x2 → finiteWith (fun _ => True) s.hist.y1 →
    finiteWith (fun _ => True) s.hist.y2 → exec .bqStep s = .next t →
      (t.yout = 0x0000000000000000 ∨ t.yout = 0x8000000000000000) ∧ t.hist.x1 = s.opr.xin

/-- R208: BQ_RESET. -/
def Obligations.BqResetClearsOnlyTheHistory : Prop :=
  ∀ s : State,
    exec .bqReset s = .next
      { s with
        hist := { x1 := 0, x2 := 0, y1 := 0, y2 := 0 }
        phase := .idle, running := none
        status := { s.status with busy := false, done := true } }

/-- R193: the AllPass row stores B2 = 1.0, B1 = A1 and B0 = A2, for every numerics record. -/
def Obligations.AllPassMirrorsItsDenominator : Prop :=
  ∀ (nm : Config.Numerics) (fs fc q : Val),
    let c := coefVals nm .allPass fs fc q
    c.b0 = c.a2 ∧ c.b1 = c.a1 ∧ ∀ x, c.b2 = some x → x.pack = 0x3FF0000000000000

/-- R188, R191, R192: the five topologies share A1 and A2; BandPass stores a zero B1 and B2 = −B0; Notch stores B1 = A1 and
B2 = B0; HighPass stores B2 = B0. -/
def Obligations.RowsOfTheCoefficientTable : Prop :=
  ∀ (nm : Config.Numerics) (fs fc q : Val),
    let lp := coefVals nm .lowPass fs fc q
    let hp := coefVals nm .highPass fs fc q
    let bp := coefVals nm .bandPass fs fc q
    let nt := coefVals nm .notch fs fc q
    let ap := coefVals nm .allPass fs fc q
    (lp.a1 = hp.a1 ∧ hp.a1 = bp.a1 ∧ bp.a1 = nt.a1 ∧ nt.a1 = ap.a1) ∧
      (lp.a2 = hp.a2 ∧ hp.a2 = bp.a2 ∧ bp.a2 = nt.a2 ∧ nt.a2 = ap.a2) ∧
      (∀ x, bp.b1 = some x → x.mag = 0) ∧ bp.b2 = fneg bp.b0 ∧
      nt.b1 = nt.a1 ∧ nt.b2 = nt.b0 ∧ hp.b2 = hp.b0 ∧ lp.b2 = lp.b0

/-- R189: the LowPass numerator's halving is exact, so b1 = 2 × b0 and b2 = b0. -/
def Obligations.LowPassHalvingIsExact : Prop :=
  ∀ (c : Word) (al : Val) (b1 : Fin64), (rawLowPass (valOf c) al).b1 = some b1 →
    ∃ b0 : Fin64, (rawLowPass (valOf c) al).b0 = some b0 ∧ (rawLowPass (valOf c) al).b2 = some b0 ∧
      2 * b0.toInt = b1.toInt ∧ fmul cTwo (some b0) = some b1

/-- Two values are both unspecified, or compare equal. -/
def Sys2Proof.Spec.SameValue (a b : Val) : Prop :=
  (a = none ∧ b = none) ∨ ∃ x y : Fin64, a = some x ∧ b = some y ∧ x.toInt = y.toInt

/-- R198: LowShelf and HighShelf store B0 = 1.0, B1 = A1 and B2 = A2 (B1 and A1 may be zeros of opposite sign), and the same
five values. -/
def Obligations.ShelvesAreTheIdentityFilter : Prop :=
  ∀ (nm : Config.Numerics) (fs fc q : Word),
    let lo := coefVals nm .lowShelf (valOf fs) (valOf fc) (valOf q)
    let hi := coefVals nm .highShelf (valOf fs) (valOf fc) (valOf q)
    (∀ x, lo.b0 = some x → x.pack = 0x3FF0000000000000) ∧ Spec.SameValue lo.b1 lo.a1 ∧ lo.b2 = lo.a2 ∧
      (∀ x, hi.b0 = some x → x.pack = 0x3FF0000000000000) ∧ Spec.SameValue hi.b1 hi.a1 ∧ hi.b2 = hi.a2 ∧
      lo.b0 = hi.b0 ∧ Spec.SameValue lo.b1 hi.b1 ∧ lo.b2 = hi.b2

/-- R185: for a finite sample rate of at least 2.5 the clamped cutoff lies in [1.0, FS / 2.5]; below 2.5 (and above 0) it is
FS / 2.5 for every cutoff (R126). -/
def Obligations.CutoffIsClamped : Prop :=
  ∀ (fs fc : Word) (f c : Fin64), valOf fs = some f → valOf fc = some c → 0 < f.toInt →
    ∃ hi y : Fin64, fdiv (valOf fs) cTwoPointFive = some hi ∧ clampedCutoff (valOf fs) (valOf fc) = some y ∧
      (5 * (oneMag : Int) ≤ 2 * f.toInt → (oneMag : Int) ≤ y.toInt ∧ y.toInt ≤ hi.toInt) ∧
      (2 * f.toInt < 5 * (oneMag : Int) → y = hi)

/-- R187 with T2: for FS ≥ 2.5 and q > 0 a specified α is not negative. -/
def Obligations.AlphaIsNotNegative : Prop :=
  ∀ (nm : Config.Numerics) (fs fc q : Word) (f c qv al : Fin64), T2 nm →
    valOf fs = some f → 5 * (oneMag : Int) ≤ 2 * f.toInt → valOf fc = some c →
    valOf q = some qv → 0 < qv.toInt →
    alpha (fsin nm (omega (valOf fs) (valOf fc))) (valOf q) = some al → 0 ≤ al.toInt

/-! ## The render pipeline -/

/-- The operands of the schedule at sample index i (R227 to R230, R232). -/
def Sys2Proof.Spec.Cutoff (nm : Config.Numerics) (p : Config.Params) (o : OperandRegs) (i : Nat) : Val :=
  let tms := fmul (fdiv (u2f (BitVec.ofNat 32 i)) (valOf o.srate)) cThousand
  let hz := fmax cOne (fsub (valOf o.cutoff0) (fmul tms (valOf o.rate)))
  let mc := fmul c1200 (flog2 nm (valOf o.cutoff0))
  let tc := fmin (fmul tms (valOf o.rate)) mc
  let cent := fmax cOne
    (fmul (valOf o.cutoff0) (fexp2 nm (fdiv (fneg tc) c1200)))
  match o.mode.toNat / 256 with
  | 0 => hz
  | 1 => cent
  | _ => match p.unitFallback with
    | .hz => hz
    | .cent => cent

/-- R221 to R230, R232: RENDER, with its Capacity fault. The sequences c and h are the coefficients and the history before each
sample; the number 0x3F50624DD2F1A9FC is 0.001. The model's choices in it: a pulse sample is one of the two levels even where it
is unspecified (log 6); SPU is at least 1 for a product that is not finite (log 7); an unspecified output is one word in OUT and
Y1 (log 8). Of a word that is a NaN or an infinity nothing is said where the history's shift moves it (R140). -/
def Obligations.RenderFiltersTheDryBuffer : Prop :=
  ∀ s : State,
    (s.params.nmax < Spec.Length s.opr → exec .render s = .next (Spec.CapacityFaulted s)) ∧
      (Spec.Length s.opr ≤ s.params.nmax →
        ∃ t, exec .render s = .next t ∧
          t = { s with
            n := t.n, idx := t.n, spu := t.spu, fs := s.opr.srate, coef := t.coef, hist := t.hist
            dry := t.dry, out := t.out, draws := t.draws, phase := .idle, running := none
            status := { s.status with busy := false, done := true } } ∧
          t.n.toNat = Spec.Length s.opr ∧
          1 ≤ t.spu.toNat ∧
          (∀ x, ieeeMul (ieeeOfWord s.opr.srate) (ieeeOfWord 0x3F50624DD2F1A9FC) = .fin x →
            t.spu.toNat = max 1 (lenOf (.fin x)).toNat) ∧
          (∀ i : Nat, Spec.Length s.opr ≤ i → memGet i t.dry = memGet i s.dry ∧ memGet i t.out = memGet i s.out) ∧
          ∃ (c : Nat → Coefs) (h : Nat → History),
            c 0 = { b0 := 0, b1 := 0, b2 := 0, a1 := 0, a2 := 0 } ∧ h 0 = { x1 := 0, x2 := 0, y1 := 0, y2 := 0 } ∧
              c (Spec.Length s.opr) = t.coef ∧ h (Spec.Length s.opr) = t.hist ∧
              ∀ i : Nat, i < Spec.Length s.opr →
                ∃ x y : Word, memGet i t.dry = some x ∧ memGet i t.out = some y ∧
                  Spec.Sample s.opr (s.opr.mode.toNat / 16 % 16 = 1) i x ∧
                  (if i % t.spu.toNat = 0 then
                    Spec.CoefsShow
                      (Spec.Coefficients Config.numerics (s.opr.mode.toNat % 16) (valOf s.opr.srate)
                        (Spec.Cutoff Config.numerics s.params s.opr i) (valOf s.opr.q)) (c (i + 1))
                  else c (i + 1) = c i) ∧
                  Copied x (h (i + 1)).x1 ∧ Copied (h i).x1 (h (i + 1)).x2 ∧ (h (i + 1)).y1 = y ∧
                  Copied (h i).y1 (h (i + 1)).y2 ∧
                  Shows (Spec.Output (c (i + 1)) (h i) x) y)

/-- R238: what RENDER leaves in the filter, the counts and STATUS. X1, X2 and Y2 are the words of DRY and OUT wherever those are
finite; of others R140 fixes nothing. That Y1 is OUT[N − 1] even where that output is unspecified is the model's choice, one draw
for both (log 8). -/
def Obligations.RenderEndState : Prop :=
  ∀ s t : State, Spec.Length s.opr ≤ s.params.nmax → exec .render s = .next t →
    t.idx = t.n ∧ t.fs = s.opr.srate ∧ t.status.busy = false ∧ t.status.done = true ∧
      (1 ≤ t.n.toNat →
        (∃ x, memGet (t.n.toNat - 1) t.dry = some x ∧ Copied x t.hist.x1) ∧
          memGet (t.n.toNat - 1) t.out = some t.hist.y1 ∧
          Spec.CoefsShow
            (Spec.Coefficients Config.numerics (s.opr.mode.toNat % 16) (valOf s.opr.srate)
              (Spec.Cutoff Config.numerics s.params s.opr ((t.n.toNat - 1) / t.spu.toNat * t.spu.toNat))
              (valOf s.opr.q)) t.coef) ∧
      (t.n.toNat = 1 → t.hist.x2 = 0 ∧ t.hist.y2 = 0) ∧
      (2 ≤ t.n.toNat →
        (∃ x, memGet (t.n.toNat - 2) t.dry = some x ∧ Copied x t.hist.x2) ∧
          ∃ y, memGet (t.n.toNat - 2) t.out = some y ∧ Copied y t.hist.y2)

/-- R239: a RENDER of length 0. That SPU is at least 1 for a product that is not finite is log 7's. -/
def Obligations.EmptyRenderStillBuildsTheFilter : Prop :=
  ∀ s : State, Spec.Length s.opr = 0 →
    ∃ t, exec .render s = .next t ∧
      t = { s with
        n := 0, idx := 0, spu := t.spu, fs := s.opr.srate
        coef := { b0 := 0, b1 := 0, b2 := 0, a1 := 0, a2 := 0 }
        hist := { x1 := 0, x2 := 0, y1 := 0, y2 := 0 }
        draws := t.draws, phase := .idle, running := none
        status := { s.status with busy := false, done := true } } ∧
      1 ≤ t.spu.toNat ∧
      ∀ x, ieeeMul (ieeeOfWord s.opr.srate) (ieeeOfWord 0x3F50624DD2F1A9FC) = .fin x →
        t.spu.toNat = max 1 (lenOf (.fin x)).toNat

/-- R69, R224: two states with the same operands, parameters and free values render the same N, SPU, DRY and OUT below N, and
the same filter, whatever their filters, buffers, counts, XIN and YOUT held. -/
def Obligations.RenderForgetsTheOldFilterAndBuffers : Prop :=
  ∀ s u t v : State,
    { s.opr with xin := 0 } = { u.opr with xin := 0 } → s.params = u.params → s.draws = u.draws →
    Spec.Length s.opr ≤ s.params.nmax →
    exec .render s = .next t → exec .render u = .next v →
      t.n = v.n ∧ t.spu = v.spu ∧ t.fs = v.fs ∧ t.coef = v.coef ∧ t.hist = v.hist ∧
        ∀ i : Nat, i < t.n.toNat → memGet i t.dry = memGet i v.dry ∧ memGet i t.out = memGet i v.out

/-- R307, R228: in phase FILT a step of the core changes the coefficients only at an index with IDX mod SPU = 0, and then they are
those of the cutoff at IDX. That a step takes one sample is the model's choice, which R15 allows (log 1). -/
def Obligations.CoefficientsChangeOnlyAtTicks : Prop :=
  ∀ s t : State, s.phase = .filt → s.pending = [] → step s = .next t → t.coef ≠ s.coef →
    s.idx.toNat % s.spu.toNat = 0 ∧ s.idx.toNat < s.n.toNat ∧
      Spec.CoefsShow
        (Spec.Coefficients Config.numerics (s.opr.mode.toNat % 16) (valOf s.fs)
          (Spec.Cutoff Config.numerics s.params s.opr s.idx.toNat) (valOf s.opr.q)) t.coef

/-- R231 (a), R229: a cutoff the model's schedule gives is never below 1 Hz, for either unit, at any index, rate and initial cutoff. -/
def Obligations.CutoffNeverFallsBelowOne : Prop :=
  ∀ (nm : Config.Numerics) (p : Config.Params) (o : OperandRegs) (i : Count) (y : Fin64),
    scheduledCutoff nm p o i = some y → (oneMag : Int) ≤ y.toInt

/-- R231 (c): with T3 the Cent schedule gives exactly CUTOFF0 at index 0, for CUTOFF0 ≥ 1 with a max_cents that is not
negative. -/
def Obligations.CentDecayStartsAtTheInitialCutoff : Prop :=
  ∀ (nm : Config.Numerics) (cutoff0 rate srate : Word) (c r f mc : Fin64), T3 nm →
    valOf cutoff0 = some c → (oneMag : Int) ≤ c.toInt → valOf rate = some r →
    valOf srate = some f → f.toInt ≠ 0 →
    fmul c1200 (flog2 nm (valOf cutoff0)) = some mc → 0 ≤ mc.toInt →
      centCutoff nm (valOf cutoff0) (valOf rate) (elapsedMs (valOf srate) 0) = some c

/-- R242: with RATE = 0, of either sign, a specified cutoff of the model's schedule is the same at every index: in Hz it is CUTOFF0
floored at 1.0. -/
def Obligations.ZeroRateKeepsTheCutoff : Prop :=
  ∀ (nm : Config.Numerics) (p : Config.Params) (o : OperandRegs) (i j : Count) (x y : Fin64),
    o.rate = 0x0000000000000000 ∨ o.rate = 0x8000000000000000 →
    scheduledCutoff nm p o i = some x → scheduledCutoff nm p o j = some y →
      (T3 nm → x.toInt = y.toInt) ∧
        (decayUnit p o.mode = .hz → ∃ c : Fin64, valOf o.cutoff0 = some c ∧ x.toInt = max (oneMag : Int) c.toInt)

/-! ## Faults, STATUS, the host and reset -/

/-- R263: the Capacity fault of the three buffer commands, and nothing else. -/
def Obligations.CapacityFaultWritesNothingElse : Prop :=
  ∀ (i : Instr) (s : State), i = .oscSaw ∨ i = .oscPulse ∨ i = .render →
    s.params.nmax < Spec.Length s.opr →
      exec i s = .next (Spec.CapacityFaulted s)

/-- R264, R96: a CMD write with a reserved opcode sets ILLCMD and nothing else. -/
def Obligations.ReservedOpcodeSetsOnlyIllcmd : Prop :=
  ∀ (s : State) (w : Word) (rest : List HostAct),
    s.pending = .write 0x00000000 w :: rest → s.status.busy = false →
    w.toNat % 16 = 0 ∨ 8 ≤ w.toNat % 16 →
      step s = .next { s with pending := rest, status := { s.status with illcmd := true } }

/-- A step runs the decoded command (R32, R94): a CMD write while BUSY = 0. -/
def Obligations.StepRunsTheDecodedCommand : Prop :=
  ∀ (s : State) (w : Word) (rest : List HostAct) (i : Instr),
    s.pending = .write 0x00000000 w :: rest → s.status.busy = false → decode w = .ok i →
      step s = exec i { s with pending := rest }

/-- R33, R237, R313: every command completes: BUSY = 0, DONE = 1, phase IDLE; the operands and the parameters are as before
(R22), and CAP is set only where the length is above NMAX. -/
def Obligations.EveryCommandCompletes : Prop :=
  ∀ (i : Instr) (s : State),
    ∃ t, exec i s = .next t ∧ t.Idle ∧ t.Ended ∧ t.opr = s.opr ∧ t.params = s.params ∧ t.rdata = s.rdata ∧
      t.pending = s.pending ∧ t.status.illcmd = s.status.illcmd ∧
      (t.status.cap = true → s.status.cap = true ∨ s.params.nmax < Spec.Length s.opr)

/-- R27, R160, R180: which commands write which filter registers, YOUT, the buffers and the counts. -/
def Obligations.CommandsKeepToTheirUnit : Prop :=
  ∀ (i : Instr) (s t : State), exec i s = .next t →
    (t.coef ≠ s.coef → i = .bqNew ∨ i = .bqSetc ∨ i = .render) ∧
      (t.hist ≠ s.hist → i = .bqNew ∨ i = .bqStep ∨ i = .bqReset ∨ i = .render) ∧
      (t.fs ≠ s.fs → i = .bqNew ∨ i = .render) ∧
      (t.yout ≠ s.yout → i = .bqStep) ∧
      (t.dry ≠ s.dry ∨ t.n ≠ s.n ∨ t.idx ≠ s.idx → i = .oscSaw ∨ i = .oscPulse ∨ i = .render) ∧
      (t.out ≠ s.out ∨ t.spu ≠ s.spu → i = .render)

/-- R260, R265: no step stops the machine, whatever the registers hold. -/
def Obligations.EveryStepGoesOn : Prop :=
  ∀ s : State, ∃ t, step s = .next t

/-- R33, R92: the word STATUS reads as. -/
def Obligations.StatusWordLayout : Prop :=
  ∀ f : Status,
    (statusWord f).toNat =
      (if f.busy then 1 else 0) + (if f.done then 2 else 0) + (if f.cap then 4 else 0) + (if f.illcmd then 8 else 0)

/-- R33, R269, R293: only a reset clears CAP or ILLCMD. -/
def Obligations.OnlyResetClearsTheStickyBits : Prop :=
  ∀ s t : State, step s = .next t → (∀ rest, s.pending ≠ .reset :: rest) →
    (s.status.cap = true → t.status.cap = true) ∧ (s.status.illcmd = true → t.status.illcmd = true)

/-- R34: a command started with CAP and ILLCMD at any values behaves as with any others; it leaves ILLCMD, and CAP unless its own
length is above NMAX. -/
def Obligations.StickyBitsDoNotMatter : Prop :=
  ∀ (i : Instr) (s t : State) (c d : Bool), exec i s = .next t →
    ∃ u, exec i { s with status := { s.status with cap := c, illcmd := d } } = .next u ∧
      { u with status := t.status } = t ∧ u.status.busy = t.status.busy ∧ u.status.done = t.status.done ∧
      u.status.illcmd = d ∧
      u.status.cap = (c || ((i = .oscSaw || i = .oscPulse || i = .render) && decide (s.params.nmax < Spec.Length s.opr)))

/-- R34, R313: a run that ends successfully, with no reset in it, had CAP = 0 and ILLCMD = 0 at its start. -/
def Obligations.SuccessfulRunsNeverFaulted : Prop :=
  ∀ (k : Nat) (s t : State), HostAct.reset ∉ s.pending → Sys2Proof.core.run k s = .next t → t.RunOk →
    s.status.cap = false ∧ s.status.illcmd = false

/-- R22: only a host write or a reset changes an operand register; no command and no step of a running one does. -/
def Obligations.OnlyTheHostWritesOperands : Prop :=
  ∀ s t : State, step s = .next t → t.opr ≠ s.opr →
    s.status.busy = false ∧ (∃ a w rest, s.pending = .write a w :: rest) ∨ ∃ rest, s.pending = .reset :: rest

/-- R21, R22, R23, R24, R97: each operand register reads back the word written to it, MODE its low 12 bits, and no other
register, count or flag changes. -/
def Obligations.OperandRegistersReadBack : Prop :=
  ∀ (s : State) (r : Nat) (w : Word) (rest : List HostAct),
    s.pending = .write (BitVec.ofNat 32 r) w :: .read (BitVec.ofNat 32 r) :: rest → s.status.busy = false →
    2 ≤ r → r ≤ 10 →
      ∃ t u, step s = .next t ∧ step t = .next u ∧
        u.rdata.toNat = (if r = 2 then w.toNat % 4096 else w.toNat) ∧
        u = { s with opr := u.opr, rdata := u.rdata, pending := rest } ∧
        ∀ q : Nat, q < 64 → q ≠ r → regRead q u = regRead q s

/-- R21, R29, R33, R32: what the host reads while BUSY = 0 at each register number that is not reserved: STATUS's four flags with
zeros above, MODE's codes, every f64 register's own word, and each count zero-extended; nothing else changes. -/
def Obligations.RegisterReadsFollowTheMap : Prop :=
  ∀ (s : State) (rest : List HostAct), s.status.busy = false →
    ∀ p ∈ ([(0x00, 0),
        (0x01, (if s.status.done then 2 else 0) + (if s.status.cap then 4 else 0) + (if s.status.illcmd then 8 else 0)),
        (0x02, s.opr.mode.toNat), (0x03, s.opr.freq.toNat), (0x04, s.opr.srate.toNat), (0x05, s.opr.dur.toNat),
        (0x06, s.opr.duty.toNat), (0x07, s.opr.cutoff0.toNat), (0x08, s.opr.q.toNat), (0x09, s.opr.rate.toNat),
        (0x0A, s.opr.xin.toNat), (0x0B, s.yout.toNat), (0x10, s.coef.b0.toNat), (0x11, s.coef.b1.toNat),
        (0x12, s.coef.b2.toNat), (0x13, s.coef.a1.toNat), (0x14, s.coef.a2.toNat), (0x15, s.hist.x1.toNat),
        (0x16, s.hist.x2.toNat), (0x17, s.hist.y1.toNat), (0x18, s.hist.y2.toNat), (0x19, s.fs.toNat),
        (0x1A, s.n.toNat), (0x1B, s.idx.toNat), (0x1C, s.spu.toNat)] : List (Nat × Nat)),
      s.pending = .read (BitVec.ofNat 32 p.1) :: rest →
        ∃ t, step s = .next t ∧ t = { s with pending := rest, rdata := t.rdata } ∧ t.rdata.toNat = p.2

/-- R35, R36, R62: a write of any other address than CMD and the operand registers is ignored while BUSY = 0, and a reserved
register number or space 3 reads 0. That reserved addresses are answered and not refused, and that a write to a buffer is
ignored, is the model's choice (log 11). -/
def Obligations.ReadOnlyAndReservedAddresses : Prop :=
  ∀ (s : State) (a : Addr) (rest : List HostAct), s.status.busy = false →
    (∀ w : Word, s.pending = .write a w :: rest → a ≠ 0 → (10 < a.toNat ∨ a.toNat = 1) →
      step s = .next { s with pending := rest }) ∧
      (s.pending = .read a :: rest →
        (a.toNat = 0 ∨ 0x0C ≤ a.toNat ∧ a.toNat ≤ 0x0F ∨ 0x1D ≤ a.toNat ∧ a.toNat < 0x40000000 ∨
          0xC0000000 ≤ a.toNat) →
        step s = .next { s with pending := rest, rdata := 0 })

/-- R62, R66, R67: while BUSY = 0 a read of DRY[i] or OUT[i] with i < NMAX gives the word a command wrote there; of a word no
command has written, the same word on every read; it changes nothing else. -/
def Obligations.BufferReads : Prop :=
  ∀ (s : State) (i : Nat) (a : Addr) (rest : List HostAct) (isOut : Bool),
    s.status.busy = false → s.params.ok = true → i < s.params.nmax →
    a = (if isOut then outAddr i else dryAddr i) → s.pending = .read a :: .read a :: rest →
      ∃ (t u : State) (w : Word), step s = .next t ∧ step t = .next u ∧
        t = { s with pending := .read a :: rest, rdata := w } ∧ u = { s with pending := rest, rdata := w } ∧
        ∀ v, memGet i (if isOut then s.out else s.dry) = some v → w = v

/-- R300, R301: while BUSY = 1 a write, of CMD too, is dropped; a read of STATUS shows it; any other read changes nothing but
the word read and the count of free values. -/
def Obligations.BusyCoreIgnoresTheHost : Prop :=
  ∀ (s : State) (a : HostAct) (rest : List HostAct), s.pending = a :: rest → s.status.busy = true →
    (a = .read 0x00000001 → step s = .next { s with pending := rest, rdata := statusWord s.status }) ∧
      (hostMay a = false →
        ∃ t, step s = .next t ∧ t = { s with pending := rest, rdata := t.rdata, draws := t.draws } ∧
          ((∀ addr, a ≠ .read addr) → t.rdata = s.rdata))

/-- R39, R290, R292: a reset at any point, a command in progress or not, leaves every register at its reset value, phase IDLE,
and no word of either buffer written; the machine right after reset is such a state. -/
def Obligations.ResetLeavesTheResetValues : Prop :=
  let zeroed : State → Prop := fun t =>
    (∀ r : Nat, regRead r t = 0) ∧ t.Idle ∧ doneOut t = false ∧ t.dry = [] ∧ t.out = []
  zeroed State.reset ∧
    ∀ (s : State) (rest : List HostAct), s.pending = .reset :: rest →
      ∃ t, step s = .next t ∧ zeroed t

/-- R291, R276: with no access of the host an idle core does nothing. -/
def Obligations.IdleCoreWaits : Prop :=
  ∀ s : State, s.phase = .idle → s.pending = [] → step s = .next s

/-- R30: with no access of the host a running command's step produces the sample at IDX and advances IDX by exactly 1, or, at
IDX = N, ends the command; IDX never goes back, and N does not change. A step of one sample, one of its own that ends the command
(log 1), and one in which RENDER generates its dry buffer with IDX at 0 (log 23), are the model's choices. -/
def Obligations.IndexAdvancesByOne : Prop :=
  ∀ s t : State, s.Inv → s.phase ≠ .idle → s.pending = [] → step s = .next t →
    t.n = s.n ∧ s.idx.toNat ≤ t.idx.toNat ∧
      if s.phase = .gen ∧ s.running = some .render then s.idx = 0 ∧ t.idx = 0 ∧ t.phase = .filt
      else if s.idx.toNat < s.n.toNat then t.idx.toNat = s.idx.toNat + 1 ∧ t.phase = s.phase
      else t.idx = s.n ∧ t.phase = .idle ∧ t.Ended

/-- The invariant holds at reset. -/
def Obligations.ResetMeetsTheInvariant : Prop :=
  State.reset.Inv

/-- Every step keeps the invariant: the buffers' canonical form and capacity, IDX ≤ N ≤ NMAX, BUSY exactly outside phase IDLE,
BUSY and DONE never both, and every word below N written (R30, R33, R38, R60, R68, R137). The model's choices in it: the steps
and phases GEN and FILT (log 1), SPU ≥ 1 for a product that is not finite (log 7), and IDX = 0 while RENDER generates (log 23). -/
def Obligations.EveryStepKeepsTheInvariant : Prop :=
  ∀ s t : State, s.Inv → step s = .next t → t.Inv

/-- R15, R70, R228, R237: starting a command and running it to its end sample by sample gives the state the command's one step
gives. The sample steps are the model's own, which R15 allows (log 1). -/
def Obligations.SampleStepsRefineTheCommand : Prop :=
  ∀ (i : Instr) (s : State), s.Idle → exec i s = .next (finish (startCommand i s)) ∧
    (finish (startCommand i s)).Idle
end

