-- ==== Sys2Proof/Laws/Bus.lean ====
section
/-! SUPPORT. The frames of a read and of a write that starts no command. -/

namespace Sys2Proof.Machine

/-- A read writes `rdata` and, where it is unspecified, draws a free value; nothing else. -/
theorem busRead_frame (a : Addr) (s : State) :
    busRead a s = { s with rdata := (busRead a s).rdata, draws := (busRead a s).draws } := by
  unfold busRead readIdle readFree
  split <;> split <;> try rfl
  all_goals split <;> rfl

/-- A write of another address than CMD writes an operand register or nothing (R22, R35, R36). -/
theorem busWrite_frame (a : Addr) (w : Word) (s : State) :
    busWrite a w s = { s with opr := (busWrite a w s).opr } := by
  unfold busWrite
  split
  · rfl
  · split <;> rfl

/-- A write while BUSY = 1 is dropped (spec/70_reset_and_hazards.md R300). -/
theorem busWrite_busy {s : State} (h : s.status.busy = true) (a : Addr) (w : Word) : busWrite a w s = s := by
  simp [busWrite, h]

/-- The space of an address, as a quotient (spec/20_memory.md R62). -/
theorem addrSpace_eq (a : Addr) : addrSpace a = a.toNat / 2 ^ 30 := by
  have := a.isLt
  simp only [addrSpace, BitVec.extractLsb'_toNat, Nat.shiftRight_eq_div_pow]
  omega

/-- The register number or sample index of an address, as a remainder (spec/20_memory.md R62). -/
theorem addrIndex_eq (a : Addr) : addrIndex a = a.toNat % 2 ^ 30 := by
  simp [addrIndex, BitVec.extractLsb'_toNat]

/-- While BUSY = 0 a read of register number r returns what the register map gives and changes nothing else. -/
theorem busRead_register {r : Nat} {s : State} (hr : r < 2 ^ 30) (hb : s.status.busy = false) :
    busRead (BitVec.ofNat 32 r) s = { s with rdata := regRead r s } := by
  have ha : (BitVec.ofNat 32 r).toNat = r := by rw [BitVec.toNat_ofNat]; omega
  have hs : addrSpace (BitVec.ofNat 32 r) = 0 := by rw [addrSpace_eq, ha]; omega
  have hi : addrIndex (BitVec.ofNat 32 r) = r := by rw [addrIndex_eq, ha]; omega
  simp [busRead, hb, readIdle, hs, hi]

end Sys2Proof.Machine
end

