-- ==== Sys2Proof/Laws/Float.lean ====
section
/-! SUPPORT. The laws of binary64 rounding (spec/40_numerics.md R121): a rounded magnitude is representable, a representable
magnitude is its own rounding, and rounding does not cross a representable magnitude. -/

namespace Sys2Proof.Machine

theorem ulpExp_zero_of_lt {q : Nat} (h : q < 2 ^ 53) : ulpExp q = 0 := by
  unfold ulpExp
  by_cases h0 : q = 0
  · subst h0; simp
  · have := (Nat.log2_lt h0).2 h
    omega

/-- A positive exponent of the last place means a magnitude of at least 2^52 such units. -/
theorem le_of_ulpExp_pos {q : Nat} (h : 0 < ulpExp q) : 2 ^ 52 * 2 ^ ulpExp q ≤ q := by
  have hk : ulpExp q = q.log2 - 52 := rfl
  have h0 : q ≠ 0 := by rintro rfl; simp [ulpExp] at h
  have h1 : 2 ^ q.log2 ≤ q := Nat.log2_self_le h0
  rw [← Nat.pow_add]
  have : 52 + ulpExp q = q.log2 := by omega
  rw [this]
  exact h1

/-- A magnitude is below 2^53 units of its last place. -/
theorem lt_of_ulpExp (q : Nat) : q < 2 ^ 53 * 2 ^ ulpExp q := by
  by_cases h0 : q = 0
  · subst h0; simp [ulpExp]
  · have h1 : q < 2 ^ (q.log2 + 1) := Nat.lt_log2_self
    rw [← Nat.pow_add]
    refine lt_of_lt_of_le h1 (Nat.pow_le_pow_right (by norm_num) ?_)
    unfold ulpExp
    omega

theorem representable_zero : Representable 0 := ⟨0, 0, by norm_num, by norm_num⟩

theorem representable_of_le {m k : Nat} (h : m ≤ 2 ^ 53) : Representable (m * 2 ^ k) := by
  rcases Nat.lt_or_eq_of_le h with h | h
  · exact ⟨m, k, h, rfl⟩
  · exact ⟨2 ^ 52, k + 1, by norm_num, by rw [h, Nat.pow_succ]; ring⟩

/-- The quotient a rounding truncates to, in units of the last place. -/
theorem round_quot_bounds (num den : Nat) :
    num / (den * 2 ^ ulpExp (num / den)) < 2 ^ 53 ∧
      (0 < ulpExp (num / den) → 2 ^ 52 ≤ num / (den * 2 ^ ulpExp (num / den))) := by
  rw [← Nat.div_div_eq_div_mul]
  have hp : 0 < 2 ^ ulpExp (num / den) := Nat.pos_of_ne_zero (by positivity)
  refine ⟨(Nat.div_lt_iff_lt_mul hp).2 (lt_of_ulpExp _), fun h => ?_⟩
  exact (Nat.le_div_iff_mul_le hp).2 (le_of_ulpExp_pos h)

/-- Rounding truncates or goes up by one unit of the last place. -/
theorem roundMag_cases (num den : Nat) :
    roundMag num den = num / (den * 2 ^ ulpExp (num / den)) * 2 ^ ulpExp (num / den) ∨
      (roundMag num den = (num / (den * 2 ^ ulpExp (num / den)) + 1) * 2 ^ ulpExp (num / den) ∧
        0 < num % (den * 2 ^ ulpExp (num / den))) := by
  unfold roundMag
  simp only
  generalize den * 2 ^ ulpExp (num / den) = D
  split
  · next h =>
    refine Or.inr ⟨rfl, ?_⟩
    rcases h with h | ⟨h, h'⟩
    · omega
    · by_contra hc
      have h0 : num % D = 0 := by omega
      have hD : D = 0 := by omega
      rw [hD] at h'
      simp at h'
  · exact Or.inl rfl

/-- A rounded magnitude is representable (R121). -/
theorem roundMag_representable (num den : Nat) : Representable (roundMag num den) := by
  have hb := (round_quot_bounds num den).1
  rcases roundMag_cases num den with h | ⟨h, -⟩
  · rw [h]; exact representable_of_le (Nat.le_of_lt hb)
  · rw [h]; exact representable_of_le hb

/-- A representable magnitude below a finer grid's 2^52 units is a multiple of the unit, or lies below them. -/
theorem representable_dvd_or_lt {M k : Nat} (h : Representable M) : 2 ^ k ∣ M ∨ M < 2 ^ 52 * 2 ^ k := by
  obtain ⟨a, j, ha, rfl⟩ := h
  by_cases hjk : k ≤ j
  · exact Or.inl (Dvd.dvd.mul_left (pow_dvd_pow 2 hjk) a)
  · right
    have hj : 2 ^ (j + 1) ≤ 2 ^ k := Nat.pow_le_pow_right (by norm_num) (by omega)
    have hp : 0 < 2 ^ j := Nat.pos_of_ne_zero (by positivity)
    calc a * 2 ^ j < 2 ^ 53 * 2 ^ j := Nat.mul_lt_mul_of_pos_right ha hp
      _ = 2 ^ 52 * 2 ^ (j + 1) := by rw [Nat.pow_succ]; ring
      _ ≤ 2 ^ 52 * 2 ^ k := Nat.mul_le_mul_left _ hj

/-- Rounding stays at or above a representable magnitude that is at most the exact one. -/
theorem le_roundMag {num den M : Nat} (hd : 0 < den) (hM : Representable M) (h : M * den ≤ num) :
    M ≤ roundMag num den := by
  have hb := round_quot_bounds num den
  have hp : 0 < 2 ^ ulpExp (num / den) := Nat.pos_of_ne_zero (by positivity)
  have key : M ≤ num / (den * 2 ^ ulpExp (num / den)) * 2 ^ ulpExp (num / den) := by
    rcases representable_dvd_or_lt (k := ulpExp (num / den)) hM with ⟨c, hc⟩ | hlt
    · have : c ≤ num / (den * 2 ^ ulpExp (num / den)) := by
        rw [Nat.le_div_iff_mul_le (Nat.mul_pos hd hp)]
        calc c * (den * 2 ^ ulpExp (num / den)) = M * den := by rw [hc]; ring
          _ ≤ num := h
      calc M = c * 2 ^ ulpExp (num / den) := by rw [hc]; ring
        _ ≤ _ := Nat.mul_le_mul_right _ this
    · rcases Nat.eq_zero_or_pos (ulpExp (num / den)) with h0 | hpos
      · have : M ≤ num / den := (Nat.le_div_iff_mul_le hd).2 h
        simpa [h0] using this
      · exact (Nat.le_of_lt hlt).trans (Nat.mul_le_mul_right _ (hb.2 hpos))
  rcases roundMag_cases num den with h' | ⟨h', -⟩
  · rw [h']; exact key
  · rw [h']; exact key.trans (Nat.mul_le_mul_right _ (Nat.le_succ _))

/-- Rounding stays at or below a representable magnitude that is at least the exact one. -/
theorem roundMag_le {num den M : Nat} (hd : 0 < den) (hM : Representable M) (h : num ≤ M * den) :
    roundMag num den ≤ M := by
  have hb := round_quot_bounds num den
  have hp : 0 < 2 ^ ulpExp (num / den) := Nat.pos_of_ne_zero (by positivity)
  have hD : 0 < den * 2 ^ ulpExp (num / den) := Nat.mul_pos hd hp
  have hdm := Nat.div_add_mod num (den * 2 ^ ulpExp (num / den))
  rcases roundMag_cases num den with h' | ⟨h', hr⟩
  · rw [h']
    have : num / (den * 2 ^ ulpExp (num / den)) * 2 ^ ulpExp (num / den) * den ≤ M * den :=
      calc num / (den * 2 ^ ulpExp (num / den)) * 2 ^ ulpExp (num / den) * den
          = den * 2 ^ ulpExp (num / den) * (num / (den * 2 ^ ulpExp (num / den))) := by ring
        _ ≤ num := by omega
        _ ≤ M * den := h
    exact Nat.le_of_mul_le_mul_right this hd
  · rw [h']
    have hlt : num / (den * 2 ^ ulpExp (num / den)) * 2 ^ ulpExp (num / den) < M := by
      have : num / (den * 2 ^ ulpExp (num / den)) * 2 ^ ulpExp (num / den) * den < M * den :=
        calc num / (den * 2 ^ ulpExp (num / den)) * 2 ^ ulpExp (num / den) * den
            = den * 2 ^ ulpExp (num / den) * (num / (den * 2 ^ ulpExp (num / den))) := by ring
          _ < num := by omega
          _ ≤ M * den := h
      exact Nat.lt_of_mul_lt_mul_right this
    rcases representable_dvd_or_lt (k := ulpExp (num / den)) hM with ⟨c, hc⟩ | hlt'
    · rw [hc, Nat.mul_comm (2 ^ _) c] at hlt ⊢
      exact Nat.mul_le_mul_right _ (Nat.lt_of_mul_lt_mul_right hlt)
    · rcases Nat.eq_zero_or_pos (ulpExp (num / den)) with h0 | hpos
      · rw [h0] at hlt ⊢
        simpa using hlt
      · exact absurd (lt_of_lt_of_le hlt' (Nat.mul_le_mul_right _ (hb.2 hpos))) (by omega)

/-- A representable magnitude is its own rounding: an exact result is not changed (R121). -/
theorem roundMag_exact {M den : Nat} (hd : 0 < den) (hM : Representable M) : roundMag (M * den) den = M :=
  Nat.le_antisymm (roundMag_le hd hM (Nat.le_refl _)) (le_roundMag hd hM (Nat.le_refl _))

/-- The error of a rounding is at most half a unit of the last place (R121). -/
theorem roundMag_error (num den : Nat) (hd : 0 < den) :
    2 * num ≤ 2 * (roundMag num den * den) + den * 2 ^ ulpExp (num / den) ∧
      2 * (roundMag num den * den) ≤ 2 * num + den * 2 ^ ulpExp (num / den) := by
  have hp : 0 < 2 ^ ulpExp (num / den) := Nat.pos_of_ne_zero (by positivity)
  have hD : 0 < den * 2 ^ ulpExp (num / den) := Nat.mul_pos hd hp
  have hdm := Nat.div_add_mod num (den * 2 ^ ulpExp (num / den))
  have hml := Nat.mod_lt num hD
  have e1 : roundMag num den * den =
      (if den * 2 ^ ulpExp (num / den) < 2 * (num % (den * 2 ^ ulpExp (num / den))) ∨
        (2 * (num % (den * 2 ^ ulpExp (num / den))) = den * 2 ^ ulpExp (num / den) ∧
          num / (den * 2 ^ ulpExp (num / den)) % 2 = 1)
        then num / (den * 2 ^ ulpExp (num / den)) + 1 else num / (den * 2 ^ ulpExp (num / den))) *
        (den * 2 ^ ulpExp (num / den)) := by
    unfold roundMag; simp only; ring
  rw [e1]
  generalize den * 2 ^ ulpExp (num / den) = D at *
  generalize num / D = m at *
  generalize num % D = r at *
  have e2 : D * m = m * D := Nat.mul_comm _ _
  split
  · next h =>
    have : (m + 1) * D = m * D + D := by ring
    rw [this]
    omega
  · next h => omega

/-- A representable magnitude is a multiple of its last place. -/
theorem ulpExp_dvd {M : Nat} (h : Representable M) : 2 ^ ulpExp M ∣ M := by
  rcases Nat.eq_zero_or_pos (ulpExp M) with h0 | hpos
  · simp [h0]
  · rcases representable_dvd_or_lt (k := ulpExp M) h with h' | h'
    · exact h'
    · exact absurd h' (Nat.not_lt.2 (le_of_ulpExp_pos hpos))

/-- A finite value has one of the exponents a pattern can hold (R10). -/
theorem ulpExp_lt {M : Nat} (h : M < magLimit) : ulpExp M ≤ 2045 := by
  unfold ulpExp
  by_cases h0 : M = 0
  · subst h0; simp
  · have h1 : M.log2 < 2098 := (Nat.log2_lt h0).2 h
    omega

/-- The value of a pattern from its three fields (R10). -/
theorem ieeeOfWord_of_toNat (w : Word) (neg : Bool) (e f : Nat) (he : e < 2047) (hf : f < 2 ^ 52)
    (hw : w.toNat = (if neg then 2 ^ 63 else 0) + (e * 2 ^ 52 + f)) :
    ieeeOfWord w = .fin ⟨neg, if e = 0 then f else (2 ^ 52 + f) * 2 ^ (e - 1)⟩ := by
  have h1 : w.getLsbD 63 = neg := by
    rw [BitVec.getLsbD, Nat.testBit_eq_decide_div_mod_eq, hw]
    cases neg
    · simp; omega
    · simp; omega
  have h2 : (w.extractLsb' 52 11).toNat = e := by
    rw [BitVec.extractLsb'_toNat, Nat.shiftRight_eq_div_pow, hw]
    cases neg <;> simp <;> omega
  have h3 : (w.extractLsb' 0 52).toNat = f := by
    rw [BitVec.extractLsb'_toNat, Nat.shiftRight_eq_div_pow, hw]
    cases neg <;> simp <;> omega
  unfold ieeeOfWord
  simp only [h1, h2, h3]
  rw [if_neg (by omega)]
  split <;> rfl


/-- Reading back the pattern of a finite value gives that value (R10). -/
theorem ieeeOfWord_pack {x : Fin64} (h : x.Ok) : ieeeOfWord x.pack = .fin x := by
  obtain ⟨hr, hl⟩ := h
  obtain ⟨neg, M⟩ := x
  simp only at hr hl
  have hk := ulpExp_lt hl
  obtain ⟨m, hm⟩ := ulpExp_dvd hr
  have h1 := lt_of_ulpExp M
  have h2 := @le_of_ulpExp_pos M
  have hpack : (Fin64.mk neg M).pack =
      BitVec.ofNat 64 ((if neg then 2 ^ 63 else 0) + (ulpExp M * 2 ^ 52 + M / 2 ^ ulpExp M)) := rfl
  rw [hpack]
  clear hpack hr hl
  generalize ulpExp M = k at *
  subst hm
  have hp : 0 < 2 ^ k := Nat.pos_of_ne_zero (by positivity)
  rw [Nat.mul_div_cancel_left m hp]
  have h53 : m < 2 ^ 53 := by
    rw [Nat.mul_comm] at h1
    exact Nat.lt_of_mul_lt_mul_right h1
  have h52 : 0 < k → 2 ^ 52 ≤ m := fun hpos => by
    have := h2 hpos
    rw [Nat.mul_comm (2 ^ k) m] at this
    exact Nat.le_of_mul_le_mul_right this hp
  have hN : (BitVec.ofNat 64 ((if neg then 2 ^ 63 else 0) + (k * 2 ^ 52 + m))).toNat =
      (if neg then 2 ^ 63 else 0) + (k * 2 ^ 52 + m) := by
    rw [BitVec.toNat_ofNat, Nat.mod_eq_of_lt]
    cases neg <;> simp <;> omega
  by_cases hlow : m < 2 ^ 52
  · have h0 : k = 0 := by
      by_contra hne
      exact absurd (h52 (Nat.pos_of_ne_zero hne)) (by omega)
    rw [ieeeOfWord_of_toNat _ neg 0 m (by norm_num) hlow (by rw [hN, h0])]
    simp [h0]
  · rw [ieeeOfWord_of_toNat _ neg (k + 1) (m - 2 ^ 52) (by omega) (by omega) (by rw [hN]; omega)]
    have e1 : 2 ^ 52 + (m - 2 ^ 52) = m := by omega
    rw [if_neg (by omega), e1, Nat.add_sub_cancel, Nat.mul_comm]

/-- A register that holds the pattern of a finite value has that value. -/
theorem valOf_pack {x : Fin64} (h : x.Ok) : valOf x.pack = some x := by
  rw [valOf, ieeeOfWord_pack h]; rfl

/-- The finite value of a pattern is one a pattern stands for. -/
theorem ok_of_ieeeOfWord {w : Word} {x : Fin64} (h : ieeeOfWord w = .fin x) : x.Ok := by
  unfold ieeeOfWord at h
  have hf : (w.extractLsb' 0 52).toNat < 2 ^ 52 := (w.extractLsb' 0 52).isLt
  have he : (w.extractLsb' 52 11).toNat < 2 ^ 11 := (w.extractLsb' 52 11).isLt
  simp only at h
  split at h
  · split at h <;> cases h
  · split at h
    · cases h
      refine ⟨⟨(w.extractLsb' 0 52).toNat, 0, by omega, by rw [Nat.pow_zero, Nat.mul_one]⟩, ?_⟩
      simp only
      exact lt_of_lt_of_le hf (Nat.pow_le_pow_right (by norm_num) (by norm_num))
    · cases h
      refine ⟨⟨_, _, by omega, rfl⟩, ?_⟩
      simp only
      have h1 : 2 ^ ((w.extractLsb' 52 11).toNat - 1) ≤ 2 ^ 2045 := Nat.pow_le_pow_right (by norm_num) (by omega)
      have h2 : (2 ^ 52 + (w.extractLsb' 0 52).toNat) < 2 ^ 53 := by omega
      calc (2 ^ 52 + (w.extractLsb' 0 52).toNat) * 2 ^ ((w.extractLsb' 52 11).toNat - 1)
          ≤ (2 ^ 52 + (w.extractLsb' 0 52).toNat) * 2 ^ 2045 := Nat.mul_le_mul_left _ h1
        _ < 2 ^ 53 * 2 ^ 2045 := Nat.mul_lt_mul_of_pos_right h2 (Nat.pos_of_ne_zero (by positivity))
        _ = magLimit := by rw [← Nat.pow_add]; rfl

/-- The value of a register is one a pattern stands for. -/
theorem ok_of_valOf {w : Word} {x : Fin64} (h : valOf w = some x) : x.Ok := by
  unfold valOf valOfIeee at h
  split at h
  · next y hy => cases h; exact ok_of_ieeeOfWord hy
  · cases h

/-- A rounded result that is finite is the sign and magnitude given, and one a pattern stands for. -/
theorem ok_of_ieeeOfMag {n : Bool} {m : Nat} {x : Fin64} (hm : Representable m)
    (h : valOfIeee (ieeeOfMag n m) = some x) : x = ⟨n, m⟩ ∧ x.Ok := by
  unfold ieeeOfMag at h
  split at h
  · next hlt => cases h; exact ⟨rfl, hm, hlt⟩
  · cases h

/-- The finite sum of two values is one a pattern stands for. -/
theorem finAdd_ok {x y z : Fin64} (h : valOfIeee (finAdd x y) = some z) : z.Ok := by
  unfold finAdd at h
  simp only at h
  split at h
  · cases h
    exact ⟨representable_zero, Nat.pos_of_ne_zero (by unfold magLimit; positivity)⟩
  · exact (ok_of_ieeeOfMag (roundMag_representable _ _) h).2

theorem oneMag_pos : 0 < oneMag := Nat.pos_of_ne_zero (by unfold oneMag; positivity)

/-- The finite product of two values is one a pattern stands for. -/
theorem finMul_ok {x y z : Fin64} (h : valOfIeee (finMul x y) = some z) : z.Ok :=
  (ok_of_ieeeOfMag (roundMag_representable _ _) h).2

/-- The finite quotient of two values is one a pattern stands for. -/
theorem finDiv_ok {x y z : Fin64} (h : valOfIeee (finDiv x y) = some z) : z.Ok := by
  unfold finDiv at h
  split at h
  · split at h <;> cases h
  · exact (ok_of_ieeeOfMag (roundMag_representable _ _) h).2

/-- 1.0 times a value is that value (R121). -/
theorem finMul_one {x : Fin64} (h : x.Ok) : finMul { neg := false, mag := oneMag } x = .fin x := by
  unfold finMul ieeeOfMag
  rw [Nat.mul_comm oneMag, roundMag_exact oneMag_pos h.1, if_pos h.2]
  simp

/-- A non-zero value divided by itself is 1.0 (R121). -/
theorem finDiv_self {x : Fin64} (hx : x.mag ≠ 0) : finDiv x x = .fin { neg := false, mag := oneMag } := by
  unfold finDiv ieeeOfMag
  rw [if_neg hx, Nat.mul_comm, roundMag_exact (Nat.pos_of_ne_zero hx) ⟨1, 1074, by norm_num, by rw [Nat.one_mul]; rfl⟩,
    if_pos (show oneMag < magLimit from Nat.pow_lt_pow_right (by norm_num) (by norm_num))]
  simp

/-- What is above zero passes `positive`, and nothing else does. -/
theorem positive_eq_some {a : Val} {x : Fin64} : positive a = some x ↔ a = some x ∧ 0 < x.toInt := by
  simp [positive, Option.filter_eq_some_iff]

@[simp] theorem positive_none : positive none = none := rfl

/-- A finite word is moved bit for bit. -/
theorem copyWord_of_some {w : Word} {x : Fin64} (h : valOf w = some x) (k : Nat) : copyWord w k = w := by
  simp [copyWord, h]

/-- A NaN or an infinity leaves a free word where it is moved. -/
theorem copyWord_of_none {w : Word} (h : valOf w = none) (k : Nat) : copyWord w k = Config.freeWord k := by
  simp [copyWord, h]

/-- The bits of a square root from b − 1 down: from an acc with acc² ≤ x < (acc + 2^b)², the integer square root of x. -/
theorem sqrtBits_spec (b x acc : Nat) (hl : acc * acc ≤ x) (hu : x < (acc + 2 ^ b) * (acc + 2 ^ b)) :
    sqrtBits b x acc * sqrtBits b x acc ≤ x ∧ x < (sqrtBits b x acc + 1) * (sqrtBits b x acc + 1) := by
  induction b generalizing acc with
  | zero => exact ⟨hl, hu⟩
  | succ b ih =>
    unfold sqrtBits
    split
    · next h => exact ih _ h (by rw [Nat.pow_succ] at hu; convert hu using 2 <;> omega)
    · next h => exact ih _ hl (Nat.lt_of_not_le h)

end Sys2Proof.Machine
end

