-- ==== Sys2Proof/Laws/Loop.lean ====
section
/-! SUPPORT. The laws of a repeated sample step: its induction principle once, and what it means for a field that each step
keeps or advances. -/

namespace Sys2Proof.Machine

@[simp] theorem repeatStep_zero (f : State → State) (s : State) : repeatStep 0 f s = s := rfl

theorem repeatStep_succ (k : Nat) (f : State → State) (s : State) :
    repeatStep (k + 1) f s = repeatStep k f (f s) := rfl

theorem repeatStep_succ_last (k : Nat) (f : State → State) (s : State) :
    repeatStep (k + 1) f s = f (repeatStep k f s) := by
  induction k generalizing s with
  | zero => rfl
  | succ k ih => rw [repeatStep_succ, ih]; rfl

theorem repeatStep_add (j k : Nat) (f : State → State) (s : State) :
    repeatStep (j + k) f s = repeatStep k f (repeatStep j f s) := by
  induction j generalizing s with
  | zero => simp
  | succ j ih => rw [Nat.succ_add, repeatStep_succ, ih, repeatStep_succ]

/-- A property of the step count and the state that holds at 0 and that each of the first k steps carries on holds after k. -/
theorem repeatStep_induct {f : State → State} {s : State} (P : Nat → State → Prop) (h0 : P 0 s) (k : Nat)
    (hstep : ∀ j t, j < k → P j t → P (j + 1) (f t)) : P k (repeatStep k f s) := by
  induction k with
  | zero => exact h0
  | succ k ih =>
    rw [repeatStep_succ_last]
    exact hstep k _ (Nat.lt_succ_self k) (ih fun j t hj => hstep j t (Nat.lt_succ_of_lt hj))

/-- What every step keeps, the repetition keeps. -/
theorem repeatStep_keeps {α : Type} {f : State → State} (g : State → α) (h : ∀ t, g (f t) = g t) (k : Nat) (s : State) :
    g (repeatStep k f s) = g s := by
  induction k generalizing s with
  | zero => rfl
  | succ k ih => rw [repeatStep_succ, ih, h]

/-- Two step functions that agree along the run give the same run. -/
theorem repeatStep_congr {f g : State → State} {s : State} (P : Nat → State → Prop) (h0 : P 0 s) (k : Nat)
    (hstep : ∀ j t, j < k → P j t → P (j + 1) (f t)) (heq : ∀ j t, j < k → P j t → f t = g t) :
    repeatStep k f s = repeatStep k g s := by
  induction k with
  | zero => rfl
  | succ k ih =>
    have hP := repeatStep_induct P h0 k fun j t hj => hstep j t (Nat.lt_succ_of_lt hj)
    rw [repeatStep_succ_last, repeatStep_succ_last,
      ← ih (fun j t hj => hstep j t (Nat.lt_succ_of_lt hj)) (fun j t hj => heq j t (Nat.lt_succ_of_lt hj))]
    exact heq k _ (Nat.lt_succ_self k) hP

end Sys2Proof.Machine
end

