-- ==== Sys2Proof/Laws/Memory.lean ====
section
/-! SUPPORT. The laws of a sample buffer: reading after a write, and that a write keeps the canonical form and the capacity
(spec/20_memory.md R60, R66). -/

namespace Sys2Proof.Machine

@[simp] theorem memGet_memSet_same (i : Nat) (w : Word) (m : Memory) : memGet i (memSet i w m) = some w := by
  induction m with
  | nil => simp [memSet, memGet]
  | cons e m ih =>
    obtain ⟨j, v⟩ := e
    simp only [memSet]
    split
    · simp [memGet]
    · split
      · simp [memGet]
      · simp [memGet, *]

theorem memGet_memSet_ne {i j : Nat} (h : j ≠ i) (w : Word) (m : Memory) :
    memGet j (memSet i w m) = memGet j m := by
  induction m with
  | nil => simp [memSet, memGet, h]
  | cons e m ih =>
    obtain ⟨k, v⟩ := e
    simp only [memSet]
    split
    · simp [memGet, h]
    · split
      · rename_i hik
        subst hik
        simp [memGet, h]
      · simp [memGet, ih]

theorem memGet_memSet (i j : Nat) (w : Word) (m : Memory) :
    memGet j (memSet i w m) = if j = i then some w else memGet j m := by
  split
  · next h => subst h; simp
  · next h => exact memGet_memSet_ne h w m

/-- What lies above an index in a written buffer: the index written, and what lay above it before. -/
theorem all_lt_memSet {k i : Nat} (w : Word) {m : Memory} (hk : k < i)
    (h : (m.all fun e => decide (k < e.1)) = true) : ((memSet i w m).all fun e => decide (k < e.1)) = true := by
  induction m with
  | nil => simp [memSet, hk]
  | cons e m ih =>
    obtain ⟨j, v⟩ := e
    simp only [List.all_cons, Bool.and_eq_true] at h
    simp only [memSet]
    split
    · simp only [List.all_cons, Bool.and_eq_true]
      exact ⟨by simpa using hk, h.1, h.2⟩
    · split
      · simp only [List.all_cons, Bool.and_eq_true]
        exact ⟨by simpa using hk, h.2⟩
      · simp only [List.all_cons, Bool.and_eq_true]
        exact ⟨h.1, ih h.2⟩

theorem all_lt_trans {k i : Nat} {m : Memory} (hk : k < i)
    (h : (m.all fun e => decide (i < e.1)) = true) : (m.all fun e => decide (k < e.1)) = true := by
  rw [List.all_eq_true] at h ⊢
  intro e he
  have := of_decide_eq_true (h e he)
  exact decide_eq_true (by omega)

/-- A write keeps the canonical form. -/
theorem wf_memSet (i : Nat) (w : Word) {m : Memory} (h : m.wf = true) : (memSet i w m).wf = true := by
  induction m with
  | nil => simp [memSet, Memory.wf]
  | cons e m ih =>
    obtain ⟨j, v⟩ := e
    have h' := h
    simp only [Memory.wf, Bool.and_eq_true] at h'
    simp only [memSet]
    split
    · next hij =>
      have hall : (((j, v) :: m).all fun e => decide (i < e.1)) = true := by
        simp only [List.all_cons, Bool.and_eq_true]
        exact ⟨decide_eq_true hij, all_lt_trans hij h'.1⟩
      change ((((j, v) :: m).all fun e => decide (i < e.1)) && Memory.wf ((j, v) :: m)) = true
      rw [hall, h]
      rfl
    · split
      · next heq =>
        subst heq
        simp only [Memory.wf, Bool.and_eq_true]
        exact ⟨h'.1, h'.2⟩
      · next h1 h2 =>
        simp only [Memory.wf, Bool.and_eq_true]
        exact ⟨all_lt_memSet w (by omega) h'.1, ih h'.2⟩

/-- A write below the capacity keeps the buffer below it. -/
theorem below_memSet {b i : Nat} (w : Word) {m : Memory} (hi : i < b) (h : m.below b = true) :
    (memSet i w m).below b = true := by
  induction m with
  | nil => simp [memSet, Memory.below, hi]
  | cons e m ih =>
    obtain ⟨j, v⟩ := e
    simp only [Memory.below, List.all_cons, Bool.and_eq_true] at h
    simp only [memSet]
    split
    · simp only [Memory.below, List.all_cons, Bool.and_eq_true]
      exact ⟨decide_eq_true hi, h.1, h.2⟩
    · split
      · simp only [Memory.below, List.all_cons, Bool.and_eq_true]
        exact ⟨decide_eq_true hi, h.2⟩
      · simp only [Memory.below, List.all_cons, Bool.and_eq_true]
        exact ⟨h.1, ih h.2⟩

/-- Writing the first unwritten word extends the written part by one. -/
theorem memGet_isSome_memSet {i j : Nat} (w : Word) {m : Memory} (h : j = i ∨ (memGet j m).isSome = true) :
    (memGet j (memSet i w m)).isSome = true := by
  rw [memGet_memSet]
  split
  · rfl
  · next hne => exact h.resolve_left hne

/-- A buffer whose indices all lie above i lists nothing at i. -/
theorem memGet_none_of_all_lt {i : Nat} {m : Memory} (h : (m.all fun e => decide (i < e.1)) = true) :
    memGet i m = none := by
  induction m with
  | nil => rfl
  | cons e m ih =>
    obtain ⟨j, v⟩ := e
    simp only [List.all_cons, Bool.and_eq_true, decide_eq_true_eq] at h
    simp only [memGet]
    rw [if_neg (by omega)]
    exact ih h.2

end Sys2Proof.Machine
end

