-- ==== Sys2Proof/Laws/State.lean ====
section
/-! SUPPORT. What each named update of the state does to each field, one lemma a field, true by rfl: no later proof unfolds a
record update. -/

namespace Sys2Proof.Machine

section
variable (i : Instr) (s : State)

@[simp] theorem accept_opr : (accept i s).opr = s.opr := rfl
@[simp] theorem accept_yout : (accept i s).yout = s.yout := rfl
@[simp] theorem accept_coef : (accept i s).coef = s.coef := rfl
@[simp] theorem accept_hist : (accept i s).hist = s.hist := rfl
@[simp] theorem accept_fs : (accept i s).fs = s.fs := rfl
@[simp] theorem accept_n : (accept i s).n = s.n := rfl
@[simp] theorem accept_idx : (accept i s).idx = s.idx := rfl
@[simp] theorem accept_spu : (accept i s).spu = s.spu := rfl
@[simp] theorem accept_status : (accept i s).status = s.status.accepted := rfl
@[simp] theorem accept_phase : (accept i s).phase = s.phase := rfl
@[simp] theorem accept_running : (accept i s).running = some i := rfl
@[simp] theorem accept_dry : (accept i s).dry = s.dry := rfl
@[simp] theorem accept_out : (accept i s).out = s.out := rfl
@[simp] theorem accept_rdata : (accept i s).rdata = s.rdata := rfl
@[simp] theorem accept_pending : (accept i s).pending = s.pending := rfl
@[simp] theorem accept_params : (accept i s).params = s.params := rfl
@[simp] theorem accept_draws : (accept i s).draws = s.draws := rfl
@[simp] theorem accept_epoch : (accept i s).epoch = s.epoch := rfl

end

section
variable (s : State)

@[simp] theorem complete_opr : (complete s).opr = s.opr := rfl
@[simp] theorem complete_yout : (complete s).yout = s.yout := rfl
@[simp] theorem complete_coef : (complete s).coef = s.coef := rfl
@[simp] theorem complete_hist : (complete s).hist = s.hist := rfl
@[simp] theorem complete_fs : (complete s).fs = s.fs := rfl
@[simp] theorem complete_n : (complete s).n = s.n := rfl
@[simp] theorem complete_idx : (complete s).idx = s.idx := rfl
@[simp] theorem complete_spu : (complete s).spu = s.spu := rfl
@[simp] theorem complete_status : (complete s).status = s.status.completed := rfl
@[simp] theorem complete_phase : (complete s).phase = .idle := rfl
@[simp] theorem complete_running : (complete s).running = none := rfl
@[simp] theorem complete_dry : (complete s).dry = s.dry := rfl
@[simp] theorem complete_out : (complete s).out = s.out := rfl
@[simp] theorem complete_rdata : (complete s).rdata = s.rdata := rfl
@[simp] theorem complete_pending : (complete s).pending = s.pending := rfl
@[simp] theorem complete_params : (complete s).params = s.params := rfl
@[simp] theorem complete_draws : (complete s).draws = s.draws := rfl
@[simp] theorem complete_epoch : (complete s).epoch = s.epoch := rfl

end

section
variable (s : State)

@[simp] theorem raiseCapacity_opr : (raiseCapacity s).opr = s.opr := rfl
@[simp] theorem raiseCapacity_yout : (raiseCapacity s).yout = s.yout := rfl
@[simp] theorem raiseCapacity_coef : (raiseCapacity s).coef = s.coef := rfl
@[simp] theorem raiseCapacity_hist : (raiseCapacity s).hist = s.hist := rfl
@[simp] theorem raiseCapacity_fs : (raiseCapacity s).fs = s.fs := rfl
@[simp] theorem raiseCapacity_n : (raiseCapacity s).n = 0 := rfl
@[simp] theorem raiseCapacity_idx : (raiseCapacity s).idx = 0 := rfl
@[simp] theorem raiseCapacity_spu : (raiseCapacity s).spu = s.spu := rfl
@[simp] theorem raiseCapacity_status : (raiseCapacity s).status = s.status.completed.withCap := rfl
@[simp] theorem raiseCapacity_phase : (raiseCapacity s).phase = .idle := rfl
@[simp] theorem raiseCapacity_running : (raiseCapacity s).running = none := rfl
@[simp] theorem raiseCapacity_dry : (raiseCapacity s).dry = s.dry := rfl
@[simp] theorem raiseCapacity_out : (raiseCapacity s).out = s.out := rfl
@[simp] theorem raiseCapacity_rdata : (raiseCapacity s).rdata = s.rdata := rfl
@[simp] theorem raiseCapacity_pending : (raiseCapacity s).pending = s.pending := rfl
@[simp] theorem raiseCapacity_params : (raiseCapacity s).params = s.params := rfl
@[simp] theorem raiseCapacity_draws : (raiseCapacity s).draws = s.draws := rfl
@[simp] theorem raiseCapacity_epoch : (raiseCapacity s).epoch = s.epoch := rfl

end

section
variable (s : State)

@[simp] theorem raiseIllegal_opr : (raiseIllegal s).opr = s.opr := rfl
@[simp] theorem raiseIllegal_yout : (raiseIllegal s).yout = s.yout := rfl
@[simp] theorem raiseIllegal_coef : (raiseIllegal s).coef = s.coef := rfl
@[simp] theorem raiseIllegal_hist : (raiseIllegal s).hist = s.hist := rfl
@[simp] theorem raiseIllegal_fs : (raiseIllegal s).fs = s.fs := rfl
@[simp] theorem raiseIllegal_n : (raiseIllegal s).n = s.n := rfl
@[simp] theorem raiseIllegal_idx : (raiseIllegal s).idx = s.idx := rfl
@[simp] theorem raiseIllegal_spu : (raiseIllegal s).spu = s.spu := rfl
@[simp] theorem raiseIllegal_status : (raiseIllegal s).status = s.status.withIllcmd := rfl
@[simp] theorem raiseIllegal_phase : (raiseIllegal s).phase = s.phase := rfl
@[simp] theorem raiseIllegal_running : (raiseIllegal s).running = s.running := rfl
@[simp] theorem raiseIllegal_dry : (raiseIllegal s).dry = s.dry := rfl
@[simp] theorem raiseIllegal_out : (raiseIllegal s).out = s.out := rfl
@[simp] theorem raiseIllegal_rdata : (raiseIllegal s).rdata = s.rdata := rfl
@[simp] theorem raiseIllegal_pending : (raiseIllegal s).pending = s.pending := rfl
@[simp] theorem raiseIllegal_params : (raiseIllegal s).params = s.params := rfl
@[simp] theorem raiseIllegal_draws : (raiseIllegal s).draws = s.draws := rfl
@[simp] theorem raiseIllegal_epoch : (raiseIllegal s).epoch = s.epoch := rfl

end

section
variable (w : Waveform) (i : Count) (s : State)

@[simp] theorem putSample_opr : (putSample w i s).opr = s.opr := rfl
@[simp] theorem putSample_yout : (putSample w i s).yout = s.yout := rfl
@[simp] theorem putSample_coef : (putSample w i s).coef = s.coef := rfl
@[simp] theorem putSample_hist : (putSample w i s).hist = s.hist := rfl
@[simp] theorem putSample_fs : (putSample w i s).fs = s.fs := rfl
@[simp] theorem putSample_n : (putSample w i s).n = s.n := rfl
@[simp] theorem putSample_idx : (putSample w i s).idx = s.idx := rfl
@[simp] theorem putSample_spu : (putSample w i s).spu = s.spu := rfl
@[simp] theorem putSample_status : (putSample w i s).status = s.status := rfl
@[simp] theorem putSample_phase : (putSample w i s).phase = s.phase := rfl
@[simp] theorem putSample_running : (putSample w i s).running = s.running := rfl
@[simp] theorem putSample_dry : (putSample w i s).dry = memSet i.toNat (sampleWord w s.opr i s.draws) s.dry := rfl
@[simp] theorem putSample_out : (putSample w i s).out = s.out := rfl
@[simp] theorem putSample_rdata : (putSample w i s).rdata = s.rdata := rfl
@[simp] theorem putSample_pending : (putSample w i s).pending = s.pending := rfl
@[simp] theorem putSample_params : (putSample w i s).params = s.params := rfl
@[simp] theorem putSample_draws : (putSample w i s).draws = s.draws + 1 := rfl
@[simp] theorem putSample_epoch : (putSample w i s).epoch = s.epoch := rfl

end

section
variable (w : Waveform) (s : State)

@[simp] theorem genSample_opr : (genSample w s).opr = s.opr := rfl
@[simp] theorem genSample_yout : (genSample w s).yout = s.yout := rfl
@[simp] theorem genSample_coef : (genSample w s).coef = s.coef := rfl
@[simp] theorem genSample_hist : (genSample w s).hist = s.hist := rfl
@[simp] theorem genSample_fs : (genSample w s).fs = s.fs := rfl
@[simp] theorem genSample_n : (genSample w s).n = s.n := rfl
@[simp] theorem genSample_idx : (genSample w s).idx = s.idx + 1 := rfl
@[simp] theorem genSample_spu : (genSample w s).spu = s.spu := rfl
@[simp] theorem genSample_status : (genSample w s).status = s.status := rfl
@[simp] theorem genSample_phase : (genSample w s).phase = s.phase := rfl
@[simp] theorem genSample_running : (genSample w s).running = s.running := rfl
@[simp] theorem genSample_dry : (genSample w s).dry = memSet s.idx.toNat (sampleWord w s.opr s.idx s.draws) s.dry := rfl
@[simp] theorem genSample_out : (genSample w s).out = s.out := rfl
@[simp] theorem genSample_rdata : (genSample w s).rdata = s.rdata := rfl
@[simp] theorem genSample_pending : (genSample w s).pending = s.pending := rfl
@[simp] theorem genSample_params : (genSample w s).params = s.params := rfl
@[simp] theorem genSample_draws : (genSample w s).draws = s.draws + 1 := rfl
@[simp] theorem genSample_epoch : (genSample w s).epoch = s.epoch := rfl

end

section
variable (s : State)

@[simp] theorem openBuffer_opr : (openBuffer s).opr = s.opr := rfl
@[simp] theorem openBuffer_yout : (openBuffer s).yout = s.yout := rfl
@[simp] theorem openBuffer_coef : (openBuffer s).coef = s.coef := rfl
@[simp] theorem openBuffer_hist : (openBuffer s).hist = s.hist := rfl
@[simp] theorem openBuffer_fs : (openBuffer s).fs = s.fs := rfl
@[simp] theorem openBuffer_n : (openBuffer s).n = bufferLen s.opr := rfl
@[simp] theorem openBuffer_idx : (openBuffer s).idx = 0 := rfl
@[simp] theorem openBuffer_spu : (openBuffer s).spu = s.spu := rfl
@[simp] theorem openBuffer_status : (openBuffer s).status = s.status := rfl
@[simp] theorem openBuffer_phase : (openBuffer s).phase = .gen := rfl
@[simp] theorem openBuffer_running : (openBuffer s).running = s.running := rfl
@[simp] theorem openBuffer_dry : (openBuffer s).dry = s.dry := rfl
@[simp] theorem openBuffer_out : (openBuffer s).out = s.out := rfl
@[simp] theorem openBuffer_rdata : (openBuffer s).rdata = s.rdata := rfl
@[simp] theorem openBuffer_pending : (openBuffer s).pending = s.pending := rfl
@[simp] theorem openBuffer_params : (openBuffer s).params = s.params := rfl
@[simp] theorem openBuffer_draws : (openBuffer s).draws = s.draws := rfl
@[simp] theorem openBuffer_epoch : (openBuffer s).epoch = s.epoch := rfl

end

section
variable (s : State)

@[simp] theorem newFilter_opr : (newFilter s).opr = s.opr := rfl
@[simp] theorem newFilter_yout : (newFilter s).yout = s.yout := rfl
@[simp] theorem newFilter_coef : (newFilter s).coef = Coefs.zero := rfl
@[simp] theorem newFilter_hist : (newFilter s).hist = History.zero := rfl
@[simp] theorem newFilter_fs : (newFilter s).fs = s.opr.srate := rfl
@[simp] theorem newFilter_n : (newFilter s).n = s.n := rfl
@[simp] theorem newFilter_idx : (newFilter s).idx = s.idx := rfl
@[simp] theorem newFilter_spu : (newFilter s).spu = s.spu := rfl
@[simp] theorem newFilter_status : (newFilter s).status = s.status := rfl
@[simp] theorem newFilter_phase : (newFilter s).phase = s.phase := rfl
@[simp] theorem newFilter_running : (newFilter s).running = s.running := rfl
@[simp] theorem newFilter_dry : (newFilter s).dry = s.dry := rfl
@[simp] theorem newFilter_out : (newFilter s).out = s.out := rfl
@[simp] theorem newFilter_rdata : (newFilter s).rdata = s.rdata := rfl
@[simp] theorem newFilter_pending : (newFilter s).pending = s.pending := rfl
@[simp] theorem newFilter_params : (newFilter s).params = s.params := rfl
@[simp] theorem newFilter_draws : (newFilter s).draws = s.draws := rfl
@[simp] theorem newFilter_epoch : (newFilter s).epoch = s.epoch := rfl

end

section
variable (c : CoefVals) (s : State)

@[simp] theorem storeCoefs_opr : (storeCoefs c s).opr = s.opr := rfl
@[simp] theorem storeCoefs_yout : (storeCoefs c s).yout = s.yout := rfl
@[simp] theorem storeCoefs_coef : (storeCoefs c s).coef = ⟨orFree c.b0 s.draws, orFree c.b1 (s.draws + 1), orFree c.b2 (s.draws + 2), orFree c.a1 (s.draws + 3), orFree c.a2 (s.draws + 4)⟩ := rfl
@[simp] theorem storeCoefs_hist : (storeCoefs c s).hist = s.hist := rfl
@[simp] theorem storeCoefs_fs : (storeCoefs c s).fs = s.fs := rfl
@[simp] theorem storeCoefs_n : (storeCoefs c s).n = s.n := rfl
@[simp] theorem storeCoefs_idx : (storeCoefs c s).idx = s.idx := rfl
@[simp] theorem storeCoefs_spu : (storeCoefs c s).spu = s.spu := rfl
@[simp] theorem storeCoefs_status : (storeCoefs c s).status = s.status := rfl
@[simp] theorem storeCoefs_phase : (storeCoefs c s).phase = s.phase := rfl
@[simp] theorem storeCoefs_running : (storeCoefs c s).running = s.running := rfl
@[simp] theorem storeCoefs_dry : (storeCoefs c s).dry = s.dry := rfl
@[simp] theorem storeCoefs_out : (storeCoefs c s).out = s.out := rfl
@[simp] theorem storeCoefs_rdata : (storeCoefs c s).rdata = s.rdata := rfl
@[simp] theorem storeCoefs_pending : (storeCoefs c s).pending = s.pending := rfl
@[simp] theorem storeCoefs_params : (storeCoefs c s).params = s.params := rfl
@[simp] theorem storeCoefs_draws : (storeCoefs c s).draws = s.draws + 5 := rfl
@[simp] theorem storeCoefs_epoch : (storeCoefs c s).epoch = s.epoch := rfl

end

section
variable (t : Topology) (fc q : Val) (s : State)

@[simp] theorem setc_opr : (setc t fc q s).opr = s.opr := rfl
@[simp] theorem setc_yout : (setc t fc q s).yout = s.yout := rfl
@[simp] theorem setc_coef : (setc t fc q s).coef = (storeCoefs (coefVals Config.numerics t (valOf s.fs) fc q) s).coef := rfl
@[simp] theorem setc_hist : (setc t fc q s).hist = s.hist := rfl
@[simp] theorem setc_fs : (setc t fc q s).fs = s.fs := rfl
@[simp] theorem setc_n : (setc t fc q s).n = s.n := rfl
@[simp] theorem setc_idx : (setc t fc q s).idx = s.idx := rfl
@[simp] theorem setc_spu : (setc t fc q s).spu = s.spu := rfl
@[simp] theorem setc_status : (setc t fc q s).status = s.status := rfl
@[simp] theorem setc_phase : (setc t fc q s).phase = s.phase := rfl
@[simp] theorem setc_running : (setc t fc q s).running = s.running := rfl
@[simp] theorem setc_dry : (setc t fc q s).dry = s.dry := rfl
@[simp] theorem setc_out : (setc t fc q s).out = s.out := rfl
@[simp] theorem setc_rdata : (setc t fc q s).rdata = s.rdata := rfl
@[simp] theorem setc_pending : (setc t fc q s).pending = s.pending := rfl
@[simp] theorem setc_params : (setc t fc q s).params = s.params := rfl
@[simp] theorem setc_draws : (setc t fc q s).draws = s.draws + 5 := rfl
@[simp] theorem setc_epoch : (setc t fc q s).epoch = s.epoch := rfl

end

section
variable (s : State)

@[simp] theorem updateCoefs_opr : (updateCoefs s).opr = s.opr := rfl
@[simp] theorem updateCoefs_yout : (updateCoefs s).yout = s.yout := rfl
@[simp] theorem updateCoefs_coef : (updateCoefs s).coef = (setc (topology s.opr.mode) (scheduledCutoff Config.numerics s.params s.opr s.idx) (valOf s.opr.q) s).coef := rfl
@[simp] theorem updateCoefs_hist : (updateCoefs s).hist = s.hist := rfl
@[simp] theorem updateCoefs_fs : (updateCoefs s).fs = s.fs := rfl
@[simp] theorem updateCoefs_n : (updateCoefs s).n = s.n := rfl
@[simp] theorem updateCoefs_idx : (updateCoefs s).idx = s.idx := rfl
@[simp] theorem updateCoefs_spu : (updateCoefs s).spu = s.spu := rfl
@[simp] theorem updateCoefs_status : (updateCoefs s).status = s.status := rfl
@[simp] theorem updateCoefs_phase : (updateCoefs s).phase = s.phase := rfl
@[simp] theorem updateCoefs_running : (updateCoefs s).running = s.running := rfl
@[simp] theorem updateCoefs_dry : (updateCoefs s).dry = s.dry := rfl
@[simp] theorem updateCoefs_out : (updateCoefs s).out = s.out := rfl
@[simp] theorem updateCoefs_rdata : (updateCoefs s).rdata = s.rdata := rfl
@[simp] theorem updateCoefs_pending : (updateCoefs s).pending = s.pending := rfl
@[simp] theorem updateCoefs_params : (updateCoefs s).params = s.params := rfl
@[simp] theorem updateCoefs_draws : (updateCoefs s).draws = s.draws + 5 := rfl
@[simp] theorem updateCoefs_epoch : (updateCoefs s).epoch = s.epoch := rfl

end

section
variable (x y : Word) (s : State)

@[simp] theorem shiftHistory_opr : (shiftHistory x y s).opr = s.opr := rfl
@[simp] theorem shiftHistory_yout : (shiftHistory x y s).yout = s.yout := rfl
@[simp] theorem shiftHistory_coef : (shiftHistory x y s).coef = s.coef := rfl
@[simp] theorem shiftHistory_hist : (shiftHistory x y s).hist = ⟨copyWord x (s.draws + 1), copyWord s.hist.x1 (s.draws + 2), y, copyWord s.hist.y1 (s.draws + 3)⟩ := rfl
@[simp] theorem shiftHistory_fs : (shiftHistory x y s).fs = s.fs := rfl
@[simp] theorem shiftHistory_n : (shiftHistory x y s).n = s.n := rfl
@[simp] theorem shiftHistory_idx : (shiftHistory x y s).idx = s.idx := rfl
@[simp] theorem shiftHistory_spu : (shiftHistory x y s).spu = s.spu := rfl
@[simp] theorem shiftHistory_status : (shiftHistory x y s).status = s.status := rfl
@[simp] theorem shiftHistory_phase : (shiftHistory x y s).phase = s.phase := rfl
@[simp] theorem shiftHistory_running : (shiftHistory x y s).running = s.running := rfl
@[simp] theorem shiftHistory_dry : (shiftHistory x y s).dry = s.dry := rfl
@[simp] theorem shiftHistory_out : (shiftHistory x y s).out = s.out := rfl
@[simp] theorem shiftHistory_rdata : (shiftHistory x y s).rdata = s.rdata := rfl
@[simp] theorem shiftHistory_pending : (shiftHistory x y s).pending = s.pending := rfl
@[simp] theorem shiftHistory_params : (shiftHistory x y s).params = s.params := rfl
@[simp] theorem shiftHistory_draws : (shiftHistory x y s).draws = s.draws + 4 := rfl
@[simp] theorem shiftHistory_epoch : (shiftHistory x y s).epoch = s.epoch := rfl

end

section
variable (s : State)

@[simp] theorem openFilter_opr : (openFilter s).opr = s.opr := rfl
@[simp] theorem openFilter_yout : (openFilter s).yout = s.yout := rfl
@[simp] theorem openFilter_coef : (openFilter s).coef = Coefs.zero := rfl
@[simp] theorem openFilter_hist : (openFilter s).hist = History.zero := rfl
@[simp] theorem openFilter_fs : (openFilter s).fs = s.opr.srate := rfl
@[simp] theorem openFilter_n : (openFilter s).n = s.n := rfl
@[simp] theorem openFilter_idx : (openFilter s).idx = s.idx := rfl
@[simp] theorem openFilter_spu : (openFilter s).spu = updateInterval s.opr s.draws := rfl
@[simp] theorem openFilter_status : (openFilter s).status = s.status := rfl
@[simp] theorem openFilter_phase : (openFilter s).phase = .filt := rfl
@[simp] theorem openFilter_running : (openFilter s).running = s.running := rfl
@[simp] theorem openFilter_dry : (openFilter s).dry = s.dry := rfl
@[simp] theorem openFilter_out : (openFilter s).out = s.out := rfl
@[simp] theorem openFilter_rdata : (openFilter s).rdata = s.rdata := rfl
@[simp] theorem openFilter_pending : (openFilter s).pending = s.pending := rfl
@[simp] theorem openFilter_params : (openFilter s).params = s.params := rfl
@[simp] theorem openFilter_draws : (openFilter s).draws = s.draws + 1 := rfl
@[simp] theorem openFilter_epoch : (openFilter s).epoch = s.epoch := rfl

end

section
variable (s : State)

@[simp] theorem filterOne_opr : (filterOne s).opr = s.opr := rfl
@[simp] theorem filterOne_yout : (filterOne s).yout = s.yout := rfl
@[simp] theorem filterOne_coef : (filterOne s).coef = s.coef := rfl
@[simp] theorem filterOne_hist : (filterOne s).hist = ⟨copyWord (dryWord s s.idx.toNat) (s.draws + 1), copyWord s.hist.x1 (s.draws + 2), stepOut (dryWord s s.idx.toNat) s, copyWord s.hist.y1 (s.draws + 3)⟩ := rfl
@[simp] theorem filterOne_fs : (filterOne s).fs = s.fs := rfl
@[simp] theorem filterOne_n : (filterOne s).n = s.n := rfl
@[simp] theorem filterOne_idx : (filterOne s).idx = s.idx + 1 := rfl
@[simp] theorem filterOne_spu : (filterOne s).spu = s.spu := rfl
@[simp] theorem filterOne_status : (filterOne s).status = s.status := rfl
@[simp] theorem filterOne_phase : (filterOne s).phase = s.phase := rfl
@[simp] theorem filterOne_running : (filterOne s).running = s.running := rfl
@[simp] theorem filterOne_dry : (filterOne s).dry = s.dry := rfl
@[simp] theorem filterOne_out : (filterOne s).out = memSet s.idx.toNat (stepOut (dryWord s s.idx.toNat) s) s.out := rfl
@[simp] theorem filterOne_rdata : (filterOne s).rdata = s.rdata := rfl
@[simp] theorem filterOne_pending : (filterOne s).pending = s.pending := rfl
@[simp] theorem filterOne_params : (filterOne s).params = s.params := rfl
@[simp] theorem filterOne_draws : (filterOne s).draws = s.draws + 4 := rfl
@[simp] theorem filterOne_epoch : (filterOne s).epoch = s.epoch := rfl

end

section
variable (s : State)

@[simp] theorem readFree_opr : (readFree s).opr = s.opr := rfl
@[simp] theorem readFree_yout : (readFree s).yout = s.yout := rfl
@[simp] theorem readFree_coef : (readFree s).coef = s.coef := rfl
@[simp] theorem readFree_hist : (readFree s).hist = s.hist := rfl
@[simp] theorem readFree_fs : (readFree s).fs = s.fs := rfl
@[simp] theorem readFree_n : (readFree s).n = s.n := rfl
@[simp] theorem readFree_idx : (readFree s).idx = s.idx := rfl
@[simp] theorem readFree_spu : (readFree s).spu = s.spu := rfl
@[simp] theorem readFree_status : (readFree s).status = s.status := rfl
@[simp] theorem readFree_phase : (readFree s).phase = s.phase := rfl
@[simp] theorem readFree_running : (readFree s).running = s.running := rfl
@[simp] theorem readFree_dry : (readFree s).dry = s.dry := rfl
@[simp] theorem readFree_out : (readFree s).out = s.out := rfl
@[simp] theorem readFree_rdata : (readFree s).rdata = Config.freeWord s.draws := rfl
@[simp] theorem readFree_pending : (readFree s).pending = s.pending := rfl
@[simp] theorem readFree_params : (readFree s).params = s.params := rfl
@[simp] theorem readFree_draws : (readFree s).draws = s.draws + 1 := rfl
@[simp] theorem readFree_epoch : (readFree s).epoch = s.epoch := rfl

end

section
variable (s : State)

@[simp] theorem hardReset_opr : (hardReset s).opr = State.reset.opr := rfl
@[simp] theorem hardReset_yout : (hardReset s).yout = State.reset.yout := rfl
@[simp] theorem hardReset_coef : (hardReset s).coef = State.reset.coef := rfl
@[simp] theorem hardReset_hist : (hardReset s).hist = State.reset.hist := rfl
@[simp] theorem hardReset_fs : (hardReset s).fs = State.reset.fs := rfl
@[simp] theorem hardReset_n : (hardReset s).n = State.reset.n := rfl
@[simp] theorem hardReset_idx : (hardReset s).idx = State.reset.idx := rfl
@[simp] theorem hardReset_spu : (hardReset s).spu = State.reset.spu := rfl
@[simp] theorem hardReset_status : (hardReset s).status = State.reset.status := rfl
@[simp] theorem hardReset_phase : (hardReset s).phase = State.reset.phase := rfl
@[simp] theorem hardReset_running : (hardReset s).running = State.reset.running := rfl
@[simp] theorem hardReset_dry : (hardReset s).dry = State.reset.dry := rfl
@[simp] theorem hardReset_out : (hardReset s).out = State.reset.out := rfl
@[simp] theorem hardReset_rdata : (hardReset s).rdata = s.rdata := rfl
@[simp] theorem hardReset_pending : (hardReset s).pending = s.pending := rfl
@[simp] theorem hardReset_params : (hardReset s).params = s.params := rfl
@[simp] theorem hardReset_draws : (hardReset s).draws = s.draws := rfl
@[simp] theorem hardReset_epoch : (hardReset s).epoch = s.epoch + 1 := rfl

end

@[simp] theorem raise_capacity (s : State) : raise .capacity s = raiseCapacity s := rfl
@[simp] theorem raise_illegal (s : State) : raise .illegalCommand s = raiseIllegal s := rfl

@[simp] theorem Status.accepted_busy (f : Status) : f.accepted.busy = true := rfl
@[simp] theorem Status.accepted_done (f : Status) : f.accepted.done = false := rfl
@[simp] theorem Status.accepted_cap (f : Status) : f.accepted.cap = f.cap := rfl
@[simp] theorem Status.accepted_illcmd (f : Status) : f.accepted.illcmd = f.illcmd := rfl
@[simp] theorem Status.completed_busy (f : Status) : f.completed.busy = false := rfl
@[simp] theorem Status.completed_done (f : Status) : f.completed.done = true := rfl
@[simp] theorem Status.completed_cap (f : Status) : f.completed.cap = f.cap := rfl
@[simp] theorem Status.completed_illcmd (f : Status) : f.completed.illcmd = f.illcmd := rfl
@[simp] theorem Status.withCap_busy (f : Status) : f.withCap.busy = f.busy := rfl
@[simp] theorem Status.withCap_done (f : Status) : f.withCap.done = f.done := rfl
@[simp] theorem Status.withCap_cap (f : Status) : f.withCap.cap = true := rfl
@[simp] theorem Status.withCap_illcmd (f : Status) : f.withCap.illcmd = f.illcmd := rfl
@[simp] theorem Status.withIllcmd_busy (f : Status) : f.withIllcmd.busy = f.busy := rfl
@[simp] theorem Status.withIllcmd_done (f : Status) : f.withIllcmd.done = f.done := rfl
@[simp] theorem Status.withIllcmd_cap (f : Status) : f.withIllcmd.cap = f.cap := rfl
@[simp] theorem Status.withIllcmd_illcmd (f : Status) : f.withIllcmd.illcmd = true := rfl
@[simp] theorem Status.completed_accepted (f : Status) : f.accepted.completed = f.completed := rfl

end Sys2Proof.Machine
end

