-- ==== Sys2Proof/Laws/Oscillator.lean ====
section
/-! SUPPORT. What the generation loop does (spec/41_oscillator.md R165, R168): its frame, how far IDX and the draws advance,
and every word of DRY. -/

namespace Sys2Proof.Machine

/-- A count below the top advances by exactly one (spec/40_numerics.md R137). -/
theorem count_succ_toNat {c : Count} (h : c.toNat + 1 < 2 ^ 32) : (c + 1).toNat = c.toNat + 1 := by
  rw [BitVec.toNat_add, Nat.mod_eq_of_lt]
  · rfl
  · exact h

/-- A count is the numeral of its own number. -/
theorem count_ofNat_toNat (c : Count) : BitVec.ofNat 32 c.toNat = c := by
  simp

/-- A generation step writes DRY, IDX and the draws, and nothing else (R160). -/
theorem genSample_frame (w : Waveform) (s : State) :
    genSample w s = { s with dry := (genSample w s).dry, idx := s.idx + 1, draws := s.draws + 1 } := rfl

/-- k generation steps write DRY, IDX and the draws, and nothing else (R160). -/
theorem gen_frame (w : Waveform) (k : Nat) (s : State) :
    repeatStep k (genSample w) s =
      { s with
        dry := (repeatStep k (genSample w) s).dry
        idx := (repeatStep k (genSample w) s).idx
        draws := (repeatStep k (genSample w) s).draws } := by
  induction k generalizing s with
  | zero => rfl
  | succ k ih => rw [repeatStep_succ, ih]; rfl

@[simp] theorem gen_opr (w : Waveform) (k : Nat) (s : State) : (repeatStep k (genSample w) s).opr = s.opr :=
  repeatStep_keeps State.opr (genSample_opr w) k s

@[simp] theorem gen_n (w : Waveform) (k : Nat) (s : State) : (repeatStep k (genSample w) s).n = s.n :=
  repeatStep_keeps State.n (genSample_n w) k s

@[simp] theorem gen_phase (w : Waveform) (k : Nat) (s : State) : (repeatStep k (genSample w) s).phase = s.phase :=
  repeatStep_keeps State.phase (genSample_phase w) k s

@[simp] theorem gen_running (w : Waveform) (k : Nat) (s : State) :
    (repeatStep k (genSample w) s).running = s.running :=
  repeatStep_keeps State.running (genSample_running w) k s

@[simp] theorem gen_draws (w : Waveform) (k : Nat) (s : State) :
    (repeatStep k (genSample w) s).draws = s.draws + k := by
  induction k generalizing s with
  | zero => rfl
  | succ k ih => rw [repeatStep_succ, ih, genSample_draws]; omega

theorem gen_idx (w : Waveform) (k : Nat) (s : State) (h : s.idx.toNat + k < 2 ^ 32) :
    (repeatStep k (genSample w) s).idx.toNat = s.idx.toNat + k := by
  induction k generalizing s with
  | zero => rfl
  | succ k ih =>
    have h1 : (genSample w s).idx.toNat = s.idx.toNat + 1 := count_succ_toNat (by omega)
    rw [repeatStep_succ, ih _ (by rw [h1]; omega), h1]
    omega

/-- Every word of DRY after k generation steps: the sample of its own index from IDX on, the old word elsewhere. -/
theorem gen_dry (w : Waveform) (k : Nat) (s : State) (h : s.idx.toNat + k < 2 ^ 32) (j : Nat) :
    memGet j (repeatStep k (genSample w) s).dry =
      if s.idx.toNat ≤ j ∧ j < s.idx.toNat + k then
        some (sampleWord w s.opr (BitVec.ofNat 32 j) (s.draws + (j - s.idx.toNat)))
      else memGet j s.dry := by
  induction k generalizing s with
  | zero => simp
  | succ k ih =>
    have h1 : (genSample w s).idx.toNat = s.idx.toNat + 1 := count_succ_toNat (by omega)
    rw [repeatStep_succ, ih _ (by rw [h1]; omega), h1]
    simp only [genSample_opr, genSample_draws, genSample_dry]
    by_cases hj : j = s.idx.toNat
    · subst hj
      simp
    · rw [memGet_memSet_ne hj]
      by_cases hc : s.idx.toNat ≤ j ∧ j < s.idx.toNat + (k + 1)
      · rw [if_pos (by omega), if_pos hc]
        congr 2
        omega
      · rw [if_neg (by omega), if_neg hc]

/-- The generation loop keeps the canonical form and the capacity of DRY. -/
theorem gen_dry_wf (w : Waveform) (k : Nat) (s : State) (h : s.dry.wf = true) :
    (repeatStep k (genSample w) s).dry.wf = true :=
  repeatStep_induct (fun _ t => t.dry.wf = true) h k fun _ _ _ ht => wf_memSet _ _ ht

/-- The generation of k samples writes DRY and the draws, and nothing else: IDX stays (R223). -/
theorem generate_frame (w : Waveform) (k : Nat) (s : State) :
    generate w k s = { s with dry := (generate w k s).dry, draws := s.draws + k } := by
  induction k with
  | zero => rfl
  | succ k ih =>
    rw [generate, ih]
    rfl

@[simp] theorem generate_opr (w : Waveform) (k : Nat) (s : State) : (generate w k s).opr = s.opr := by
  rw [generate_frame]

@[simp] theorem generate_draws (w : Waveform) (k : Nat) (s : State) : (generate w k s).draws = s.draws + k := by
  rw [generate_frame]

/-- An oscillator command's loop from index 0 is the generation of as many samples, with IDX counted on. -/
theorem gen_eq_generate (w : Waveform) (k : Nat) (s : State) (h : s.idx = 0) :
    repeatStep k (genSample w) s = { generate w k s with idx := BitVec.ofNat 32 k } := by
  induction k with
  | zero =>
    cases s
    subst h
    rfl
  | succ k ih =>
    rw [repeatStep_succ_last, ih, BitVec.ofNat_add]
    rfl

/-- Every word of DRY after the generation of k samples: the sample of its own index below k, the old word elsewhere. -/
theorem generate_dry (w : Waveform) (k : Nat) (s : State) (h : k ≤ 2 ^ 32) (j : Nat) :
    memGet j (generate w k s).dry =
      if j < k then some (sampleWord w s.opr (BitVec.ofNat 32 j) (s.draws + j)) else memGet j s.dry := by
  induction k with
  | zero => simp [generate]
  | succ k ih =>
    have hk : (BitVec.ofNat 32 k).toNat = k := by rw [BitVec.toNat_ofNat]; omega
    rw [generate, putSample_dry, memGet_memSet, hk, ih (by omega), generate_opr, generate_draws]
    by_cases hj : j = k
    · subst hj; simp
    · by_cases hlt : j < k
      · rw [if_neg hj, if_pos hlt, if_pos (by omega)]
      · rw [if_neg hj, if_neg hlt, if_neg (by omega)]

/-- The generation keeps the canonical form of DRY. -/
theorem generate_dry_wf (w : Waveform) (k : Nat) (s : State) (h : s.dry.wf = true) : (generate w k s).dry.wf = true := by
  induction k with
  | zero => exact h
  | succ k ih => exact wf_memSet _ _ ih

/-- The generation of at most b samples keeps DRY below b. -/
theorem generate_dry_below (w : Waveform) {k b : Nat} (s : State) (hk : k ≤ b) (h : s.dry.below b = true) :
    (generate w k s).dry.below b = true := by
  induction k with
  | zero => exact h
  | succ k ih =>
    have : (BitVec.ofNat 32 k).toNat ≤ k := by rw [BitVec.toNat_ofNat]; exact Nat.mod_le _ _
    exact below_memSet _ (by omega) (ih (by omega))

end Sys2Proof.Machine
end

