-- ==== Sys2Proof/Laws/PerInstr.lean ====
section
/-! SUPPORT. The statements made of every instruction as syntax, with one lemma per constructor. -/

namespace Sys2Proof.Laws.RoundTrip

/-- The instruction is well formed, its opcode is the only one that names it, its word is canonical and decodes to it, and so
do the bytes of its word (spec/30_encoding.md R90, R94, R105). -/
def Statement (i : Instr) : Prop :=
  i.wf = true ∧ commandOf (opcode i) = some i ∧ (∀ j, opcode j = opcode i → j = i) ∧
    cmdWordWf (encode i) = true ∧ decode (encode i) = .ok i ∧
    ∀ rest, decodeBytes (encodeBytes i ++ rest) = .ok (i, rest)

theorem oscSaw : Statement .oscSaw :=
  ⟨rfl, rfl, fun j h => (by cases j <;> first | rfl | cases h), rfl, rfl, fun _ => rfl⟩

theorem oscPulse : Statement .oscPulse :=
  ⟨rfl, rfl, fun j h => (by cases j <;> first | rfl | cases h), rfl, rfl, fun _ => rfl⟩

theorem bqNew : Statement .bqNew :=
  ⟨rfl, rfl, fun j h => (by cases j <;> first | rfl | cases h), rfl, rfl, fun _ => rfl⟩

theorem bqSetc : Statement .bqSetc :=
  ⟨rfl, rfl, fun j h => (by cases j <;> first | rfl | cases h), rfl, rfl, fun _ => rfl⟩

theorem bqStep : Statement .bqStep :=
  ⟨rfl, rfl, fun j h => (by cases j <;> first | rfl | cases h), rfl, rfl, fun _ => rfl⟩

theorem bqReset : Statement .bqReset :=
  ⟨rfl, rfl, fun j h => (by cases j <;> first | rfl | cases h), rfl, rfl, fun _ => rfl⟩

theorem render : Statement .render :=
  ⟨rfl, rfl, fun j h => (by cases j <;> first | rfl | cases h), rfl, rfl, fun _ => rfl⟩

end Sys2Proof.Laws.RoundTrip
end

