-- ==== Sys2Proof/Laws/Render.lean ====
section
/-! SUPPORT. What the filter loop of RENDER does (spec/43_render.md R221, R228): its frame, how far IDX advances, when it
changes the coefficients, and the history and the words of OUT it leaves. -/

namespace Sys2Proof.Machine

/-- Steps 1 to 3 of RENDER write DRY, FS, the coefficients, the history, SPU, the phase and the draws, and nothing else (R221). -/
theorem prepareRender_frame (s : State) :
    prepareRender s =
      { s with
        dry := (generate (waveform s.opr.mode) s.n.toNat s).dry, fs := s.opr.srate, coef := Coefs.zero
        hist := History.zero, spu := updateInterval s.opr (s.draws + s.n.toNat), phase := .filt
        draws := s.draws + s.n.toNat + 1 } := by
  unfold prepareRender
  rw [generate_frame]
  rfl

/-- A filter step writes the coefficients, the history, OUT, IDX and the draws, and nothing else (R221). -/
theorem filterSample_frame (s : State) :
    filterSample s =
      { s with
        coef := (filterSample s).coef, hist := (filterSample s).hist, out := (filterSample s).out
        idx := s.idx + 1, draws := (filterSample s).draws } := by
  unfold filterSample
  split <;> rfl

@[simp] theorem filterSample_opr (s : State) : (filterSample s).opr = s.opr := by rw [filterSample_frame]
@[simp] theorem filterSample_yout (s : State) : (filterSample s).yout = s.yout := by rw [filterSample_frame]
@[simp] theorem filterSample_fs (s : State) : (filterSample s).fs = s.fs := by rw [filterSample_frame]
@[simp] theorem filterSample_n (s : State) : (filterSample s).n = s.n := by rw [filterSample_frame]
@[simp] theorem filterSample_idx (s : State) : (filterSample s).idx = s.idx + 1 := by rw [filterSample_frame]
@[simp] theorem filterSample_spu (s : State) : (filterSample s).spu = s.spu := by rw [filterSample_frame]
@[simp] theorem filterSample_status (s : State) : (filterSample s).status = s.status := by rw [filterSample_frame]
@[simp] theorem filterSample_phase (s : State) : (filterSample s).phase = s.phase := by rw [filterSample_frame]
@[simp] theorem filterSample_running (s : State) : (filterSample s).running = s.running := by rw [filterSample_frame]
@[simp] theorem filterSample_dry (s : State) : (filterSample s).dry = s.dry := by rw [filterSample_frame]
@[simp] theorem filterSample_rdata (s : State) : (filterSample s).rdata = s.rdata := by rw [filterSample_frame]
@[simp] theorem filterSample_pending (s : State) : (filterSample s).pending = s.pending := by rw [filterSample_frame]
@[simp] theorem filterSample_params (s : State) : (filterSample s).params = s.params := by rw [filterSample_frame]
@[simp] theorem filterSample_epoch (s : State) : (filterSample s).epoch = s.epoch := by rw [filterSample_frame]

/-- Off the ticks the coefficients stay (R226). -/
theorem filterSample_coef_off_tick {s : State} (h : isTick s = false) : (filterSample s).coef = s.coef := by
  simp [filterSample, h]

/-- At a tick the coefficients are those of the scheduled cutoff (R228). -/
theorem filterSample_coef_tick {s : State} (h : isTick s = true) : (filterSample s).coef = (updateCoefs s).coef := by
  simp only [filterSample, h, if_true, filterOne_coef]

/-- The history is shifted, each word moved; the new Y1 is the output (R205, R228). -/
theorem filterSample_hist (s : State) :
    ∃ k : Nat,
      (filterSample s).hist =
        { x1 := copyWord (dryWord s s.idx.toNat) (k + 1), x2 := copyWord s.hist.x1 (k + 2)
          y1 := stepOut (dryWord s s.idx.toNat) (if isTick s then updateCoefs s else s)
          y2 := copyWord s.hist.y1 (k + 3) } := by
  unfold filterSample
  split
  · exact ⟨s.draws + 5, rfl⟩
  · exact ⟨s.draws, rfl⟩

/-- The word written to OUT is the new Y1 (R228). -/
theorem filterSample_out (s : State) :
    (filterSample s).out = memSet s.idx.toNat (filterSample s).hist.y1 s.out := by
  unfold filterSample
  split <;> rfl

/-- k filter steps keep everything but the coefficients, the history, OUT, IDX and the draws (R221). -/
theorem filt_frame (k : Nat) (s : State) :
    repeatStep k filterSample s =
      { s with
        coef := (repeatStep k filterSample s).coef, hist := (repeatStep k filterSample s).hist
        out := (repeatStep k filterSample s).out, idx := (repeatStep k filterSample s).idx
        draws := (repeatStep k filterSample s).draws } := by
  induction k generalizing s with
  | zero => rfl
  | succ k ih => rw [repeatStep_succ, ih, filterSample_frame]

theorem filt_idx (k : Nat) (s : State) (h : s.idx.toNat + k < 2 ^ 32) :
    (repeatStep k filterSample s).idx.toNat = s.idx.toNat + k := by
  induction k generalizing s with
  | zero => rfl
  | succ k ih =>
    have h1 : (filterSample s).idx.toNat = s.idx.toNat + 1 := by
      rw [filterSample_idx]; exact count_succ_toNat (by omega)
    rw [repeatStep_succ, ih _ (by rw [h1]; omega), h1]
    omega

/-- Every word of OUT after k filter steps: below IDX and from IDX + k on the old word; in between the Y1 its own step left. -/
theorem filt_out (k : Nat) (s : State) (h : s.idx.toNat + k < 2 ^ 32) (j : Nat) :
    memGet j (repeatStep k filterSample s).out =
      if s.idx.toNat ≤ j ∧ j < s.idx.toNat + k then
        some (repeatStep (j - s.idx.toNat + 1) filterSample s).hist.y1
      else memGet j s.out := by
  induction k with
  | zero => simp
  | succ k ih =>
    have hi := filt_idx k s (by omega)
    rw [repeatStep_succ_last, filterSample_out, memGet_memSet, hi, ih (by omega)]
    by_cases hj : j = s.idx.toNat + k
    · subst hj
      rw [if_pos rfl, if_pos (by omega), ← repeatStep_succ_last k filterSample s, Nat.add_sub_cancel_left]
    · rw [if_neg hj]
      by_cases hc : s.idx.toNat ≤ j ∧ j < s.idx.toNat + k
      · rw [if_pos hc, if_pos (by omega)]
      · rw [if_neg hc, if_neg (by omega)]

/-- The filter loop keeps the canonical form of OUT. -/
theorem filt_out_wf (k : Nat) (s : State) (h : s.out.wf = true) : (repeatStep k filterSample s).out.wf = true :=
  repeatStep_induct (fun _ t => t.out.wf = true) h k fun _ t _ ht => by
    rw [filterSample_out]
    exact wf_memSet _ _ ht

/-- The integer max of two counts (spec/40_numerics.md R137). -/
theorem maxCount_toNat (a b : Count) : (maxCount a b).toNat = max a.toNat b.toNat := by
  unfold maxCount
  split
  · next h => exact (max_eq_right h).symm
  · next h => exact (max_eq_left (Nat.le_of_not_le h)).symm

/-- SPU ≥ 1 (R225). -/
theorem one_le_updateInterval (o : OperandRegs) (k : Nat) : 1 ≤ (updateInterval o k).toNat := by
  unfold updateInterval
  split <;> rw [maxCount_toNat] <;> exact le_max_left _ _

/-- SPU of a finite product (R225). -/
theorem updateInterval_of_fin {o : OperandRegs} {x : Fin64} (k : Nat)
    (h : ieeeMul (ieeeOfWord o.srate) (ieeeOfWord cMilli) = .fin x) :
    (updateInterval o k).toNat = max 1 (lenOf (.fin x)).toNat := by
  unfold updateInterval
  rw [h]
  exact maxCount_toNat _ _

end Sys2Proof.Machine
end

