-- ==== Sys2Proof/Laws/Step.lean ====
section
/-! SUPPORT. What a step can do, once: the inversion of `step`, of an access of the host, of a CMD write, and of a step of the
sequencer. A proof about every step cites these and never unfolds `step`, `perform` or `tick`. -/

namespace Sys2Proof.Machine

/-- A step with nothing pending is the core's own. -/
theorem step_of_pending_nil {s : State} (h : s.pending = []) : step s = .next (tick s) := by
  simp [step, h]

/-- A step with an access pending performs it. -/
theorem step_of_pending_cons {s : State} {a : HostAct} {rest : List HostAct} (h : s.pending = a :: rest) :
    step s = perform a { s with pending := rest } := by
  simp [step, h]

/-- Inversion of `step`. -/
theorem step_cases {s t : State} (h : step s = .next t) :
    (s.pending = [] ∧ t = tick s) ∨
      ∃ a rest, s.pending = a :: rest ∧ perform a { s with pending := rest } = .next t := by
  unfold step at h
  split at h
  · next hp => exact .inl ⟨hp, (Host.Outcome.next.inj h).symm⟩
  · next a rest hp => exact .inr ⟨a, rest, hp, h⟩

/-- Inversion of a CMD write. -/
theorem commandWrite_cases {w : Word} {s t : State} (h : commandWrite w s = .next t) :
    (s.status.busy = true ∧ t = s) ∨
      (s.status.busy = false ∧ ∃ i, decode w = .ok i ∧ exec i s = .next t) ∨
      (s.status.busy = false ∧ (∃ e, decode w = .error e) ∧ t = raiseIllegal s) := by
  unfold commandWrite at h
  split at h
  · next hb => exact .inl ⟨hb, (Host.Outcome.next.inj h).symm⟩
  · next hb =>
    have hb : s.status.busy = false := by simpa using hb
    split at h
    · next i hd => exact .inr (.inl ⟨hb, i, hd, h⟩)
    · next e hd => exact .inr (.inr ⟨hb, ⟨e, hd⟩, (Host.Outcome.next.inj h).symm⟩)

/-- Inversion of a started command. -/
theorem commandStart_cases (w : Word) (s : State) :
    (s.status.busy = true ∧ commandStart w s = s) ∨
      (s.status.busy = false ∧ ∃ i, decode w = .ok i ∧ commandStart w s = startCommand i s) ∨
      (s.status.busy = false ∧ (∃ e, decode w = .error e) ∧ commandStart w s = raiseIllegal s) := by
  unfold commandStart
  split
  · next hb => exact .inl ⟨hb, rfl⟩
  · next hb =>
    have hb : s.status.busy = false := by simpa using hb
    split
    · next i hd => exact .inr (.inl ⟨hb, i, hd, rfl⟩)
    · next e hd => exact .inr (.inr ⟨hb, ⟨e, hd⟩, rfl⟩)

/-- Inversion of an access of the host. -/
theorem perform_cases {a : HostAct} {s t : State} (h : perform a s = .next t) :
    (∃ w, a = .write cmdAddr w ∧ commandWrite w s = .next t) ∨
      (∃ addr w, a = .write addr w ∧ addr ≠ cmdAddr ∧ t = busWrite addr w s) ∨
      (∃ addr, a = .read addr ∧ t = busRead addr s) ∨
      (a = .reset ∧ t = hardReset s) ∨
      (∃ w, a = .start w ∧ t = commandStart w s) ∨
      (a = .tick ∧ t = tick s) ∨
      (a = .wait ∧ t = waitDone s) := by
  cases a with
  | write addr w =>
    simp only [perform] at h
    split at h
    · next ha => exact .inl ⟨w, by rw [ha], h⟩
    · next ha => exact .inr (.inl ⟨addr, w, rfl, ha, (Host.Outcome.next.inj h).symm⟩)
  | read addr => exact .inr (.inr (.inl ⟨addr, rfl, (Host.Outcome.next.inj h).symm⟩))
  | reset => exact .inr (.inr (.inr (.inl ⟨rfl, (Host.Outcome.next.inj h).symm⟩)))
  | start w => exact .inr (.inr (.inr (.inr (.inl ⟨w, rfl, (Host.Outcome.next.inj h).symm⟩))))
  | tick => exact .inr (.inr (.inr (.inr (.inr (.inl ⟨rfl, (Host.Outcome.next.inj h).symm⟩)))))
  | wait => exact .inr (.inr (.inr (.inr (.inr (.inr ⟨rfl, (Host.Outcome.next.inj h).symm⟩)))))

/-- Everything one step of the sequencer can do. -/
theorem tick_cases (s : State) :
    (s.phase = .idle ∧ tick s = s) ∨
      (s.phase = .gen ∧ s.running = some .render ∧ tick s = prepareRender s) ∨
      (s.phase = .gen ∧ s.running ≠ some .render ∧ s.idx.toNat < s.n.toNat ∧ tick s = genSample (runningWave s) s) ∨
      (s.phase = .gen ∧ s.running ≠ some .render ∧ s.n.toNat ≤ s.idx.toNat ∧ tick s = complete s) ∨
      (s.phase = .filt ∧ s.idx.toNat < s.n.toNat ∧ tick s = filterSample s) ∨
      (s.phase = .filt ∧ s.n.toNat ≤ s.idx.toNat ∧ tick s = complete s) := by
  unfold tick
  split
  · next hp => exact .inl ⟨hp, rfl⟩
  · next hp =>
    split
    · next hr => exact .inr (.inl ⟨hp, hr, rfl⟩)
    · next hr =>
      split
      · next hi => exact .inr (.inr (.inl ⟨hp, hr, hi, rfl⟩))
      · next hi => exact .inr (.inr (.inr (.inl ⟨hp, hr, by omega, rfl⟩)))
  · next hp =>
    split
    · next hi => exact .inr (.inr (.inr (.inr (.inl ⟨hp, hi, rfl⟩))))
    · next hi => exact .inr (.inr (.inr (.inr (.inr ⟨hp, by omega, rfl⟩))))

/-- Starting a buffer command either raises Capacity or opens the buffer. -/
theorem startBuffer_cases (i : Instr) (s : State) :
    (overCapacity s = true ∧ startBuffer i s = raiseCapacity (accept i s)) ∨
      (overCapacity s = false ∧ startBuffer i s = openBuffer (accept i s)) := by
  have h : overCapacity (accept i s) = overCapacity s := rfl
  cases hc : overCapacity s
  · exact .inr ⟨rfl, by simp [startBuffer, h, hc]⟩
  · exact .inl ⟨rfl, by simp [startBuffer, h, hc, raise]⟩

/-- No step stops: a command answers a next state, and names it. -/
theorem exec_eq (i : Instr) (s : State) :
    exec i s = .next (match i with
      | .oscSaw => runOscSaw s
      | .oscPulse => runOscPulse s
      | .bqNew => runBqNew s
      | .bqSetc => runBqSetc s
      | .bqStep => runBqStep s
      | .bqReset => runBqReset s
      | .render => runRender s) := by
  cases i <;> rfl

end Sys2Proof.Machine
end

