-- ==== Sys2Proof/Laws/Sequencer.lean ====
section
/-! SUPPORT. Steps of the sequencer inside a phase are the sample steps of the command's own loop. -/

namespace Sys2Proof.Machine

/-- In phase IDLE there is nothing to finish. -/
theorem finish_idle {s : State} (h : s.phase = .idle) : finish s = s := by
  simp [finish, ticksLeft, h]

/-- In phase GEN of an oscillator command, k steps with IDX + k ≤ N are k generation steps. -/
theorem ticks_gen (s : State) (k : Nat) (hp : s.phase = .gen) (hr : s.running ≠ some .render)
    (hk : s.idx.toNat + k ≤ s.n.toNat) :
    repeatStep k tick s = repeatStep k (genSample (runningWave s)) s := by
  refine repeatStep_congr
    (fun j t => t.phase = .gen ∧ t.running = s.running ∧ t.n = s.n ∧ t.idx.toNat = s.idx.toNat + j)
    ⟨hp, rfl, rfl, rfl⟩ k ?_ ?_
  · rintro j t hj ⟨h1, h2, h4, h5⟩
    have hlt : t.idx.toNat < t.n.toNat := by rw [h4, h5]; omega
    have e : tick t = genSample (runningWave t) t := by simp [tick, h1, h2, hr, hlt]
    have := s.n.isLt
    have hs : t.idx.toNat + 1 < 2 ^ 32 := by omega
    rw [e]
    refine ⟨h1, h2, h4, ?_⟩
    have := count_succ_toNat hs
    rw [genSample_idx, this]; omega
  · rintro j t hj ⟨h1, h2, h4, h5⟩
    have hlt : t.idx.toNat < t.n.toNat := by rw [h4, h5]; omega
    have : runningWave t = runningWave s := by simp [runningWave, h2]
    simp [tick, h1, h2, hr, hlt, this]

/-- In phase GEN of RENDER one step generates the whole dry buffer and opens the filter (R223). -/
theorem tick_gen_render {s : State} (hp : s.phase = .gen) (hr : s.running = some .render) : tick s = prepareRender s := by
  simp [tick, hp, hr]

/-- In phase FILT, k steps with IDX + k ≤ N are k filtering steps. -/
theorem ticks_filt (s : State) (k : Nat) (hp : s.phase = .filt) (hk : s.idx.toNat + k ≤ s.n.toNat) :
    repeatStep k tick s = repeatStep k filterSample s := by
  refine repeatStep_congr (fun j t => t.phase = .filt ∧ t.n = s.n ∧ t.idx.toNat = s.idx.toNat + j)
    ⟨hp, rfl, rfl⟩ k ?_ ?_
  · rintro j t hj ⟨h1, h4, h5⟩
    have hlt : t.idx.toNat < t.n.toNat := by rw [h4, h5]; omega
    have e : tick t = filterSample t := by simp [tick, h1, hlt]
    have := s.n.isLt
    have hs : t.idx.toNat + 1 < 2 ^ 32 := by omega
    rw [e]
    refine ⟨by simpa using h1, by simpa using h4, ?_⟩
    have := count_succ_toNat hs
    rw [filterSample_idx, this]; omega
  · rintro j t hj ⟨h1, h4, h5⟩
    have hlt : t.idx.toNat < t.n.toNat := by rw [h4, h5]; omega
    simp [tick, h1, hlt]

end Sys2Proof.Machine
end

