-- ==== Sys2Proof/Tests/Slice0.lean ====
section
/-! SUPPORT. The model's own tests. Every expected value is the spec's: the encodings of spec/30_encoding.md and the vectors of
spec/95_test_vectors.md named at each test. After them, for each statement with hypotheses, a witness that meets them. -/

namespace Sys2Proof.Tests

open Sys2Proof Sys2Proof.Machine

-- One theorem after the other: a hundred kernel evaluations side by side would exhaust the stack space of the threads.
set_option Elab.async false

/-- The next state, if there is one. -/
def next? (o : Host.Outcome State Fault Refusal) : Option State :=
  match o with
  | .next s => some s
  | _ => none

/-- The reset state with SRATE, DUR, FREQ and DUTY, and with the accesses to come. -/
def st (srate dur freq duty : Word) (acts : List HostAct) : State :=
  { State.reset with
    opr := { State.reset.opr with srate := srate, dur := dur, freq := freq, duty := duty }
    pending := acts }

/-- The first n words of a buffer. -/
def firstWords (n : Nat) (m : Memory) : List (Option Word) :=
  (List.range n).map fun i => memGet i m

/-- A numerics record that answers the four values of V-BQ-2 and V-DEC-2 and 1.0 elsewhere. -/
def record : Config.Numerics :=
  { sin := fun w => if w = 0x3FC23CA61DCC76A2 then 0x3FC22CDEABEC443D else 0x3FF0000000000000
    cos := fun w => if w = 0x3FC23CA61DCC76A2 then 0x3FEFACFE8CDED93F else 0x3FF0000000000000
    log2 := fun w => if w = 0x409F400000000000 then 0x4025EE7B471B3A95 else 0x3FF0000000000000
    exp2 := fun w => if w = 0xBFB548F309182FFD then 0x3FEE353B302336A2 else 0x3FF0000000000000 }

/-- The words of the five values. -/
def packed (c : CoefVals) : List (Option Word) :=
  [c.b0, c.b1, c.b2, c.a1, c.a2].map fun v => v.map Fin64.pack

/-! ## Encoding (R94, R97, R105, R64) -/

/-- R94: OP in bits [3:0], written out: 0x1 = 0001, the other bits ignored. -/
theorem test_decode_osc_saw : decode 0b0001 = .ok .oscSaw ∧ decode 0xFFFFFFFFFFFFFFF1 = .ok .oscSaw := by decide
theorem test_decode_osc_pulse : decode 0b0010 = .ok .oscPulse ∧ decode 0x8000000000000002 = .ok .oscPulse := by decide
theorem test_decode_bq_new : decode 0b0011 = .ok .bqNew := by decide
theorem test_decode_bq_setc : decode 0b0100 = .ok .bqSetc ∧ decode 0x14 = .ok .bqSetc := by decide
theorem test_decode_bq_step : decode 0b0101 = .ok .bqStep := by decide
theorem test_decode_bq_reset : decode 0b0110 = .ok .bqReset := by decide
theorem test_decode_render : decode 0b0111 = .ok .render ∧ decode 0xF7 = .ok .render := by decide

/-- R96: 0x0 and 0x8 to 0xF are reserved. -/
theorem test_decode_reserved :
    decode 0x0 = .error (.reservedOpcode 0x0) ∧ decode 0x8 = .error (.reservedOpcode 0x8) ∧
      decode 0xF = .error (.reservedOpcode 0xF) := by decide

/-- R64: little-endian; seven bytes are no command word (R105). -/
theorem test_decode_bytes :
    decodeBytes [0x07, 0, 0, 0, 0, 0, 0, 0x80, 0xAA] = .ok (.render, [0xAA]) ∧
      decodeBytes [0x07, 0, 0, 0, 0, 0, 0] = .error .truncated := by decide

/-- The words that are not canonical, one for each check of WellFormed. -/
theorem test_wellformed_refuses :
    cmdWordWf 0x0 = false ∧ cmdWordWf 0x8 = false ∧ cmdWordWf 0x11 = false ∧
      modeWordWf 0x007 = false ∧ modeWordWf 0x020 = false ∧ modeWordWf 0x200 = false ∧ modeWordWf 0x1000 = false ∧
      Config.Params.ok { nmax := 0, unitFallback := .hz } = false ∧
      Config.Params.ok { nmax := 2 ^ 30 + 1, unitFallback := .hz } = false := by decide

/-- The words that are. -/
theorem test_wellformed_accepts :
    cmdWordWf 0x1 = true ∧ cmdWordWf 0x7 = true ∧ modeWordWf 0x116 = true ∧
      Config.Params.ok { nmax := 2 ^ 30, unitFallback := .cent } = true := by decide

/-- R104, R109: an unknown filter string is code 15. -/
theorem test_tokens : topoToken "apf" = 4 ∧ topoToken "LPF" = 15 ∧ waveToken "pulse" = 1 ∧ unitToken "Cent" = 1 := by decide

/-! ## Numerics -/

/-- V-LEN. -/
theorem test_len_of :
    lenOf (ieeeOfWord 0x3FEFFFFFFFFFFFFF) = 0 ∧ lenOf (ieeeOfWord 0x3FFFFFFFFFFFFFFF) = 1 ∧
      lenOf (ieeeOfWord 0x40B139FFFFFFFFFF) = 4409 ∧ lenOf (ieeeOfWord 0x41EFFFFFFFD00000) = 4294967294 ∧
      lenOf (ieeeOfWord 0x41F0000000000000) = 4294967295 ∧ lenOf (ieeeOfWord 0xFFF0000000000000) = 0 := by
  decide +kernel

/-- V-NLEN: the product is rounded before the floor. -/
theorem test_buffer_len :
    bufferLen (st 0x40E5888000000000 0x3FE6666666666666 0 0 []).opr = 30869 ∧
      bufferLen (st 0x4059000000000000 0x3FD28F5C28F5C28F 0 0 []).opr = 28 ∧
      bufferLen (st 0x40F0000000000000 0x4030000000000000 0 0 []).opr = 1048576 := by decide +kernel

/-- V-SPU: 44100 gives 44, 999 gives 1, 1e300 saturates. -/
theorem test_update_interval :
    updateInterval (st 0x40E5888000000000 0 0 0 []).opr 0 = 44 ∧
      updateInterval (st 0x408F380000000000 0 0 0 []).opr 0 = 1 ∧
      updateInterval (st 0x7E37E43C8800759C 0 0 0 []).opr 0 = 4294967295 := by decide +kernel

/-- V-CLAMP: −0.0 stays −0.0; on the empty range [1.0, 0.8] the upper bound wins. -/
theorem test_clamp :
    (clamp (valOf 0x8000000000000000) cZero cHundred).map Fin64.pack = some 0x8000000000000000 ∧
      (clamp (valOf 0x4059000000000000) cOne (valOf 0x3FE999999999999A)).map Fin64.pack = some 0x3FE999999999999A := by
  decide +kernel

/-! ## Oscillator -/

/-- V-OSC-1. -/
theorem test_osc_saw :
    (next? (exec .oscSaw (st 0x4020000000000000 0x3FF0000000000000 0x3FF0000000000000 0 []))).map
        (fun t => (t.n, t.idx, statusWord t.status, firstWords 9 t.dry)) =
      some (8, 8, 0x2,
        [some 0xBFF0000000000000, some 0xBFE8000000000000, some 0xBFE0000000000000, some 0xBFD0000000000000,
         some 0x0000000000000000, some 0x3FD0000000000000, some 0x3FE0000000000000, some 0x3FE8000000000000, none]) := by
  decide +kernel

/-- V-OSC-9: the Capacity fault. -/
theorem test_osc_saw_capacity :
    (next? (exec .oscSaw (st 0x40E5888000000000 0x403E000000000000 0x3FF0000000000000 0 []))).map
        (fun t => (t.n, t.idx, statusWord t.status, t.dry)) = some (0, 0, 0x6, []) := by
  decide +kernel

/-- V-OSC-6, DUTY 25.0: the comparison is strict at phase 0.25. -/
theorem test_osc_pulse :
    (next? (exec .oscPulse (st 0x4020000000000000 0x3FF0000000000000 0x3FF0000000000000 0x4039000000000000 []))).map
        (fun t => (t.n, firstWords 4 t.dry)) =
      some (8, [some 0x3FF0000000000000, some 0x3FF0000000000000, some 0xBFF0000000000000, some 0xBFF0000000000000]) := by
  decide +kernel

/-- V-OSC-6, DUTY 33.3: the duty is 33.3 / 100.0 rounded; P5: DUTY −10.0 gives −1.0. -/
theorem test_osc_pulse_duty :
    (dutyOf (st 0 0 0 0x4040A66666666666 []).opr).map Fin64.pack = some 0x3FD54FDF3B645A1C ∧
      sampleWord .pulse (st 0x4020000000000000 0 0x3FF0000000000000 0xC024000000000000 []).opr 0 0 = 0xBFF0000000000000 := by
  decide +kernel

/-! ## Biquad -/

/-- V-BQ-1. -/
theorem test_bq_new :
    (next? (exec .bqNew { st 0x40E5888000000000 0 0 0 [] with coef := { Coefs.zero with b0 := 5 }, yout := 9 })).map
        (fun t => (t.fs, t.coef, t.hist, t.yout)) = some (0x40E5888000000000, Coefs.zero, History.zero, 9) := by
  decide

/-- V-BQ-3, LowPass and HighPass; R202: with Q = −1.0 nothing is specified, nor with FS = −44100.0 (U3). -/
theorem test_bq_setc_low_high :
    packed (coefVals record .lowPass (valOf 0x40E5888000000000) (valOf 0x408F400000000000) cOne) =
        [some 0x3F736033C15BF6FA, some 0x3F836033C15BF6FA, some 0x3F736033C15BF6FA, some 0xBFFD93718098CA99,
         some 0x3FEBC1E49F3C74E9] ∧
      packed (coefVals record .highPass (valOf 0x40E5888000000000) (valOf 0x408F400000000000) cOne) =
        [some 0x3FEDBA31E81B8287, some 0xBFFDBA31E81B8287, some 0x3FEDBA31E81B8287, some 0xBFFD93718098CA99,
         some 0x3FEBC1E49F3C74E9] ∧
      packed (coefVals record .lowPass (valOf 0x40E5888000000000) (valOf 0x408F400000000000) cMinusOne) =
        [none, none, none, none, none] ∧
      packed (coefVals record .bandPass (valOf 0xC0E5888000000000) (valOf 0x408F400000000000) cOne) =
        [none, none, none, none, none] := by
  decide +kernel

/-- V-BQ-3, BandPass, Notch, AllPass and the two shelves. -/
theorem test_bq_setc_others :
    packed (coefVals record .bandPass (valOf 0x40E5888000000000) (valOf 0x408F400000000000) cOne) =
        [some 0x3FB0F86D830E2C57, some 0x0000000000000000, some 0xBFB0F86D830E2C57, some 0xBFFD93718098CA99,
         some 0x3FEBC1E49F3C74E9] ∧
      packed (coefVals record .notch (valOf 0x40E5888000000000) (valOf 0x408F400000000000) cOne) =
        [some 0x3FEDE0F24F9E3A75, some 0xBFFD93718098CA99, some 0x3FEDE0F24F9E3A75, some 0xBFFD93718098CA99,
         some 0x3FEBC1E49F3C74E9] ∧
      packed (coefVals record .allPass (valOf 0x40E5888000000000) (valOf 0x408F400000000000) cOne) =
        [some 0x3FEBC1E49F3C74E9, some 0xBFFD93718098CA99, some 0x3FF0000000000000, some 0xBFFD93718098CA99,
         some 0x3FEBC1E49F3C74E9] ∧
      packed (coefVals record .lowShelf (valOf 0x40E5888000000000) (valOf 0x408F400000000000) cOne) =
        [some 0x3FF0000000000000, some 0xBFFAA764E3E07042, some 0x3FE5DA7AE71D1F7C, some 0xBFFAA764E3E07042,
         some 0x3FE5DA7AE71D1F7C] ∧
      packed (coefVals record .highShelf (valOf 0x40E5888000000000) (valOf 0x408F400000000000) cOne) =
        [some 0x3FF0000000000000, some 0xBFFAA764E3E07042, some 0x3FE5DA7AE71D1F7C, some 0xBFFAA764E3E07042,
         some 0x3FE5DA7AE71D1F7C] := by
  decide +kernel

/-- V-BQ-6: w at FS = 44100.0, CUTOFF0 = 30000.0, and at FS = 2.0, CUTOFF0 = 0.1 (empty range). -/
theorem test_omega :
    (omega (valOf 0x40E5888000000000) (valOf 0x40DD4C0000000000)).map Fin64.pack = some 0x40041B2F769CF0E0 ∧
      (omega (valOf 0x4000000000000000) (valOf 0x3FB999999999999A)).map Fin64.pack = some 0x40041B2F769CF0E0 := by
  decide +kernel

/-- V-BQ-4, steps 0 and 1: the impulse, then 0.0. -/
theorem test_bq_step :
    (next? (exec .bqStep
      { State.reset with
        opr := { State.reset.opr with xin := 0x3FF0000000000000 }
        coef := { b0 := 0x3F736033C15BF6FA, b1 := 0x3F836033C15BF6FA, b2 := 0x3F736033C15BF6FA
                  a1 := 0xBFFD93718098CA99, a2 := 0x3FEBC1E49F3C74E9 } })).map
        (fun t => (t.yout, t.hist)) =
      some (0x3F736033C15BF6FA,
        { x1 := 0x3FF0000000000000, x2 := 0, y1 := 0x3F736033C15BF6FA, y2 := 0 }) := by
  decide +kernel

theorem test_bq_step_again :
    (next? (exec .bqStep
      { State.reset with
        hist := { x1 := 0x3FF0000000000000, x2 := 0, y1 := 0x3F736033C15BF6FA, y2 := 0 }
        coef := { b0 := 0x3F736033C15BF6FA, b1 := 0x3F836033C15BF6FA, b2 := 0x3F736033C15BF6FA
                  a1 := 0xBFFD93718098CA99, a2 := 0x3FEBC1E49F3C74E9 } })).map
        (fun t => (t.yout, t.hist.x2)) = some (0x3F92A454A7F5D15C, 0x3FF0000000000000) := by
  decide +kernel

/-- R140: a finite word is moved as it is, the largest too; of a NaN or an infinity a free word is left. -/
theorem test_moved_word :
    copyWord 0x7FEFFFFFFFFFFFFF 3 = 0x7FEFFFFFFFFFFFFF ∧ copyWord 0x7FF8000000000001 3 = Config.freeWord 3 ∧
      copyWord 0xFFF0000000000000 4 = Config.freeWord 4 :=
  ⟨rfl, rfl, rfl⟩

/-- V-BQ-4: BQ_RESET keeps the coefficients. -/
theorem test_bq_reset :
    (next? (exec .bqReset
      { State.reset with coef := { Coefs.zero with b0 := 0x3F736033C15BF6FA }, hist := { x1 := 1, x2 := 2, y1 := 3, y2 := 4 } })).map
        (fun t => (t.coef.b0, t.hist)) = some (0x3F736033C15BF6FA, History.zero) := by
  decide

/-! ## Render -/

/-- V-DEC-1 at i = 44 and i = 4444. -/
theorem test_hz_decay :
    (hzCutoff cThousand (valOf 0x4024000000000000) (elapsedMs (valOf 0x40E5888000000000) 44)).map Fin64.pack =
        some 0x408EF02E709DE54C ∧
      (hzCutoff cThousand (valOf 0x4024000000000000) (elapsedMs (valOf 0x40E5888000000000) 4444)).map Fin64.pack =
        some 0x3FF0000000000000 := by
  decide +kernel

/-- V-DEC-2 at i = 44. -/
theorem test_cent_decay :
    (centCutoff record (valOf 0x409F400000000000) (valOf 0x4059000000000000)
      (elapsedMs (valOf 0x40E5888000000000) 44)).map Fin64.pack = some 0x409D7FFBCD02635A := by
  decide +kernel

/-- V-REN-4: N = 0, and the filter is constructed all the same. -/
theorem test_render_empty :
    (next? (exec .render { st 0x40E5888000000000 0 0x406B800000000000 0 [] with coef := { Coefs.zero with b0 := 7 } })).map
        (fun t => (t.n, t.spu, t.fs, t.coef, statusWord t.status)) =
      some (0, 44, 0x40E5888000000000, Coefs.zero, 0x2) := by
  decide +kernel

/-- P4, the recurrence at i = 1, from the coefficients and the history after i = 0 (off a tick: SPU = 2). -/
theorem test_render_body :
    (fun t : State => (t.idx, memGet 1 t.out, t.hist.x1))
        (filterSample
          { State.reset with
            idx := 1, spu := 2, n := 8
            dry := [(0, 0xBFF0000000000000), (1, 0xBFE8000000000000)]
            out := [(0, 0xBFD5555555555555)]
            hist := { x1 := 0xBFF0000000000000, x2 := 0, y1 := 0xBFD5555555555555, y2 := 0 }
            coef := { b0 := 0x3FD5555555555555, b1 := 0x3FE5555555555555, b2 := 0x3FD5555555555555
                      a1 := 0xBC978832EEC5D009, a2 := 0x3FD5555555555555 } }) =
      (2, some 0xBFED555555555555, 0xBFE8000000000000) := by
  decide +kernel

/-! ## The bus, the faults and reset -/

/-- P6, statements 5 and 6: a reserved opcode sets ILLCMD and keeps DONE and CAP. -/
theorem test_illegal_command :
    (next? (Sys2Proof.core.run 2
      { State.reset with
        status := { busy := false, done := true, cap := true, illcmd := false }
        pending := [.write 0x00000000 0x9, .read 0x00000001] })).map (fun t => t.rdata) = some 0xE := by
  decide

/-- V-REN-2: MODE written as 0xFFFFFFFFFFFFF123 reads back 0x123 (R97). -/
theorem test_mode_reads_back :
    (next? (Sys2Proof.core.run 2
      { State.reset with pending := [.write 0x00000002 0xFFFFFFFFFFFFF123, .read 0x00000002] })).map (fun t => t.rdata) =
      some 0x123 := by
  decide

/-- R62: DRY[1] is at word address 0x40000001. -/
theorem test_reads_dry :
    (next? (step { State.reset with dry := [(1, 0xABC)], pending := [.read 0x40000001] })).map (fun t => t.rdata) =
      some 0xABC := by
  decide

/-- R300: a started command is busy; a write is dropped; time passes; it ends as the command does. -/
theorem test_started_command :
    (next? (Sys2Proof.core.run 4
      (st 0x4020000000000000 0x3FD0000000000000 0x3FF0000000000000 0
        [.start 0x1, .read 0x00000001, .write 0x00000003 0x5, .tick]))).map
        (fun t => (t.rdata, t.opr.freq, t.idx, t.n, t.phase)) = some (0x1, 0x3FF0000000000000, 1, 2, .gen) := by
  decide +kernel

/-- The host's question: the command placed by withFetchWord is the one the next step runs. -/
theorem test_fetch_word :
    decodeTableWord 8 0x6 = some .bqReset ∧ decodeTableWord 64 0x8 = none ∧
      (next? (step (State.reset.withFetchWord 64 0x3))).map (fun t => (t.status.done, t.pending)) = some (true, []) := by
  decide

/-! ## Witnesses: for each statement with hypotheses, states and operands that meet them together, each clause at its boundaries -/

/-- V-OSC-1's operands, N = 8. -/
def eight : State := st 0x4020000000000000 0x3FF0000000000000 0x3FF0000000000000 0x4039000000000000 []

/-- V-OSC-9's operands, n = 1323000 above NMAX. -/
def tooLong : State := st 0x40E5888000000000 0x403E000000000000 0x3FF0000000000000 0 []

/-- The value 1.0. -/
def one64 : Fin64 := { neg := false, mag := oneMag }

theorem test_meets_FinitePatternsRoundTrip :
    ieeeOfWord 0x3FF0000000000000 = .fin one64 ∧ ieeeOfWord 0x0000000000000001 = .fin { neg := false, mag := 1 } ∧
      ieeeOfWord 0x8000000000000000 = .fin { neg := true, mag := 0 } ∧
      (∃ x, ieeeOfWord 0x7FEFFFFFFFFFFFFF = .fin x) ∧ one64.Ok ∧ one64.pack = one64.pack := by
  refine ⟨by decide +kernel, by decide +kernel, by decide +kernel, ⟨_, rfl⟩, ⟨⟨1, 1074, by decide, by decide +kernel⟩, ?_⟩, rfl⟩
  decide +kernel

/-- A tie: 2^53 + 1 lies halfway between 2^53 and 2^53 + 2. -/
theorem test_meets_RoundingIsToNearestEven :
    (0 : Nat) < 1 ∧ Representable (2 ^ 53 + 2) ∧ 2 ^ 53 + 2 ≠ roundMag (2 ^ 53 + 1) 1 ∧
      |(roundMag (2 ^ 53 + 1) 1 * 1 : Int) - (2 ^ 53 + 1 : Nat)| = |((2 ^ 53 + 2 : Nat) * 1 : Int) - (2 ^ 53 + 1 : Nat)| := by
  have h : roundMag (2 ^ 53 + 1) 1 = 2 ^ 53 := by decide +kernel
  refine ⟨by decide, ⟨2 ^ 52 + 1, 1, by decide, by decide⟩, by rw [h]; decide, ?_⟩
  rw [h]; norm_num

/-- Both signs of a sum, a zero sum, a zero divisor and another. -/
theorem test_meets_TheFourOperationsRoundOnce :
    one64.toInt + one64.toInt ≠ 0 ∧ one64.toInt + one64.negate.toInt = 0 ∧ one64.mag ≠ 0 ∧
      ({ neg := true, mag := 0 } : Fin64).mag = 0 := by
  decide +kernel

/-- The root of 1.0, with a representable value on either side of it; both zeros' clause and a negative value. -/
theorem test_meets_SqrtIsCorrectlyRounded :
    0 < oneMag ∧ oneMag < magLimit ∧ Representable oneMag ∧ Representable 1 ∧ 1 < sqrtMag oneMag ∧
      Representable (2 * oneMag) ∧ sqrtMag oneMag < 2 * oneMag ∧ one64.negate.mag ≠ 0 ∧ one64.negate.neg = true :=
  ⟨by decide +kernel, by decide +kernel, ⟨1, 1074, by decide, by decide +kernel⟩, ⟨1, 0, by decide, rfl⟩,
    by decide +kernel, ⟨1, 1075, by decide, by decide +kernel⟩, by decide +kernel, by decide +kernel, rfl⟩

theorem test_meets_NegationAndFloor :
    ieeeOfWord 0x3FF0000000000000 = .fin one64 ∧
      ∃ x, ieeeOfWord 0xC330000000000000 = .fin x ∧ 2 ^ 52 * oneMag ≤ x.mag :=
  ⟨by decide +kernel, { neg := true, mag := 2 ^ 52 * oneMag }, by decide +kernel, Nat.le_refl _⟩

/-- Each branch: below, at the lower bound, between, above, and the empty range. -/
theorem test_meets_ClampTakesTheUpperBoundLast :
    ∃ zero two : Fin64, zero.toInt ≤ one64.toInt ∧ zero.toInt < one64.toInt ∧ one64.toInt < two.toInt ∧
      zero.toInt ≤ zero.toInt :=
  ⟨{ neg := false, mag := 0 }, { neg := false, mag := 2 * oneMag }, by decide +kernel, by decide +kernel,
    by decide +kernel, Int.le_refl _⟩

/-- Each clause at its bound: the largest value below 1.0, 1.0, and 4294967295.0. -/
theorem test_meets_CountsAreTruncated :
    ∃ a b : Fin64, ieeeOfWord 0x3FEFFFFFFFFFFFFF = .fin a ∧ a.toInt < oneMag ∧ (oneMag : Int) ≤ one64.toInt ∧
      one64.toInt < 4294967295 * (oneMag : Int) ∧ ieeeOfWord 0x41EFFFFFFFE00000 = .fin b ∧
      4294967295 * (oneMag : Int) ≤ b.toInt :=
  ⟨_, _, rfl, by decide +kernel, by decide +kernel, by decide +kernel, rfl, by decide +kernel⟩

/-- Both clauses of the three buffer commands. -/
theorem test_meets_OscSawWritesTheSawtooth :
    Spec.Length eight.opr ≤ eight.params.nmax ∧ tooLong.params.nmax < Spec.Length tooLong.opr := by
  decide +kernel

theorem test_meets_OscPulseWritesThePulse :
    Spec.Length eight.opr ≤ eight.params.nmax ∧ tooLong.params.nmax < Spec.Length tooLong.opr := by
  decide +kernel

/-- The bound is met with equality too: SRATE = 65536.0, DUR = 16.0 (V-NLEN). -/
theorem test_meets_RenderFiltersTheDryBuffer :
    Spec.Length eight.opr ≤ eight.params.nmax ∧ tooLong.params.nmax < Spec.Length tooLong.opr ∧
      Spec.Length (st 0x40F0000000000000 0x4030000000000000 0 0 []).opr = State.reset.params.nmax := by
  decide +kernel

/-- SRATE = 0 gives no phase; FREQ = 1.0 at i = 3 gives p = 0.375; FREQ = −2^-51 at i = 1 gives p = −2^-54 and the phase 1.0. -/
theorem test_meets_PhaseLiesInTheUnitInterval :
    fmul (fdiv (u2f 1) (valOf 0)) (valOf 0x3FF0000000000000) = none ∧
      (∃ p : Fin64, fmul (fdiv (u2f 3) (valOf eight.opr.srate)) (valOf eight.opr.freq) = some p ∧ 0 ≤ p.toInt) ∧
      ∃ p : Fin64, fmul (fdiv (u2f 1) (valOf 0x4020000000000000)) (valOf 0xBCC0000000000000) = some p ∧ p.toInt < 0 ∧
        (phaseAt (st 0x4020000000000000 0 0xBCC0000000000000 0 []).opr 1).map Fin64.toInt = some (oneMag : Int) := by
  refine ⟨by decide +kernel, ⟨{ neg := false, mag := 3 * 2 ^ 1071 }, by decide +kernel, by decide +kernel⟩,
    { neg := true, mag := 2 ^ 1020 }, by decide +kernel, by decide +kernel, by decide +kernel⟩

/-- Operands in the domain. -/
def inDomain : OperandRegs :=
  { eight.opr with cutoff0 := 0x3FF0000000000000, q := 0x3FF0000000000000 }

theorem test_in_domain : InDomain inDomain := by
  refine ⟨⟨_, rfl, ?_⟩, ⟨_, rfl, ?_⟩, ⟨_, rfl, ?_⟩, ⟨_, rfl, trivial⟩, ⟨_, rfl, ?_⟩, ⟨_, rfl, ?_⟩, ⟨_, rfl, ?_⟩⟩ <;>
    decide +kernel

/-- Program P5's operands, CUTOFF0, Q and RATE at reset; and FREQ = 0, the bound of its premise. -/
theorem test_meets_SawtoothStaysBelowOne :
    finiteWith (0 ≤ ·) eight.opr.freq ∧ finiteWith (0 < ·) eight.opr.srate ∧ (sawAt eight.opr 7).isSome = true ∧
      finiteWith (0 ≤ ·) 0x0000000000000000 ∧ (phaseAt eight.opr 0).map Fin64.toInt = some 0 := by
  refine ⟨⟨_, rfl, ?_⟩, ⟨_, rfl, ?_⟩, ?_, ⟨_, rfl, ?_⟩, ?_⟩ <;> decide +kernel

/-- Two states that differ in everything but SRATE, DUR and NMAX. -/
theorem test_meets_BufferCommandsAgreeOnTheLength :
    ∃ u t v, eight.opr.srate = u.opr.srate ∧ eight.opr.dur = u.opr.dur ∧ eight.params.nmax = u.params.nmax ∧
      u.opr.freq ≠ eight.opr.freq ∧ exec .oscSaw eight = .next t ∧ exec .render u = .next v :=
  ⟨{ eight with opr := { eight.opr with freq := 5, mode := 0x011 }, yout := 1 }, _, _, rfl, rfl, rfl, by decide, rfl, rfl⟩

theorem test_meets_OscillatorReadsOnlyItsOperands :
    ∃ t v, exec .oscPulse eight = .next t ∧ exec .oscPulse { eight with yout := 1, out := [(0, 1)] } = .next v :=
  ⟨_, _, rfl, rfl⟩

theorem test_meets_ZeroCoefficientsGiveZero :
    State.reset.coef = { b0 := 0, b1 := 0, b2 := 0, a1 := 0, a2 := 0 } ∧
      finiteWith (fun _ => True) State.reset.opr.xin ∧ finiteWith (fun _ => True) State.reset.hist.x1 ∧
      finiteWith (fun _ => True) 0x7FEFFFFFFFFFFFFF ∧ ∃ t, exec .bqStep State.reset = .next t :=
  ⟨rfl, ⟨_, rfl, trivial⟩, ⟨_, rfl, trivial⟩, ⟨_, rfl, trivial⟩, _, rfl⟩

theorem test_meets_AllPassMirrorsItsDenominator :
    (coefVals record .allPass (valOf 0x40E5888000000000) (valOf 0x408F400000000000) cOne).b2.isSome = true := by
  decide +kernel

theorem test_meets_RowsOfTheCoefficientTable :
    (coefVals record .bandPass (valOf 0x40E5888000000000) (valOf 0x408F400000000000) cOne).b1.isSome = true := by
  decide +kernel

theorem test_meets_LowPassHalvingIsExact : (rawLowPass (valOf 0x3FEFACFE8CDED93F) cOne).b1.isSome = true := by
  decide +kernel

theorem test_meets_ShelvesAreTheIdentityFilter :
    (coefVals record .lowShelf (valOf 0x40E5888000000000) (valOf 0x408F400000000000) cOne).b0.isSome = true ∧
      (coefVals record .highShelf (valOf 0x40E5888000000000) (valOf 0x408F400000000000) cOne).b0.isSome = true := by
  decide +kernel

/-- FS = 44100.0, FS = 2.5 (the bound of the first clause) and FS = 2.0 (the second). -/
theorem test_meets_CutoffIsClamped :
    ∃ a b c : Fin64, valOf 0x40E5888000000000 = some a ∧ 5 * (oneMag : Int) ≤ 2 * a.toInt ∧
      valOf 0x4004000000000000 = some b ∧ 5 * (oneMag : Int) ≤ 2 * b.toInt ∧
      valOf 0x4000000000000000 = some c ∧ 0 < c.toInt ∧ 2 * c.toInt < 5 * (oneMag : Int) :=
  ⟨_, _, _, rfl, by decide +kernel, rfl, by decide +kernel, rfl, by decide +kernel, by decide +kernel⟩

/-- A record whose sine is 1.0 everywhere meets T2. -/
def flat : Config.Numerics :=
  { sin := fun _ => 0x3FF0000000000000, cos := fun _ => 0, log2 := fun _ => 0x3FF0000000000000
    exp2 := fun _ => 0x3FF0000000000000 }

theorem test_flat_T2 : T2 flat := fun _ _ _ =>
  ⟨{ neg := false, mag := 0 }, one64, by decide +kernel, (by decide +kernel : valOf 0x3FF0000000000000 = some one64),
    by decide +kernel⟩

theorem test_meets_AlphaIsNotNegative :
    T2 flat ∧ ∃ f c qv al : Fin64, valOf 0x4004000000000000 = some f ∧ 5 * (oneMag : Int) ≤ 2 * f.toInt ∧
      valOf 0x408F400000000000 = some c ∧ valOf 0x3FF0000000000000 = some qv ∧ 0 < qv.toInt ∧
      alpha (fsin flat (omega (valOf 0x4004000000000000) (valOf 0x408F400000000000))) (valOf 0x3FF0000000000000) = some al := by
  refine ⟨test_flat_T2, _, _, _, { neg := false, mag := 2 ^ 1073 }, rfl, by decide +kernel, rfl, rfl, by decide +kernel, ?_⟩
  decide +kernel

/-- N = 8, with finite words DRY[7] and DRY[6] (V-OSC-1), and N = 1 (V-REN-3). -/
theorem test_meets_RenderEndState :
    Spec.Length eight.opr ≤ eight.params.nmax ∧ (∃ t, exec .render eight = .next t ∧ 2 ≤ t.n.toNat) ∧
      ((firstWords 8 (prepareRender (openBuffer eight)).dry).drop 6).map (fun w => w.map fun v => (valOf v).isSome) =
        [some true, some true] ∧
      ∃ s t, Spec.Length s.opr ≤ s.params.nmax ∧ exec .render s = .next t ∧ t.n.toNat = 1 := by
  refine ⟨by decide +kernel, ⟨_, rfl, by decide +kernel⟩, by decide +kernel,
    st 0x40E5888000000000 0x3EFA36E2EB1C432D 0 0 [], _, by decide +kernel, rfl, by decide +kernel⟩

theorem test_meets_EmptyRenderStillBuildsTheFilter :
    Spec.Length State.reset.opr = 0 ∧ Spec.Length (st 0x40E5888000000000 0xBFF0000000000000 0 0 []).opr = 0 := by
  decide +kernel

theorem test_meets_RenderForgetsTheOldFilterAndBuffers :
    ∃ t v, Spec.Length eight.opr ≤ eight.params.nmax ∧ exec .render eight = .next t ∧
      exec .render { eight with coef := { Coefs.zero with b0 := 1 }, dry := [(0, 1)], yout := 1 } = .next v :=
  ⟨_, _, by decide +kernel, rfl, rfl⟩

/-- Phase FILT at a tick. -/
def atTick : State :=
  { eight with phase := .filt, running := some .render, n := 8, spu := 2, idx := 2 }

theorem test_meets_CoefficientsChangeOnlyAtTicks :
    ∃ s t : State, s.phase = .filt ∧ s.pending = [] ∧ step s = .next t ∧ t.coef ≠ s.coef := by
  by_cases h : (tick atTick).coef = atTick.coef
  · refine ⟨{ atTick with coef := { Coefs.zero with b0 := 1 } }, tick { atTick with coef := { Coefs.zero with b0 := 1 } },
      rfl, rfl, rfl, ?_⟩
    intro hc
    have e : (tick { atTick with coef := { Coefs.zero with b0 := 1 } }).coef = (tick atTick).coef := rfl
    rw [e, h] at hc
    exact absurd (congrArg Coefs.b0 hc) (by decide)
  · exact ⟨atTick, tick atTick, rfl, rfl, rfl, h⟩

theorem test_meets_CutoffNeverFallsBelowOne : (scheduledCutoff flat Config.suggested inDomain 5).isSome = true := by
  decide +kernel

theorem test_flat_T3 : T3 flat := ⟨rfl, rfl⟩

theorem test_meets_CentDecayStartsAtTheInitialCutoff :
    T3 flat ∧ ∃ c r f mc : Fin64, valOf 0x3FF0000000000000 = some c ∧ (oneMag : Int) ≤ c.toInt ∧
      valOf 0x4059000000000000 = some r ∧ valOf 0x40E5888000000000 = some f ∧ f.toInt ≠ 0 ∧
      fmul c1200 (flog2 flat (valOf 0x3FF0000000000000)) = some mc ∧ 0 ≤ mc.toInt := by
  refine ⟨test_flat_T3, _, _, _, { neg := false, mag := 1200 * oneMag }, rfl, by decide +kernel, rfl, rfl,
    by decide +kernel, by decide +kernel, by decide +kernel⟩

/-- Both units, and both zeros as RATE. -/
theorem test_meets_ZeroRateKeepsTheCutoff :
    T3 flat ∧ inDomain.rate = 0x0000000000000000 ∧ (scheduledCutoff flat Config.suggested inDomain 0).isSome = true ∧
      decayUnit Config.suggested inDomain.mode = .hz ∧
      (scheduledCutoff flat Config.suggested { inDomain with mode := 0x100, rate := 0x8000000000000000 } 7).isSome = true :=
  ⟨test_flat_T3, by decide, by decide +kernel, by decide, by decide +kernel⟩

theorem test_meets_CapacityFaultWritesNothingElse : tooLong.params.nmax < Spec.Length tooLong.opr := by
  decide +kernel

/-- Both clauses, at 0 and at 8. -/
theorem test_meets_ReservedOpcodeSetsOnlyIllcmd :
    ∃ s : State, s.pending = .write 0x00000000 0x10 :: [.write 0x00000000 0x8] ∧ s.status.busy = false ∧
      ((0x10 : Word).toNat % 16 = 0) ∧ 8 ≤ (0x8 : Word).toNat % 16 :=
  ⟨st 0 0 0 0 [.write 0x00000000 0x10, .write 0x00000000 0x8], rfl, rfl, by decide, by decide⟩

theorem test_meets_StepRunsTheDecodedCommand :
    ∃ s : State, s.pending = .write 0x00000000 0x7 :: [] ∧ s.status.busy = false ∧ decode 0x7 = .ok .render :=
  ⟨st 0 0 0 0 [.write 0x00000000 0x7], rfl, rfl, rfl⟩

/-- Each clause has a command that does change the unit. -/
theorem test_meets_CommandsKeepToTheirUnit :
    (∃ t, exec .bqNew { eight with coef := { Coefs.zero with b0 := 1 }, hist := { History.zero with x1 := 1 } } = .next t ∧
        t.coef ≠ { Coefs.zero with b0 := 1 } ∧ t.hist ≠ { History.zero with x1 := 1 } ∧ t.fs ≠ eight.fs) ∧
      (∃ t, exec .bqStep { eight with yout := 1 } = .next t ∧ t.yout ≠ 1) ∧
      (∃ t, exec .oscSaw eight = .next t ∧ t.n ≠ eight.n) ∧
      ∃ t, exec .render eight = .next t ∧ t.spu ≠ eight.spu := by
  refine ⟨⟨_, rfl, ?_, ?_, ?_⟩, ⟨_, rfl, ?_⟩, ⟨_, rfl, ?_⟩, ⟨_, rfl, ?_⟩⟩ <;> decide +kernel

theorem test_meets_StickyBitsDoNotMatter : ∃ t, exec .oscSaw tooLong = .next t :=
  ⟨_, rfl⟩

theorem test_meets_OnlyResetClearsTheStickyBits :
    ∃ s t : State, step s = .next t ∧ (∀ rest, s.pending ≠ .reset :: rest) ∧ s.status.cap = true ∧
      s.status.illcmd = true :=
  ⟨{ State.reset with status := { busy := false, done := true, cap := true, illcmd := true } }, _, rfl,
    fun _ h => (by cases h), rfl, rfl⟩

theorem test_meets_SuccessfulRunsNeverFaulted :
    ∃ s t : State, HostAct.reset ∉ s.pending ∧ Sys2Proof.core.run 2 s = .next t ∧ t.RunOk :=
  ⟨st 0 0 0 0 [.write 0x00000000 0x6, .read 0x00000001], _, by decide, rfl, rfl, rfl, rfl, rfl⟩

/-- Both ways an operand register changes. -/
theorem test_meets_OnlyTheHostWritesOperands :
    (∃ s t : State, step s = .next t ∧ t.opr ≠ s.opr ∧ s.pending = [.write 0x00000008 0x1]) ∧
      ∃ s t : State, step s = .next t ∧ t.opr ≠ s.opr ∧ s.pending = [.reset] :=
  ⟨⟨st 0 0 0 0 [.write 0x00000008 0x1], _, rfl, by decide, rfl⟩, st 1 0 0 0 [.reset], _, rfl, by decide, rfl⟩

/-- The first and the last operand register. -/
theorem test_meets_OperandRegistersReadBack :
    ∃ s u : State, s.pending = .write (BitVec.ofNat 32 2) 0x5 :: .read (BitVec.ofNat 32 2) :: [] ∧ s.status.busy = false ∧
      u.pending = .write (BitVec.ofNat 32 10) 0x5 :: .read (BitVec.ofNat 32 10) :: [] ∧ u.status.busy = false :=
  ⟨st 0 0 0 0 [.write 2 0x5, .read 2], st 0 0 0 0 [.write 10 0x5, .read 10], rfl, rfl, rfl, rfl⟩

/-- Two entries of the map, one before and one after the reserved numbers. -/
theorem test_meets_RegisterReadsFollowTheMap :
    (st 0 0 0 0 [.read (BitVec.ofNat 32 0x0B)]).status.busy = false ∧
      (st 0 0 0 0 [.read (BitVec.ofNat 32 0x0B)]).pending = .read (BitVec.ofNat 32 0x0B) :: [] ∧
      (st 0 0 0 0 [.read (BitVec.ofNat 32 0x1C)]).pending = .read (BitVec.ofNat 32 0x1C) :: [] :=
  ⟨rfl, rfl, rfl⟩

/-- Each range at its ends. -/
theorem test_meets_ReadOnlyAndReservedAddresses :
    (st 0 0 0 0 [.write 0x1 0x5]).status.busy = false ∧
      (st 0 0 0 0 [.write 0x1 0x5]).pending = .write 0x1 0x5 :: [] ∧
      ([(0x1 : Addr), 0xB, 0x1C, 0x40000000, 0xFFFFFFFF].all fun a =>
        decide (a ≠ 0) && (decide (10 < a.toNat) || decide (a.toNat = 1))) = true ∧
      ([(0x0 : Addr), 0xC, 0xF, 0x1D, 0x3FFFFFFF, 0xC0000000, 0xFFFFFFFF].all fun a =>
        decide (a.toNat = 0 ∨ 0x0C ≤ a.toNat ∧ a.toNat ≤ 0x0F ∨ 0x1D ≤ a.toNat ∧ a.toNat < 0x40000000 ∨
          0xC0000000 ≤ a.toNat)) = true := by
  decide

/-- The first and the last word of a buffer; a written word and an unwritten one. -/
theorem test_meets_BufferReads :
    ∃ s : State, s.status.busy = false ∧ s.params.ok = true ∧ 0 < s.params.nmax ∧ 2 ^ 20 - 1 < s.params.nmax ∧
      s.pending = .read (dryAddr 0) :: .read (dryAddr 0) :: [] ∧ memGet 0 s.dry = some 5 ∧ memGet 1 s.dry = none :=
  ⟨{ st 0 0 0 0 [.read (dryAddr 0), .read (dryAddr 0)] with dry := [(0, 5)] }, rfl, by decide, by decide, by decide, rfl, rfl, rfl⟩

/-- Both clauses; the accesses the second covers. -/
theorem test_meets_BusyCoreIgnoresTheHost :
    ∃ s : State, s.status.busy = true ∧ s.pending = .read 0x00000001 :: [.write 0x00000000 0x7] ∧
      hostMay (.write 0x00000000 0x7) = false ∧ hostMay (.start 0x7) = false ∧ hostMay (.read 0x00000003) = false :=
  ⟨{ st 0 0 0 0 [.read 0x00000001, .write 0x00000000 0x7] with status := { busy := true, done := false, cap := false, illcmd := false } },
    rfl, rfl, rfl, rfl, rfl⟩

theorem test_meets_ResetLeavesTheResetValues :
    ∃ s : State, s.pending = .reset :: [] ∧ s.status.busy = true :=
  ⟨{ st 1 0 0 0 [.reset] with status := { busy := true, done := false, cap := false, illcmd := false } }, rfl, rfl⟩

theorem test_meets_IdleCoreWaits : State.reset.phase = .idle ∧ State.reset.pending = [] := ⟨rfl, rfl⟩

/-- A running command that meets the invariant: RENDER in both phases and OSC_SAW, at an index below N and at N. -/
theorem inv_running (s : State) (hp : s.params = Config.suggested) (hd : s.dry = [(0, 1), (1, 2)]) (ho : s.out = [(0, 3), (1, 4)])
    (hn : s.n = 2) (hi : s.idx = 0 ∨ s.idx = 2) (hb : s.status = { busy := true, done := false, cap := false, illcmd := false })
    (hr : s.running = some .render ∧ (s.phase = .gen ∧ s.idx = 0 ∨ s.phase = .filt) ∨ s.running = some .oscSaw ∧ s.phase = .gen)
    (hs : s.spu = 1) : s.Inv := by
  have two : ∀ (k : Nat) (a b : Word), k ≤ 2 → filledTo k [(0, a), (1, b)] := by
    intro k a b hk i hlt
    have : i = 0 ∨ i = 1 := by omega
    rcases this with rfl | rfl <;> rfl
  rcases hr with ⟨hr, ⟨hph, hi⟩ | hph⟩ | ⟨hr, hph⟩ <;> constructor <;>
    (try rcases hi with hi | hi) <;>
    simp [hp, hd, ho, hn, hi, hb, hr, hs, hph, Config.suggested, Config.Params.ok, Memory.wf, Memory.below, two]

/-- The state of inv_running of a command, at an index, in a phase. -/
def running (i : Instr) (idx : Count) (ph : Phase) : State :=
  { State.reset with
    dry := [(0, 1), (1, 2)], out := [(0, 3), (1, 4)], n := 2, idx := idx, spu := 1, phase := ph, running := some i
    status := { busy := true, done := false, cap := false, illcmd := false } }

theorem test_meets_IndexAdvancesByOne :
    (running .render 0 .gen).Inv ∧ (running .oscSaw 0 .gen).Inv ∧ (running .oscSaw 2 .gen).Inv ∧
      (running .render 0 .filt).Inv ∧ (running .render 2 .filt).Inv ∧
      ∀ c i p, (running c i p).pending = [] ∧ ∃ t, step (running c i p) = .next t := by
  refine ⟨?_, ?_, ?_, ?_, ?_, fun _ _ _ => ⟨rfl, _, rfl⟩⟩ <;> refine inv_running _ rfl rfl rfl rfl ?_ rfl ?_ rfl <;> decide

theorem test_meets_EveryStepKeepsTheInvariant :
    ∃ s t : State, s.Inv ∧ step s = .next t ∧ s.phase = .filt ∧ s.status.busy = true :=
  ⟨running .render 0 .filt, _, inv_running _ rfl rfl rfl rfl (by decide) rfl (by decide) rfl, rfl, rfl, rfl⟩

theorem test_meets_SampleStepsRefineTheCommand : eight.Idle ∧ tooLong.Idle :=
  ⟨⟨rfl, rfl, rfl⟩, rfl, rfl, rfl⟩

theorem test_meets_DecodeAfterEncode : Instr.render.wf = true ∧ cmdWordWf 0x1 = true ∧ cmdWordWf 0x7 = true := by
  decide

end Sys2Proof.Tests
end

section
/-! PROOFS of the statements of spec/00_scope.md: the pattern of a finite value (R10) and the sample as a step (R15). -/

namespace Sys2Proof.Machine

/-! ## The pattern of a finite value (R10) -/

/-- A word is the sum of its sign bit, its exponent field and its fraction, each in its place (R10). -/
theorem word_toNat_eq_fields (w : Word) :
    w.toNat = (if w.getLsbD 63 then 2 ^ 63 else 0) +
      ((w.extractLsb' 52 11).toNat * 2 ^ 52 + (w.extractLsb' 0 52).toNat) := by
  have hw := w.isLt
  have hs : (w.getLsbD 63 = true) ↔ w.toNat / 2 ^ 63 % 2 = 1 := by
    rw [BitVec.getLsbD, Nat.testBit_eq_decide_div_mod_eq, decide_eq_true_eq]
  rw [BitVec.extractLsb'_toNat, BitVec.extractLsb'_toNat, Nat.shiftRight_eq_div_pow, Nat.shiftRight_eq_div_pow]
  split
  · next h => rw [hs] at h; omega
  · next h => rw [hs] at h; omega

/-- The fields of a word that stands for a finite value: the converse of `ieeeOfWord_of_toNat`. -/
theorem fields_of_ieeeOfWord {w : Word} {x : Fin64} (h : ieeeOfWord w = .fin x) :
    ∃ e f : Nat, f < 2 ^ 52 ∧ w.toNat = (if x.neg then 2 ^ 63 else 0) + (e * 2 ^ 52 + f) ∧
      x.mag = if e = 0 then f else (2 ^ 52 + f) * 2 ^ (e - 1) := by
  refine ⟨(w.extractLsb' 52 11).toNat, (w.extractLsb' 0 52).toNat, (w.extractLsb' 0 52).isLt, ?_⟩
  have hw := word_toNat_eq_fields w
  simp only [ieeeOfWord] at h
  split at h
  · split at h <;> cases h
  · split at h
    · next h0 => cases h; exact ⟨hw, (if_pos h0).symm⟩
    · next h0 => cases h; exact ⟨hw, (if_neg h0).symm⟩

/-- A significand of exactly 53 bits shifted by k has its last place at k. -/
theorem ulpExp_mul_pow {m : Nat} (k : Nat) (hl : 2 ^ 52 ≤ m) (hu : m < 2 ^ 53) : ulpExp (m * 2 ^ k) = k := by
  have hp : 0 < 2 ^ k := Nat.two_pow_pos k
  have h0 : m * 2 ^ k ≠ 0 := Nat.mul_ne_zero (by omega) hp.ne'
  have h1 : 52 + k ≤ (m * 2 ^ k).log2 := by
    rw [Nat.le_log2 h0, Nat.pow_add]
    exact Nat.mul_le_mul_right _ hl
  have h2 : (m * 2 ^ k).log2 < 53 + k := by
    rw [Nat.log2_lt h0, Nat.pow_add]
    exact Nat.mul_lt_mul_of_pos_right hu hp
  unfold ulpExp
  omega

/-- The last place and the truncated significand of a magnitude give back the exponent field and the fraction (R10). -/
theorem packedMag_of_fields {e f M : Nat} (hf : f < 2 ^ 52)
    (hM : M = if e = 0 then f else (2 ^ 52 + f) * 2 ^ (e - 1)) :
    ulpExp M * 2 ^ 52 + M / 2 ^ ulpExp M = e * 2 ^ 52 + f := by
  split at hM
  · next h0 => rw [hM, ulpExp_zero_of_lt (by omega), h0, Nat.pow_zero, Nat.div_one]
  · next h0 =>
    rw [hM, ulpExp_mul_pow (e - 1) (by omega) (by omega), Nat.mul_div_cancel _ (Nat.two_pow_pos _)]
    omega

/-- The pattern of the value of a finite pattern is that pattern (R10). -/
theorem pack_of_ieeeOfWord {w : Word} {x : Fin64} (h : ieeeOfWord w = .fin x) : x.pack = w := by
  obtain ⟨e, f, hf, hw, hM⟩ := fields_of_ieeeOfWord h
  rw [Fin64.pack, packedMag_of_fields hf hM, ← hw, BitVec.ofNat_toNat, BitVec.setWidth_eq]

/-- Two values that patterns stand for and that have one pattern are one value (R10). -/
theorem eq_of_pack_eq {x y : Fin64} (hx : x.Ok) (hy : y.Ok) (h : x.pack = y.pack) : x = y := by
  have hxy : Ieee.fin x = .fin y := by rw [← ieeeOfWord_pack hx, h, ieeeOfWord_pack hy]
  exact Ieee.fin.inj hxy

/-- Settles O4: packing rebuilds the three fields of a finite pattern, and reading a pattern back undoes packing. -/
theorem finitePatternsRoundTrip : Obligations.FinitePatternsRoundTrip :=
  ⟨fun _ _ h => ⟨pack_of_ieeeOfWord h, ok_of_ieeeOfWord h⟩, fun _ _ => eq_of_pack_eq⟩

/-! ## A command run sample by sample (R15) -/

/-- A completed command leaves none in progress (R33, R38). -/
theorem complete_isIdle (s : State) : (complete s).Idle := ⟨rfl, rfl, rfl⟩

/-- The Capacity fault leaves no command in progress (spec/60_exceptions.md R263). -/
theorem raiseCapacity_isIdle (s : State) : (raiseCapacity s).Idle := ⟨rfl, rfl, rfl⟩

/-- Once IDX = N an oscillator command's next step ends it. -/
theorem tick_gen_end {s : State} (hp : s.phase = .gen) (hr : s.running ≠ some .render) (hi : s.idx.toNat = s.n.toNat) :
    tick s = complete s := by
  simp [tick, hp, hr, hi]

/-- Once IDX = N the next step of phase FILT ends the command. -/
theorem tick_filt_end {s : State} (hp : s.phase = .filt) (hi : s.idx.toNat = s.n.toNat) : tick s = complete s := by
  simp [tick, hp, hi]

/-- Finishing an oscillator command from index 0 runs its whole generation loop and completes it (R165, R168). -/
theorem finish_gen {s : State} (hp : s.phase = .gen) (hr : s.running ≠ some .render) (hi : s.idx = 0) :
    finish s = complete (fillDry (runningWave s) s) := by
  have h0 : s.idx.toNat = 0 := by rw [hi]; rfl
  have hn := s.n.isLt
  have ht : ticksLeft s = s.n.toNat + 1 := by simp [ticksLeft, hp, hr, h0]
  rw [finish, ht, repeatStep_succ_last, ticks_gen s _ hp hr (by omega), fillDry]
  refine tick_gen_end (by rw [gen_phase, hp]) (by rw [gen_running]; exact hr) ?_
  rw [gen_idx _ _ _ (by omega), gen_n, h0, Nat.zero_add]

/-- Finishing phase FILT from index 0 runs RENDER's whole filter loop and completes it (R221, R228). -/
theorem finish_filt {s : State} (hp : s.phase = .filt) (hi : s.idx = 0) : finish s = complete (filterDry s) := by
  have h0 : s.idx.toNat = 0 := by rw [hi]; rfl
  have hn := s.n.isLt
  have ht : ticksLeft s = s.n.toNat + 1 := by simp [ticksLeft, hp, h0]
  rw [finish, ht, repeatStep_succ_last, ticks_filt s _ hp (by omega), filterDry]
  refine tick_filt_end (by rw [filt_frame]; exact hp) ?_
  rw [filt_idx _ _ (by omega), filt_frame, h0, Nat.zero_add]

/-- In phase GEN of RENDER, finishing is one step to phase FILT and finishing from there (R223). -/
theorem finish_gen_render {s : State} (hp : s.phase = .gen) (hr : s.running = some .render) :
    finish s = finish (prepareRender s) := by
  have ht : ticksLeft s = ticksLeft (prepareRender s) + 1 := by
    rw [prepareRender_frame]
    simp [ticksLeft, hp, hr]
  rw [finish, ht, repeatStep_succ, tick_gen_render hp hr, finish]

/-- A started buffer command runs to its end, or has ended by the Capacity fault (R162, R263). -/
theorem finish_startBuffer (i : Instr) (s : State) :
    finish (startBuffer i s) =
      if overCapacity (accept i s) then raise .capacity (accept i s) else finish (openBuffer (accept i s)) := by
  simp only [startBuffer]
  split
  · exact finish_idle rfl
  · rfl

/-- An opened oscillator command finishes as its one step does: the loop, then the end (R165, R168). -/
theorem finish_openBuffer_osc {i : Instr} (hi : i ≠ .render) (s : State) :
    finish (openBuffer (accept i s)) =
      complete (fillDry (runningWave (accept i s)) (openBuffer (accept i s))) :=
  finish_gen rfl (fun h => hi (Option.some.inj h)) rfl

/-- An opened RENDER finishes as its one step does: generation, the filter loop, then the end (R221). -/
theorem finish_openBuffer_render (s : State) :
    finish (openBuffer (accept .render s)) =
      complete (filterDry (prepareRender (openBuffer (accept .render s)))) := by
  rw [finish_gen_render rfl rfl]
  exact finish_filt rfl (by rw [prepareRender_frame]; rfl)

/-- A command run sample by sample ends in the state its one step answers (R15). -/
theorem exec_eq_finish_startCommand (i : Instr) (s : State) : exec i s = .next (finish (startCommand i s)) := by
  cases i with
  | oscSaw | oscPulse =>
    rw [startCommand, finish_startBuffer, finish_openBuffer_osc (by decide)]
    rfl
  | render =>
    rw [startCommand, finish_startBuffer, finish_openBuffer_render]
    rfl
  | bqNew | bqSetc | bqStep | bqReset =>
    rw [startCommand, finish_idle rfl]
    rfl

/-- A buffer command run to its end leaves none in progress. -/
theorem finish_startBuffer_isIdle {i : Instr} {s : State} (h : (finish (openBuffer (accept i s))).Idle) :
    (finish (startBuffer i s)).Idle := by
  rw [finish_startBuffer]
  split
  · exact raiseCapacity_isIdle _
  · exact h

/-- A started command run to its end leaves none in progress (R237). -/
theorem finish_startCommand_isIdle (i : Instr) (s : State) : (finish (startCommand i s)).Idle := by
  cases i with
  | oscSaw | oscPulse =>
    refine finish_startBuffer_isIdle ?_
    rw [finish_openBuffer_osc (by decide)]
    exact complete_isIdle _
  | render =>
    refine finish_startBuffer_isIdle ?_
    rw [finish_openBuffer_render]
    exact complete_isIdle _
  | bqNew | bqSetc | bqStep | bqReset =>
    rw [startCommand, finish_idle rfl]
    exact complete_isIdle _

/-- Settles O56: the steps inside a phase are the iterations of the command's own loop, and the last step completes it. -/
theorem sampleStepsRefineTheCommand : Obligations.SampleStepsRefineTheCommand :=
  fun i s _ => ⟨exec_eq_finish_startCommand i s, finish_startCommand_isIdle i s⟩

end Sys2Proof.Machine
end

section
/-! PROOFS of the statements of spec/10_state.md: the invariant of the machine, what a command and a step may change, STATUS
and its sticky bits, the register map, and reset. -/

namespace Sys2Proof.Machine

/-! ## What every part of a step keeps, a step keeps -/

/-- What each step of the sequencer keeps, running a command to its end keeps. -/
theorem finish_induct {P : State → Prop} (htick : ∀ u, P u → P (tick u)) {s : State} (h : P s) : P (finish s) :=
  repeatStep_induct (fun _ => P) h _ fun _ u _ => htick u

/-- The command's one step keeps what its start and each step of the sequencer keep (R15). -/
theorem exec_induct {P : State → Prop} {i : Instr} {s t : State} (h : exec i s = .next t)
    (htick : ∀ u, P u → P (tick u)) (hstart : P (startCommand i s)) : P t := by
  rw [exec_eq_finish_startCommand] at h
  cases h
  exact finish_induct htick hstart

/-- The induction principle of a step: a property that survives taking an access off the list and each thing a step is made
of holds of the next state. Only an access of that kind writes an operand register or resets. -/
theorem step_induct {s t : State} {P : State → Prop} (h : step s = .next t)
    (hpop : P { s with pending := s.pending.tail })
    (htick : ∀ u, P u → P (tick u))
    (hstart : ∀ i u, P u → u.status.busy = false → P (startCommand i u))
    (hillegal : ∀ u, P u → P (raiseIllegal u))
    (hread : ∀ u w k, P u → P { u with rdata := w, draws := k })
    (hwrite : s.status.busy = false → (∃ a w rest, s.pending = .write a w :: rest) →
      ∀ u o, P u → P { u with opr := o })
    (hreset : (∃ rest, s.pending = .reset :: rest) → ∀ u, P u → P (hardReset u)) : P t := by
  rcases step_cases h with ⟨hp, rfl⟩ | ⟨a, rest, hp, hperf⟩
  · have e : s.pending.tail = s.pending := by rw [hp]; rfl
    rw [e] at hpop
    exact htick s hpop
  · rw [hp] at hpop
    change P { s with pending := rest } at hpop
    rcases perform_cases hperf with ⟨w, -, hc⟩ | ⟨addr, w, rfl, -, rfl⟩ | ⟨addr, -, rfl⟩ | ⟨rfl, rfl⟩ | ⟨w, -, rfl⟩ |
      ⟨-, rfl⟩ | ⟨-, rfl⟩
    · rcases commandWrite_cases hc with ⟨-, rfl⟩ | ⟨hb, i, -, hi⟩ | ⟨-, -, rfl⟩
      · exact hpop
      · exact exec_induct hi htick (hstart i _ hpop hb)
      · exact hillegal _ hpop
    · cases hb : s.status.busy
      · rw [busWrite_frame]
        exact hwrite hb ⟨addr, w, rest, hp⟩ _ _ hpop
      · rw [busWrite_busy (s := { s with pending := rest }) hb]
        exact hpop
    · rw [busRead_frame]
      exact hread _ _ _ hpop
    · exact hreset ⟨rest, hp⟩ _ hpop
    · rcases commandStart_cases w { s with pending := rest } with ⟨-, e⟩ | ⟨hb, i, -, e⟩ | ⟨-, -, e⟩ <;> rw [e]
      · exact hpop
      · exact hstart i _ hpop hb
      · exact hillegal _ hpop
    · exact htick _ hpop
    · exact hread _ _ (finish { s with pending := rest }).draws (finish_induct htick hpop)

/-! ## The invariant of the machine -/

/-- The part of the state the invariant speaks of. -/
def State.invPart (s : State) : State :=
  { State.reset with
    params := s.params, dry := s.dry, out := s.out, n := s.n, idx := s.idx, spu := s.spu, phase := s.phase
    running := s.running, status := { s.status with cap := false, illcmd := false } }

/-- The invariant of a state holds of every state that agrees with it on that part. -/
theorem State.Inv.congr {s t : State} (h : s.Inv) (e : t.invPart = s.invPart) : t.Inv := by
  have of_part : ∀ {u : State}, u.invPart.Inv → u.Inv := fun h => { h with }
  have to_part : s.invPart.Inv := { h with }
  exact of_part (e ▸ to_part)

/-- While BUSY = 0 the phase is IDLE (R38). -/
theorem State.Inv.phase_idle {s : State} (h : s.Inv) (hb : s.status.busy = false) : s.phase = .idle := by
  by_contra hp
  rw [h.busyIff.2 hp] at hb
  cases hb

/-- Completing a command keeps the invariant, once an oscillator command has generated all its samples. -/
theorem complete_inv {s : State} (h : s.Inv) (hgen : s.phase = .gen → s.n.toNat ≤ s.idx.toNat) : (complete s).Inv :=
  { h with
    busyIff := by simp
    runningIff := by simp
    notBoth := by simp
    genRuns := by simp
    filtRuns := by simp
    genRender := by simp
    outFilled := by simp
    dryFilled := fun j hj => h.dryFilled j <| by
      simp only [complete_phase, complete_n, reduceCtorEq, if_false] at hj
      split
      · next hp => exact lt_of_lt_of_le hj (hgen hp)
      · exact hj }

/-- The Capacity fault keeps the invariant (spec/60_exceptions.md R263). -/
theorem raiseCapacity_inv {s : State} (h : s.Inv) : (raiseCapacity s).Inv :=
  { h with
    nLe := by simp
    idxLe := by simp
    busyIff := by simp [Status.withCap]
    runningIff := by simp
    notBoth := by simp [Status.withCap]
    genRuns := by simp
    filtRuns := by simp
    genRender := by simp
    dryFilled := by simp [filledTo]
    outFilled := by simp }

/-- Opening the buffer for a buffer command that fits meets the invariant in phase GEN at index 0 (R162). -/
theorem openBuffer_accept_inv {i : Instr} {s : State} (h : s.Inv) (hi : i = .oscSaw ∨ i = .oscPulse ∨ i = .render)
    (hc : overCapacity s = false) : (openBuffer (accept i s)).Inv :=
  { h with
    nLe := by simpa [overCapacity] using hc
    idxLe := by simp
    busyIff := by simp
    runningIff := by simp
    notBoth := by simp
    genRuns := by simpa using hi
    filtRuns := by simp
    genRender := by simp
    dryFilled := by simp [filledTo]
    outFilled := by simp }

/-- Writing word k of a buffer that is written below k extends its written part to k + 1. -/
theorem filledTo_memSet {k : Nat} {m : Memory} (w : Word) (h : filledTo k m) : filledTo (k + 1) (memSet k w m) := by
  intro j hj
  exact memGet_isSome_memSet w ((Nat.lt_succ_iff_lt_or_eq.1 hj).symm.imp_right (h j))

/-- An index below N advances by exactly one. -/
theorem idx_succ_toNat {s : State} (hi : s.idx.toNat < s.n.toNat) : (s.idx + 1).toNat = s.idx.toNat + 1 :=
  count_succ_toNat (by have := s.n.isLt; omega)

/-- A step of an oscillator command's loop keeps the invariant (R165, R168). -/
theorem genSample_inv {w : Waveform} {s : State} (h : s.Inv) (hp : s.phase = .gen) (hr : s.running ≠ some .render)
    (hi : s.idx.toNat < s.n.toNat) : (genSample w s).Inv :=
  { h with
    dryWf := wf_memSet _ _ h.dryWf
    dryBelow := below_memSet _ (lt_of_lt_of_le hi h.nLe) h.dryBelow
    idxLe := by rw [genSample_idx, idx_succ_toNat hi]; exact hi
    genRender := fun _ hr' => absurd hr' hr
    dryFilled := by
      have hd := h.dryFilled
      rw [if_pos hp] at hd
      rw [genSample_phase, if_pos hp, genSample_idx, idx_succ_toNat hi]
      exact filledTo_memSet _ hd
    outFilled := fun hp' => by rw [genSample_phase, hp] at hp'; cases hp' }

/-- The generation of k samples writes every word below k. -/
theorem filledTo_generate (w : Waveform) {k : Nat} (s : State) (hk : k ≤ 2 ^ 32) : filledTo k (generate w k s).dry := by
  intro j hj
  rw [generate_dry w k s hk, if_pos hj]
  rfl

/-- Steps 1 to 3 of RENDER keep the invariant: the whole of DRY below N is written before the filter loop starts (R221). -/
theorem prepareRender_inv {s : State} (h : s.Inv) (hp : s.phase = .gen) (hr : s.running = some .render) :
    (prepareRender s).Inv := by
  have h0 : s.idx = 0 := h.genRender hp hr
  have hbusy : s.status.busy = true := h.busyIff.2 (by simp [hp])
  rw [prepareRender_frame]
  exact
    { h with
      dryWf := generate_dry_wf _ _ _ h.dryWf
      dryBelow := generate_dry_below _ _ h.nLe h.dryBelow
      busyIff := by simp [hbusy]
      runningIff := by simp [hr]
      genRuns := nofun
      filtRuns := fun _ => ⟨hr, one_le_updateInterval _ _⟩
      genRender := nofun
      dryFilled := filledTo_generate _ _ s.n.isLt.le
      outFilled := fun _ => by simp [filledTo, h0] }

/-- A step of RENDER's filter loop keeps the invariant (R228). -/
theorem filterSample_inv {s : State} (h : s.Inv) (hp : s.phase = .filt) (hi : s.idx.toNat < s.n.toNat) :
    (filterSample s).Inv := by
  have hgen : s.phase ≠ .gen := by simp [hp]
  rw [filterSample_frame, filterSample_out]
  exact
    { h with
      outWf := wf_memSet _ _ h.outWf
      outBelow := below_memSet _ (lt_of_lt_of_le hi h.nLe) h.outBelow
      idxLe := by simp only [idx_succ_toNat hi]; exact hi
      genRender := fun hp' => absurd hp' hgen
      dryFilled := by
        have hd := h.dryFilled
        rw [if_neg hgen] at hd ⊢
        exact hd
      outFilled := fun _ => by
        simp only [idx_succ_toNat hi]
        exact filledTo_memSet _ (h.outFilled hp) }

/-- Every step of the sequencer keeps the invariant. -/
theorem tick_inv {s : State} (h : s.Inv) : (tick s).Inv := by
  rcases tick_cases s with ⟨-, e⟩ | ⟨hp, hr, e⟩ | ⟨hp, hr, hi, e⟩ | ⟨-, -, hi, e⟩ | ⟨hp, hi, e⟩ | ⟨hp, -, e⟩ <;> rw [e]
  · exact h
  · exact prepareRender_inv h hp hr
  · exact genSample_inv h hp hr hi
  · exact complete_inv h fun _ => hi
  · exact filterSample_inv h hp hi
  · exact complete_inv h fun hp' => by rw [hp] at hp'; cases hp'

/-- Starting a buffer command keeps the invariant (R162, R263). -/
theorem startBuffer_inv {i : Instr} {s : State} (h : s.Inv) (hi : i = .oscSaw ∨ i = .oscPulse ∨ i = .render) :
    (startBuffer i s).Inv := by
  rcases startBuffer_cases i s with ⟨-, e⟩ | ⟨hc, e⟩ <;> rw [e]
  · exact (raiseCapacity_inv h).congr rfl
  · exact openBuffer_accept_inv h hi hc

/-- Starting a command while BUSY = 0 keeps the invariant: of what it speaks of, a filter command changes DONE alone. -/
theorem startCommand_inv {i : Instr} {s : State} (h : s.Inv) (hb : s.status.busy = false) : (startCommand i s).Inv := by
  cases i with
  | oscSaw => exact startBuffer_inv h (.inl rfl)
  | oscPulse => exact startBuffer_inv h (.inr (.inl rfl))
  | render => exact startBuffer_inv h (.inr (.inr rfl))
  | bqNew | bqSetc | bqStep | bqReset =>
    refine (complete_inv h fun hp => ?_).congr rfl
    rw [h.phase_idle hb] at hp
    cases hp

/-- A state with the reset values and parameters in range meets the invariant (R8, R39). -/
theorem inv_of_invPart_reset {s : State} (hok : s.params.ok = true)
    (e : s.invPart = { State.reset with params := s.params }) : s.Inv := by
  refine State.Inv.congr (s := { State.reset with params := s.params }) ?_ e
  constructor <;> simp [State.reset, hok, Memory.wf, Memory.below, filledTo]

/-- Settles O55, by cases on what the step does: no part of a step breaks the invariant. -/
theorem everyStepKeepsTheInvariant : Obligations.EveryStepKeepsTheInvariant := fun _ _ h hs =>
  step_induct hs (h.congr rfl)
    (fun _ => tick_inv)
    (fun _ _ => startCommand_inv)
    (fun _ hu => hu.congr rfl)
    (fun _ _ _ hu => hu.congr rfl)
    (fun _ _ _ _ hu => hu.congr rfl)
    (fun _ _ hu => inv_of_invPart_reset hu.paramsOk rfl)

/-- Settles O54: the reset values, with NMAX in its range. -/
theorem resetMeetsTheInvariant : Obligations.ResetMeetsTheInvariant :=
  inv_of_invPart_reset rfl rfl

/-! ## The commands -/

/-- The state with CAP and ILLCMD at given values. -/
def State.withSticky (c d : Bool) (s : State) : State :=
  { s with status := { s.status with cap := c, illcmd := d } }

@[simp] theorem withSticky_n (c d : Bool) (s : State) : (s.withSticky c d).n = s.n := rfl
@[simp] theorem withSticky_idx (c d : Bool) (s : State) : (s.withSticky c d).idx = s.idx := rfl
@[simp] theorem withSticky_phase (c d : Bool) (s : State) : (s.withSticky c d).phase = s.phase := rfl
@[simp] theorem withSticky_running (c d : Bool) (s : State) : (s.withSticky c d).running = s.running := rfl

/-- The generation of samples does not see the sticky bits. -/
theorem generate_withSticky (c d : Bool) (w : Waveform) (k : Nat) (s : State) :
    generate w k (s.withSticky c d) = (generate w k s).withSticky c d := by
  induction k with
  | zero => rfl
  | succ k ih =>
    rw [generate, ih]
    rfl

/-- A step of RENDER's filter loop does not see the sticky bits. -/
theorem filterSample_withSticky (c d : Bool) (s : State) :
    filterSample (s.withSticky c d) = (filterSample s).withSticky c d := by
  have ht : isTick (s.withSticky c d) = isTick s := rfl
  unfold filterSample
  rw [ht]
  split <;> rfl

/-- A step of the sequencer does not see the sticky bits, and keeps them (R33, R34). -/
theorem tick_withSticky (c d : Bool) (s : State) : tick (s.withSticky c d) = (tick s).withSticky c d := by
  rcases tick_cases s with ⟨hp, e⟩ | ⟨hp, hr, e⟩ | ⟨hp, hr, hi, e⟩ | ⟨hp, hr, hi, e⟩ | ⟨hp, hi, e⟩ | ⟨hp, hi, e⟩ <;> rw [e]
  · simp [tick, hp]
  · simp only [tick, withSticky_phase, hp, withSticky_running, hr, if_true]
    exact congrArg openFilter (generate_withSticky c d _ _ s)
  · simp only [tick, withSticky_phase, hp, withSticky_running, hr, if_false, withSticky_idx, withSticky_n, hi, if_true]
    rfl
  · simp only [tick, withSticky_phase, hp, withSticky_running, hr, if_false, withSticky_idx, withSticky_n, hi.not_gt]
    rfl
  · simp only [tick, withSticky_phase, hp, withSticky_idx, withSticky_n, hi, if_true, filterSample_withSticky]
  · simp only [tick, withSticky_phase, hp, withSticky_idx, withSticky_n, hi.not_gt, if_false]
    rfl

/-- Running a command to its end does not see the sticky bits, and keeps them. -/
theorem finish_withSticky (c d : Bool) (s : State) : finish (s.withSticky c d) = (finish s).withSticky c d := by
  have h : ∀ k u, repeatStep k tick (State.withSticky c d u) = (repeatStep k tick u).withSticky c d := by
    intro k
    induction k with
    | zero => exact fun _ => rfl
    | succ k ih => intro u; rw [repeatStep_succ, tick_withSticky, ih, repeatStep_succ]
  exact h _ s

/-- The command fills the buffers, and its length is above NMAX: the one way a command sets CAP (R263). -/
def tooLongFor (i : Instr) (s : State) : Bool :=
  (i = .oscSaw || i = .oscPulse || i = .render) && overCapacity s

/-- The start of a buffer command does not see the sticky bits; it keeps ILLCMD, and CAP unless the length is above NMAX. -/
theorem startBuffer_withSticky (c d : Bool) (i : Instr) (s : State) :
    startBuffer i (s.withSticky c d) = (startBuffer i s).withSticky (c || overCapacity s) d := by
  have h : overCapacity (accept i s) = overCapacity s := rfl
  have h' : overCapacity (accept i (s.withSticky c d)) = overCapacity s := rfl
  simp only [startBuffer, h, h']
  cases overCapacity s
  · rw [Bool.or_false]; rfl
  · rw [Bool.or_true]; rfl

/-- The start of a command does not see the sticky bits; it keeps ILLCMD, and CAP unless the length is above NMAX. -/
theorem startCommand_withSticky (c d : Bool) (i : Instr) (s : State) :
    startCommand i (s.withSticky c d) = (startCommand i s).withSticky (c || tooLongFor i s) d := by
  cases i with
  | oscSaw | oscPulse | render => exact startBuffer_withSticky c d _ s
  | bqNew | bqSetc | bqStep | bqReset =>
    rw [show tooLongFor _ s = false from rfl, Bool.or_false]
    rfl

/-- A command does not see the sticky bits; it keeps ILLCMD, and CAP unless the length is above NMAX (R34). -/
theorem exec_withSticky {i : Instr} {s t : State} (c d : Bool) (h : exec i s = .next t) :
    exec i (s.withSticky c d) = .next (t.withSticky (c || tooLongFor i s) d) := by
  rw [exec_eq_finish_startCommand] at h ⊢
  cases h
  rw [startCommand_withSticky, finish_withSticky]

/-- The sticky bits a command leaves (R263). -/
theorem exec_sticky {i : Instr} {s t : State} (h : exec i s = .next t) :
    t.status.cap = (s.status.cap || tooLongFor i s) ∧ t.status.illcmd = s.status.illcmd := by
  have e : Host.Outcome.next t = .next _ := h.symm.trans (exec_withSticky s.status.cap s.status.illcmd h)
  rw [Host.Outcome.next.inj e]
  exact ⟨rfl, rfl⟩

/-- Settles O44: no part of a command reads CAP or ILLCMD, and only the Capacity fault sets one of them. -/
theorem stickyBitsDoNotMatter : Obligations.StickyBitsDoNotMatter :=
  fun _ _ _ c d h => ⟨_, exec_withSticky c d h, rfl, rfl, rfl, rfl, rfl⟩

/-- What the host's side of the state holds: the operand registers, the parameters, the word last read and the coming
accesses. -/
def State.hostSide (s : State) : OperandRegs × Config.Params × Word × List HostAct :=
  (s.opr, s.params, s.rdata, s.pending)

/-- A step of the sequencer leaves the host's side alone (R22). -/
theorem tick_hostSide (s : State) : (tick s).hostSide = s.hostSide := by
  rcases tick_cases s with ⟨-, e⟩ | ⟨-, -, e⟩ | ⟨-, -, -, e⟩ | ⟨-, -, -, e⟩ | ⟨-, -, e⟩ | ⟨-, -, e⟩ <;> rw [e]
  · rw [prepareRender_frame]; rfl
  · rfl
  · rfl
  · rw [filterSample_frame]; rfl
  · rfl

/-- Starting a buffer command leaves all but N, IDX, STATUS and the sequencer's own as it is. -/
theorem startBuffer_frame (i : Instr) (s : State) :
    startBuffer i s =
      { s with
        n := (startBuffer i s).n, idx := 0, status := (startBuffer i s).status, phase := (startBuffer i s).phase
        running := (startBuffer i s).running } := by
  rcases startBuffer_cases i s with ⟨-, e⟩ | ⟨-, e⟩ <;> rw [e] <;> rfl

/-- The start of a command leaves the host's side alone (R22). -/
theorem startCommand_hostSide (i : Instr) (s : State) : (startCommand i s).hostSide = s.hostSide := by
  cases i with
  | oscSaw | oscPulse | render => rw [startCommand, startBuffer_frame]; rfl
  | bqNew | bqSetc | bqStep | bqReset => rfl

/-- A command leaves the host's side alone (R22). -/
theorem exec_hostSide {i : Instr} {s t : State} (h : exec i s = .next t) : t.hostSide = s.hostSide :=
  exec_induct (P := fun u => u.hostSide = s.hostSide) h (fun u hu => (tick_hostSide u).trans hu)
    (startCommand_hostSide i s)

/-- A command sets DONE (R33). -/
theorem exec_done {i : Instr} {s t : State} (h : exec i s = .next t) : t.status.done = true := by
  have osc : ∀ {a b : State}, (if overCapacity s then raiseCapacity a else complete b).status.done = true := by
    intro a b
    split <;> rfl
  rw [exec_eq] at h
  cases h
  cases i with
  | oscSaw | oscPulse | render => exact osc
  | bqNew | bqSetc | bqStep | bqReset => rfl

/-- Settles O39: a command is its start and the sequencer's steps to its end, and neither touches the host's side. -/
theorem everyCommandCompletes : Obligations.EveryCommandCompletes := by
  intro i s
  have h := exec_eq_finish_startCommand i s
  obtain ⟨hcap, hill⟩ := exec_sticky h
  have hidle := finish_startCommand_isIdle i s
  have hhost := exec_hostSide h
  simp only [State.hostSide, Prod.mk.injEq] at hhost
  obtain ⟨hopr, hparams, hrdata, hpending⟩ := hhost
  refine ⟨_, h, hidle, ⟨hidle.2.1, exec_done h⟩, hopr, hparams, hrdata, hpending, hill, fun hc => ?_⟩
  rw [hcap, Bool.or_eq_true] at hc
  refine hc.imp_right fun hl => ?_
  have hover : overCapacity s = true := (Bool.and_eq_true_iff.1 hl).2
  exact of_decide_eq_true hover

/-- What an oscillator command's part of the state leaves out: the filter, YOUT, OUT and SPU. -/
def State.filterSide (s : State) : Coefs × History × Word × Word × Memory × Count :=
  (s.coef, s.hist, s.fs, s.yout, s.out, s.spu)

/-- The oscillator commands leave the filter, YOUT, OUT and SPU alone (R160). -/
theorem exec_osc_filterSide {i : Instr} {s t : State} (hi : i = .oscSaw ∨ i = .oscPulse) (h : exec i s = .next t) :
    t.filterSide = s.filterSide := by
  have run : ∀ (j : Instr) (w : Waveform),
      (if overCapacity s then raiseCapacity (accept j s)
        else complete (fillDry w (openBuffer (accept j s)))).filterSide = s.filterSide := by
    intro j w
    split
    · rfl
    · rw [fillDry, gen_frame]; rfl
  rw [exec_eq] at h
  cases h
  rcases hi with rfl | rfl
  · exact run _ _
  · exact run _ _

/-- A step of the sequencer leaves YOUT alone (R24). -/
theorem tick_yout (s : State) : (tick s).yout = s.yout := by
  rcases tick_cases s with ⟨-, e⟩ | ⟨-, -, e⟩ | ⟨-, -, -, e⟩ | ⟨-, -, -, e⟩ | ⟨-, -, e⟩ | ⟨-, -, e⟩ <;> rw [e]
  · rw [prepareRender_frame]
  · rfl
  · rfl
  · exact filterSample_yout s
  · rfl

/-- RENDER leaves YOUT alone: its samples go to OUT (R24, R228). -/
theorem exec_render_yout {s t : State} (h : exec .render s = .next t) : t.yout = s.yout :=
  exec_induct (P := fun u => u.yout = s.yout) h (fun u hu => (tick_yout u).trans hu)
    (by rw [startCommand, startBuffer_frame])

/-- Settles O40, a command at a time: what a command may not change, its frame says it leaves. -/
theorem commandsKeepToTheirUnit : Obligations.CommandsKeepToTheirUnit := by
  intro i s t h
  cases i with
  | oscSaw | oscPulse =>
    have hf := exec_osc_filterSide (by simp) h
    simp only [State.filterSide, Prod.mk.injEq] at hf
    simp [hf]
  | render => simp [exec_render_yout h]
  | bqNew | bqSetc | bqStep | bqReset =>
    rw [exec_eq] at h
    cases h
    simp [runBqNew, runBqSetc, runBqStep, runBqReset]

/-! ## Steps -/

/-- Settles O38: the next access is a write of CMD, and decoding it gives the command. -/
theorem stepRunsTheDecodedCommand : Obligations.StepRunsTheDecodedCommand := by
  intro s w rest i hp hb hd
  rw [step_of_pending_cons hp]
  simp [perform, cmdAddr, commandWrite, hb, hd]

/-- Where CAP or ILLCMD is set in s, it is set in t. -/
def State.KeepsSticky (s t : State) : Prop :=
  (s.status.cap = true → t.status.cap = true) ∧ (s.status.illcmd = true → t.status.illcmd = true)

/-- The start of a command clears neither sticky bit. -/
theorem startCommand_keepsSticky (i : Instr) (s : State) : s.KeepsSticky (startCommand i s) := by
  have e : startCommand i s = _ := startCommand_withSticky s.status.cap s.status.illcmd i s
  rw [e]
  exact ⟨fun h => by simp [State.withSticky, h], id⟩

/-- A step of the sequencer leaves both sticky bits as they are. -/
theorem tick_keepsSticky (s : State) : s.KeepsSticky (tick s) := by
  have e : tick s = _ := tick_withSticky s.status.cap s.status.illcmd s
  rw [e]
  exact ⟨id, id⟩

theorem State.KeepsSticky.trans {s t u : State} (h : s.KeepsSticky t) (h' : t.KeepsSticky u) : s.KeepsSticky u :=
  ⟨h'.1 ∘ h.1, h'.2 ∘ h.2⟩

/-- A step that is not a reset clears neither sticky bit (R33). -/
theorem step_keepsSticky {s t : State} (h : step s = .next t) (hr : ∀ rest, s.pending ≠ .reset :: rest) :
    s.KeepsSticky t :=
  step_induct (P := s.KeepsSticky) h ⟨id, id⟩
    (fun u hu => hu.trans (tick_keepsSticky u))
    (fun i u hu _ => hu.trans (startCommand_keepsSticky i u))
    (fun _ hu => hu.trans ⟨id, fun _ => rfl⟩)
    (fun _ _ _ hu => hu)
    (fun _ _ _ _ hu => hu)
    (fun ⟨rest, hp⟩ => absurd hp (hr rest))

/-- Settles O43: no part of a step but a reset clears CAP or ILLCMD. -/
theorem onlyResetClearsTheStickyBits : Obligations.OnlyResetClearsTheStickyBits :=
  fun _ _ => step_keepsSticky

/-- A step takes the access it performs off the list of coming accesses, and puts none on it. -/
theorem step_pending {s t : State} (h : step s = .next t) : t.pending = s.pending.tail :=
  step_induct (P := fun u => u.pending = s.pending.tail) h rfl
    (fun u hu => (congrArg (·.2.2.2) (tick_hostSide u)).trans hu)
    (fun i u hu _ => (congrArg (·.2.2.2) (startCommand_hostSide i u)).trans hu)
    (fun _ hu => hu) (fun _ _ _ hu => hu) (fun _ _ _ _ hu => hu) (fun _ _ hu => hu)

/-- A run whose coming accesses hold no reset clears neither sticky bit (R33, R34). -/
theorem run_keepsSticky {k : Nat} {s t : State} (hr : HostAct.reset ∉ s.pending)
    (h : Sys2Proof.core.run k s = .next t) : s.KeepsSticky t := by
  induction k generalizing s with
  | zero =>
    cases h
    exact ⟨id, id⟩
  | succ k ih =>
    simp only [Host.Core.run] at h
    split at h
    · next s' hs =>
      have hr' : HostAct.reset ∉ State.pending s' := by
        rw [step_pending hs]
        exact fun hm => hr (List.mem_of_mem_tail hm)
      exact (step_keepsSticky hs fun rest hp => hr (by simp [hp])).trans (ih hr' h)
    · cases h
    · cases h

/-- Settles O45: a sticky bit set at the start would still be set at the end. -/
theorem successfulRunsNeverFaulted : Obligations.SuccessfulRunsNeverFaulted := by
  intro k s t hr h ⟨_, _, hcap, hill⟩
  obtain ⟨kcap, kill⟩ := run_keepsSticky hr h
  constructor <;> rw [← Bool.not_eq_true]
  · exact fun hc => by simp [kcap hc] at hcap
  · exact fun hi => by simp [kill hi] at hill

/-- Settles O46: every part of a step but a write while BUSY = 0 and a reset leaves the operand registers alone. -/
theorem onlyTheHostWritesOperands : Obligations.OnlyTheHostWritesOperands := by
  intro s t h hne
  by_contra hc
  rw [not_or] at hc
  obtain ⟨hwrite, hreset⟩ := hc
  refine hne (step_induct (P := fun u => u.opr = s.opr) h rfl ?_ ?_ (fun _ hu => hu) (fun _ _ _ hu => hu)
    (fun hb hw => absurd ⟨hb, hw⟩ hwrite) (fun hr => absurd hr hreset))
  · exact fun u hu => (congrArg Prod.fst (tick_hostSide u)).trans hu
  · exact fun i u hu _ => (congrArg Prod.fst (startCommand_hostSide i u)).trans hu

/-- The index does not go back, and ends the command at N: each step of the sequencer in a state that meets the invariant. -/
theorem tick_index {s : State} (h : s.Inv) (hp : s.phase ≠ .idle) :
    (tick s).n = s.n ∧ s.idx.toNat ≤ (tick s).idx.toNat ∧
      if s.phase = .gen ∧ s.running = some .render then s.idx = 0 ∧ (tick s).idx = 0 ∧ (tick s).phase = .filt
      else if s.idx.toNat < s.n.toNat then (tick s).idx.toNat = s.idx.toNat + 1 ∧ (tick s).phase = s.phase
      else (tick s).idx = s.n ∧ (tick s).phase = .idle ∧ (tick s).Ended := by
  have atEnd : s.n.toNat ≤ s.idx.toNat → s.idx = s.n := fun hi => BitVec.eq_of_toNat_eq (le_antisymm h.idxLe hi)
  rcases tick_cases s with ⟨hi, -⟩ | ⟨hp, hr, e⟩ | ⟨hp, hr, hi, e⟩ | ⟨hp, hr, hi, e⟩ | ⟨hp, hi, e⟩ | ⟨hp, hi, e⟩
  · exact absurd hi hp
  · have h0 := h.genRender hp hr
    rw [e, prepareRender_frame]
    simp [hp, hr, h0]
  · rw [e, genSample_n, genSample_idx, genSample_phase, idx_succ_toNat hi]
    simp [hp, hr, hi]
  · simp [e, hp, hr, atEnd hi, State.Ended]
  · rw [e, filterSample_n, filterSample_idx, filterSample_phase, idx_succ_toNat hi]
    simp [hp, hi]
  · simp [e, hp, atEnd hi, State.Ended]

/-- Settles O53: with no access of the host a step is the sequencer's own. -/
theorem indexAdvancesByOne : Obligations.IndexAdvancesByOne := by
  intro s t h hp hpend hs
  rw [step_of_pending_nil hpend] at hs
  cases hs
  exact tick_index h hp

/-! ## The register map -/

section
variable (r : Nat) (w : Word) (o : OperandRegs)

@[simp] theorem oprWrite_mode : (oprWrite r w o).mode = if r = 2 then modeOfWord w else o.mode := by
  unfold oprWrite; split <;> simp_all
@[simp] theorem oprWrite_freq : (oprWrite r w o).freq = if r = 3 then w else o.freq := by
  unfold oprWrite; split <;> simp_all
@[simp] theorem oprWrite_srate : (oprWrite r w o).srate = if r = 4 then w else o.srate := by
  unfold oprWrite; split <;> simp_all
@[simp] theorem oprWrite_dur : (oprWrite r w o).dur = if r = 5 then w else o.dur := by
  unfold oprWrite; split <;> simp_all
@[simp] theorem oprWrite_duty : (oprWrite r w o).duty = if r = 6 then w else o.duty := by
  unfold oprWrite; split <;> simp_all
@[simp] theorem oprWrite_cutoff0 : (oprWrite r w o).cutoff0 = if r = 7 then w else o.cutoff0 := by
  unfold oprWrite; split <;> simp_all
@[simp] theorem oprWrite_q : (oprWrite r w o).q = if r = 8 then w else o.q := by
  unfold oprWrite; split <;> simp_all
@[simp] theorem oprWrite_rate : (oprWrite r w o).rate = if r = 9 then w else o.rate := by
  unfold oprWrite; split <;> simp_all
@[simp] theorem oprWrite_xin : (oprWrite r w o).xin = if r = 10 then w else o.xin := by
  unfold oprWrite; split <;> simp_all

end

/-- Outside the operand registers nothing is written (R35, R36). -/
theorem oprWrite_of_not_operand {r : Nat} (h : r < 2 ∨ 10 < r) (w : Word) (o : OperandRegs) : oprWrite r w o = o := by
  unfold oprWrite
  split
  case h_10 => rfl
  all_goals omega

/-- A register number reads only the operand register it names: writing another one does not change what it reads. -/
theorem regRead_oprWrite_ne {q r : Nat} (h : q ≠ r) (w : Word) (s : State) :
    regRead q { s with opr := oprWrite r w s.opr } = regRead q s := by
  unfold regRead
  split <;> simp [h.symm]

/-- The word an operand register holds after a write: the word, of MODE its low 12 bits (R22, R23). -/
theorem regRead_oprWrite_same {r : Nat} (hl : 2 ≤ r) (hu : r ≤ 10) (w : Word) (s : State) :
    regRead r { s with opr := oprWrite r w s.opr } = if r = 2 then modeWord (modeOfWord w) else w := by
  interval_cases r <;> simp [regRead]

/-- CMD and the reserved register numbers read 0 (R32, R35, R36). -/
theorem regRead_reserved {r : Nat} (h : r = 0 ∨ 0x0C ≤ r ∧ r ≤ 0x0F ∨ 0x1D ≤ r) (s : State) : regRead r s = 0 := by
  unfold regRead
  split
  case h_25 => rfl
  all_goals omega

/-- The word a read of MODE returns is the stored codes (R23). -/
theorem modeWord_toNat (m : BitVec 12) : (modeWord m).toNat = m.toNat := by
  have := m.isLt
  rw [modeWord, BitVec.toNat_setWidth]
  omega

/-- MODE reads back the low 12 bits of the word written (R23, R97). -/
theorem modeWord_modeOfWord_toNat (w : Word) : (modeWord (modeOfWord w)).toNat = w.toNat % 4096 := by
  rw [modeWord_toNat, modeOfWord, BitVec.extractLsb'_toNat, Nat.shiftRight_zero]

/-- The word a count register returns is the count (R29, R91). -/
theorem countWord_toNat (c : Count) : (countWord c).toNat = c.toNat := by
  have := c.isLt
  rw [countWord, BitVec.toNat_setWidth]
  omega

/-- Settles O42: one bit a flag. -/
theorem statusWordLayout : Obligations.StatusWordLayout := by
  have h : ∀ b d c i : Bool, (statusWord ⟨b, d, c, i⟩).toNat =
      (if b then 1 else 0) + (if d then 2 else 0) + (if c then 4 else 0) + (if i then 8 else 0) := by decide
  exact fun ⟨b, d, c, i⟩ => h b d c i

/-- The space and the index of a register's address (R62). -/
theorem addr_of_register {a : Addr} (h : a.toNat < 0x40000000) : addrSpace a = 0 ∧ addrIndex a = a.toNat := by
  rw [addrSpace_eq, addrIndex_eq]
  omega

/-- The step of a write of a register other than CMD while BUSY = 0 (R22, R35). -/
theorem step_write_register {s : State} {a : Addr} {w : Word} {rest : List HostAct}
    (hp : s.pending = .write a w :: rest) (hb : s.status.busy = false) (h0 : a ≠ cmdAddr) (ha : a.toNat < 0x40000000) :
    step s = .next { s with pending := rest, opr := oprWrite a.toNat w s.opr } := by
  obtain ⟨hs, hi⟩ := addr_of_register ha
  rw [step_of_pending_cons hp]
  simp [perform, h0, busWrite, hb, hs, hi]

/-- The step of a read of a register while BUSY = 0 (R21). -/
theorem step_read_register {s : State} {a : Addr} {rest : List HostAct} (hp : s.pending = .read a :: rest)
    (hb : s.status.busy = false) (ha : a.toNat < 0x40000000) :
    step s = .next { s with pending := rest, rdata := regRead a.toNat s } := by
  obtain ⟨hs, hi⟩ := addr_of_register ha
  rw [step_of_pending_cons hp]
  simp only [perform, busRead, hb, Bool.false_eq_true, if_false, readIdle, hs, hi]
  rfl

/-- The number of a register address. -/
theorem register_toNat {r : Nat} (h : r < 64) : (BitVec.ofNat 32 r : Addr).toNat = r := by
  rw [BitVec.toNat_ofNat]; omega

/-- Settles O47: the write changes one operand register, and the read returns what it holds. -/
theorem operandRegistersReadBack : Obligations.OperandRegistersReadBack := by
  intro s r w rest hp hb hl hu
  have hr := register_toNat (r := r) (by omega)
  have h0 : BitVec.ofNat 32 r ≠ cmdAddr := by
    intro h
    rw [h] at hr
    change 0 = r at hr
    omega
  refine ⟨_, _, step_write_register hp hb h0 (by omega), step_read_register rfl hb (by omega), ?_, rfl, fun q _ hq => ?_⟩
  · rw [hr]
    change (regRead r { s with opr := oprWrite r w s.opr }).toNat = _
    rw [regRead_oprWrite_same hl hu]
    split
    · exact modeWord_modeOfWord_toNat w
    · rfl
  · rw [hr]
    exact regRead_oprWrite_ne hq w s

/-- Settles O58: the address names the register, and each register number of the map returns its register. -/
theorem registerReadsFollowTheMap : Obligations.RegisterReadsFollowTheMap := by
  intro s rest hb p hmem hp
  have hmap : p.1 < 64 ∧ (regRead p.1 s).toNat = p.2 := by
    clear hp
    revert p
    simp [regRead, statusWordLayout s.status, hb, modeWord_toNat, countWord_toNat]
  have hr := register_toNat hmap.1
  refine ⟨_, step_read_register hp hb (by omega), rfl, ?_⟩
  rw [hr]
  exact hmap.2

/-- Settles O48: a write outside the operand registers finds none to write, and no register or space 3 reads as 0. -/
theorem readOnlyAndReservedAddresses : Obligations.ReadOnlyAndReservedAddresses := by
  intro s a rest hb
  refine ⟨fun w hp h0 ha => ?_, fun hp ha => ?_⟩
  · by_cases hreg : a.toNat < 0x40000000
    · rw [step_write_register hp hb h0 hreg, oprWrite_of_not_operand (by omega)]
    · have hs : addrSpace a ≠ 0 := by rw [addrSpace_eq]; omega
      rw [step_of_pending_cons hp]
      simp only [perform, if_neg (show a ≠ cmdAddr from h0), busWrite, hb, hs, if_false, Bool.false_eq_true]
  · by_cases hreg : a.toNat < 0x40000000
    · rw [step_read_register hp hb hreg, regRead_reserved (by omega)]
    · have hs : addrSpace a = 3 := by have := a.isLt; rw [addrSpace_eq]; omega
      rw [step_of_pending_cons hp]
      simp [perform, busRead, hb, readIdle, hs]

/-! ## Reset -/

/-- Every register reads 0 at its reset value (R39). -/
theorem regRead_reset (r : Nat) : regRead r State.reset = 0 := by
  unfold regRead
  split <;> rfl

/-- Settles O51: a reset gives every register its reset value, which reads 0. -/
theorem resetLeavesTheResetValues : Obligations.ResetLeavesTheResetValues := by
  refine ⟨⟨regRead_reset, ⟨rfl, rfl, rfl⟩, rfl, rfl, rfl⟩, fun s rest hp => ?_⟩
  exact ⟨_, step_of_pending_cons hp, regRead_reset, ⟨rfl, rfl, rfl⟩, rfl, rfl, rfl⟩

end Sys2Proof.Machine
end

section
/-! PROOFS of the statements of spec/20_memory.md: what a RENDER reads of the memory before it (R69) and the reads of the two
buffers (R62, R66, R67). -/

namespace Sys2Proof.Machine

/-! ## What a RENDER reads (R69) -/

/-- What a RENDER's result depends on: the operands but XIN, the parameters, and which free values come next (R69). -/
def State.renderInput (s : State) : State :=
  { State.reset with opr := { s.opr with xin := 0 }, params := s.params, draws := s.draws }

/-- The part of the state that RENDER's filter loop works on, but for the words of DRY it reads and the words of OUT it writes. -/
def State.renderPart (s : State) : State :=
  { s.renderInput with n := s.n, idx := s.idx, spu := s.spu, fs := s.fs, coef := s.coef, hist := s.hist }

/-- The state at the start of RENDER's filter loop (R221, steps 1 to 3). -/
def renderOpened (s : State) : State :=
  prepareRender (openBuffer (accept .render s))

/-- N of the opened state is the length the input of a RENDER gives (R221). -/
theorem renderOpened_n (s : State) : (renderOpened s).n.toNat = Spec.Length s.renderInput.opr := by
  rw [renderOpened, prepareRender_frame]
  rfl

/-- The filter loop starts at IDX = 0 (R30). -/
theorem renderOpened_idx (s : State) : (renderOpened s).idx.toNat = 0 := by
  rw [renderOpened, prepareRender_frame]
  rfl

/-- A RENDER within capacity is its filter loop, run from the opened state as often as the input of a RENDER says. -/
theorem exec_render_of_fits {s t : State} (hfit : Spec.Length s.renderInput.opr ≤ s.renderInput.params.nmax)
    (h : exec .render s = .next t) :
    t = complete (repeatStep (Spec.Length s.renderInput.opr) filterSample (renderOpened s)) := by
  have hc : overCapacity (accept .render s) = false := decide_eq_false (Nat.not_lt.2 hfit)
  have hrun : exec .render s = .next (complete (filterDry (renderOpened s))) := by
    rw [exec_eq]
    simp only [runRender, hc, Bool.false_eq_true, if_false, renderOpened]
  rw [Host.Outcome.next.inj (h.symm.trans hrun), filterDry, renderOpened_n]

/-- The opened state depends, but for DRY and OUT, on the input of a RENDER only: BQ_NEW's effect discards the filter (R224). -/
theorem renderOpened_renderPart (s : State) :
    (renderOpened s).renderPart = (renderOpened s.renderInput).renderPart := by
  simp only [renderOpened, prepareRender_frame]
  rfl

/-- Below N the opened state's DRY holds the samples of the input of a RENDER (R223). -/
theorem renderOpened_dry (s : State) {j : Nat} (hj : j < Spec.Length s.renderInput.opr) :
    memGet j (renderOpened s).dry =
      some (sampleWord (waveform s.renderInput.opr.mode) s.renderInput.opr (BitVec.ofNat 32 j)
        (s.renderInput.draws + j)) := by
  have hn : Spec.Length s.renderInput.opr ≤ 2 ^ 32 := (bufferLen s.opr).isLt.le
  rw [renderOpened, prepareRender_frame]
  exact (generate_dry _ _ _ hn j).trans (if_pos hj)

/-- One turn of the filter loop on the word x, without the write to OUT: the shift of the history and the advance of IDX. -/
def filterWord (x : Word) (s : State) : State :=
  { shiftHistory x (stepOut x s) s with idx := s.idx + 1 }

/-- A filter step reads its part of the state and the word DRY[IDX], and nothing else (R228). -/
theorem filterSample_renderPart (s : State) :
    (filterSample s).renderPart =
      filterWord (dryWord s s.idx.toNat) (if isTick s.renderPart then updateCoefs s.renderPart else s.renderPart) := by
  have ht : isTick s.renderPart = isTick s := rfl
  rw [ht, filterSample]
  split <;> rfl

/-- The filter loop does not change what DRY reads as. -/
theorem filt_dryWord (k : Nat) (s : State) (i : Nat) : dryWord (repeatStep k filterSample s) i = dryWord s i :=
  repeatStep_keeps (fun t => dryWord t i) (fun t => by simp [dryWord]) k s

/-- k filter steps from IDX = 0 read their part of the state and the first k words of DRY, and nothing else. -/
theorem filt_renderPart {s u : State} (h : s.renderPart = u.renderPart) (h0 : s.idx.toNat = 0) {k : Nat} (hk : k < 2 ^ 32)
    (hd : ∀ i < k, dryWord s i = dryWord u i) :
    (repeatStep k filterSample s).renderPart = (repeatStep k filterSample u).renderPart := by
  induction k with
  | zero => exact h
  | succ k ih =>
    have hpart := ih (by omega) fun i hi => hd i (by omega)
    have hs : (repeatStep k filterSample s).idx.toNat = k := by rw [filt_idx k s (by omega), h0, Nat.zero_add]
    have hu : (repeatStep k filterSample u).idx.toNat = k :=
      (congrArg (fun t : State => t.idx.toNat) hpart).symm.trans hs
    rw [repeatStep_succ_last, repeatStep_succ_last, filterSample_renderPart, filterSample_renderPart, hpart, hs, hu,
      filt_dryWord, filt_dryWord, hd k (by omega)]

/-- The word of OUT that step j of k filter steps from IDX = 0 writes is the Y1 it leaves. -/
theorem filt_out_of_idx_zero {s : State} (h0 : s.idx.toNat = 0) {j k : Nat} (hk : k < 2 ^ 32) (hj : j < k) :
    memGet j (repeatStep k filterSample s).out = some (repeatStep (j + 1) filterSample s).hist.y1 := by
  rw [filt_out k s (by omega), if_pos (by omega), h0, Nat.sub_zero]

/-- With one input of a RENDER, two opened states have one part that the filter loop works on, and one DRY below N. -/
theorem renderOpened_of_input {s u : State} (h : u.renderInput = s.renderInput) :
    (renderOpened s).renderPart = (renderOpened u).renderPart ∧
      ∀ j < Spec.Length s.renderInput.opr, memGet j (renderOpened s).dry = memGet j (renderOpened u).dry ∧
        dryWord (renderOpened s) j = dryWord (renderOpened u) j := by
  refine ⟨by rw [renderOpened_renderPart, ← h, ← renderOpened_renderPart], fun j hj => ?_⟩
  have hs := renderOpened_dry s hj
  have hu := renderOpened_dry u (h ▸ hj)
  rw [h] at hu
  exact ⟨hs.trans hu.symm, by rw [dryWord, dryWord, hs, hu, Option.getD_some, Option.getD_some]⟩

/-- Settles O31: the opened filter and the dry buffer below N are functions of the input of a RENDER, and the filter loop reads
nothing but them. -/
theorem renderForgetsTheOldFilterAndBuffers : Obligations.RenderForgetsTheOldFilterAndBuffers := by
  intro s u t v hopr hparams hdraws hfit ht hv
  have hin : u.renderInput = s.renderInput := by simp only [State.renderInput, hopr, hparams, hdraws]
  obtain rfl := exec_render_of_fits hfit ht
  obtain rfl := exec_render_of_fits (by rw [hin]; exact hfit) hv
  rw [hin]
  obtain ⟨hpart, hdry⟩ := renderOpened_of_input hin
  have hlt : Spec.Length s.renderInput.opr < 2 ^ 32 := (bufferLen s.opr).isLt
  have hn := renderOpened_n s
  generalize Spec.Length s.renderInput.opr = n at *
  have hloop : ∀ k ≤ n, (repeatStep k filterSample (renderOpened s)).renderPart =
      (repeatStep k filterSample (renderOpened u)).renderPart := fun k hk =>
    filt_renderPart hpart (renderOpened_idx s) (by omega) fun i hi => (hdry i (by omega)).2
  have hend := hloop n le_rfl
  refine ⟨(congrArg State.n hend :), (congrArg State.spu hend :), (congrArg State.fs hend :), (congrArg State.coef hend :),
    (congrArg State.hist hend :), fun i hi => ?_⟩
  rw [complete_n, repeatStep_keeps State.n filterSample_n, hn] at hi
  simp only [complete_dry, complete_out, repeatStep_keeps State.dry filterSample_dry,
    filt_out_of_idx_zero (renderOpened_idx _) hlt hi]
  exact ⟨(hdry i hi).1, (congrArg (fun w : State => some w.hist.y1) (hloop (i + 1) hi) :)⟩

/-! ## Reads of the buffers (R62, R66, R67) -/

/-- The space and the index of a buffer word's address (R62). -/
theorem addr_of_buffer (isOut : Bool) {i : Nat} (hi : i < 2 ^ 30) :
    addrSpace (if isOut then outAddr i else dryAddr i) = (if isOut then 2 else 1) ∧
      addrIndex (if isOut then outAddr i else dryAddr i) = i := by
  rw [addrSpace_eq, addrIndex_eq]
  cases isOut
  · simp only [Bool.false_eq_true, if_false, dryAddr, BitVec.toNat_ofNat]
    omega
  · simp only [if_true, outAddr, BitVec.toNat_ofNat]
    omega

/-- The step of a read of a buffer word below NMAX while BUSY = 0: the word written last, or the free value it has held since
reset (R66). -/
theorem step_read_buffer {s : State} {i : Nat} {isOut : Bool} {rest : List HostAct}
    (hp : s.pending = .read (if isOut then outAddr i else dryAddr i) :: rest) (hb : s.status.busy = false)
    (hok : s.params.ok = true) (hi : i < s.params.nmax) :
    step s = .next { s with pending := rest, rdata := if isOut then outWord s i else dryWord s i } := by
  have hmax : s.params.nmax ≤ 2 ^ 30 := by
    rw [Config.Params.ok, Bool.and_eq_true, decide_eq_true_eq, decide_eq_true_eq] at hok
    exact hok.2
  obtain ⟨hspace, hindex⟩ := addr_of_buffer isOut (by omega : i < 2 ^ 30)
  rw [step_of_pending_cons hp]
  simp only [perform, busRead, hb, Bool.false_eq_true, if_false, readIdle, hspace, hindex]
  cases isOut <;> simp only [Bool.false_eq_true, if_false, if_true, hi] <;> rfl

/-- Settles O49: a read changes neither buffer, so the second one gives the same word as the first. -/
theorem bufferReads : Obligations.BufferReads := by
  rintro s i a rest isOut hb hok hi rfl hp
  refine ⟨_, _, _, step_read_buffer hp hb hok hi, step_read_buffer (isOut := isOut) rfl hb hok hi, rfl, rfl, fun v hv => ?_⟩
  cases isOut
  · exact congrArg (Option.getD · _) hv
  · exact congrArg (Option.getD · _) hv

end Sys2Proof.Machine
end

section
/-! PROOFS of the statements of spec/30_encoding.md: the opcode map (R94, R96), the words and bytes of a command (R90, R105) and
the three fields of MODE (R100 to R102). -/

namespace Sys2Proof.Machine

/-! ## The opcode field and the opcode map -/

/-- The opcode field is the word's low four bits (R90). -/
theorem opField_toNat (w : Word) : (opField w).toNat = w.toNat % 16 := by
  simp [opField]

/-- The bits above the opcode field do not reach it (R94). -/
theorem opField_append (ignored : BitVec 60) (op : BitVec 4) : opField (ignored ++ op) = op :=
  BitVec.extractLsb'_append_eq_right

/-- The opcode of a command is its OP of the opcode map (R94). -/
theorem opcode_toNat (i : Instr) : (opcode i).toNat = Spec.OpCode i := by
  cases i <;> rfl

/-- An opcode names a command exactly when it is that command's opcode (R94). -/
theorem commandOf_eq_some_iff {op : BitVec 4} {i : Instr} : commandOf op = some i ↔ op = opcode i := by
  revert op
  cases i <;> decide

/-- An opcode names no command exactly when it is reserved (R96). -/
theorem commandOf_eq_none_iff {op : BitVec 4} : commandOf op = none ↔ op.toNat = 0 ∨ 8 ≤ op.toNat := by
  revert op
  decide

/-! ## Decoding a word -/

/-- The decoder accepts a word as a command exactly when its opcode field is that command's opcode (R94). -/
theorem decode_eq_ok_iff {w : Word} {i : Instr} : decode w = .ok i ↔ opField w = opcode i := by
  rw [← commandOf_eq_some_iff, decode]
  cases commandOf (opField w) <;> simp

/-- The decoder rejects a word exactly when its opcode field names no command (R96). -/
theorem decode_eq_error_iff {w : Word} : (∃ e, decode w = .error e) ↔ commandOf (opField w) = none := by
  rw [decode]
  cases commandOf (opField w) <;> simp

/-! ## The bytes of a word -/

/-- Eight bytes in the order of R64 give back the word they were taken from, and the bytes that follow. -/
theorem wordOfBytes_wordBytes (w : Word) (rest : List Byte) : wordOfBytes (wordBytes w ++ rest) = some (w, rest) := by
  refine congrArg (fun v => some (v, rest)) ?_
  iterate 7 rw [BitVec.extractLsb'_append_extractLsb'_eq_extractLsb' (len₁ := 8) (by rfl)]
  exact BitVec.extractLsb'_eq_self

/-- The bytes of a word decode as the word does (R105). -/
theorem decodeBytes_wordBytes {w : Word} {i : Instr} (h : decode w = .ok i) (rest : List Byte) :
    decodeBytes (wordBytes w ++ rest) = .ok (i, rest) := by
  simp [decodeBytes, wordOfBytes_wordBytes, h]

/-! ## Encoding a command -/

/-- Every command is well formed, and its word and its bytes decode to it (R90, R94, R105). -/
theorem roundTrip (i : Instr) : Laws.RoundTrip.Statement i := by
  cases i
  exacts [Laws.RoundTrip.oscSaw, Laws.RoundTrip.oscPulse, Laws.RoundTrip.bqNew, Laws.RoundTrip.bqSetc,
    Laws.RoundTrip.bqStep, Laws.RoundTrip.bqReset, Laws.RoundTrip.render]

/-- The bytes of a command's word decode to it and leave the bytes that follow (R105). -/
theorem decodeBytes_encodeBytes (i : Instr) (rest : List Byte) : decodeBytes (encodeBytes i ++ rest) = .ok (i, rest) := by
  obtain ⟨-, -, -, -, -, hbytes⟩ := roundTrip i
  exact hbytes rest

/-- A canonical word is the encoding of the command its opcode field names (R90, R94). -/
theorem encode_of_cmdWordWf {w : Word} (h : cmdWordWf w = true) : ∃ i, decode w = .ok i ∧ encode i = w := by
  simp only [cmdWordWf, Bool.and_eq_true, decide_eq_true_eq] at h
  have hop := opField_toNat w
  cases hc : commandOf (opField w) with
  | none =>
    have := commandOf_eq_none_iff.1 hc
    omega
  | some i =>
    have hi := commandOf_eq_some_iff.1 hc
    refine ⟨i, decode_eq_ok_iff.2 hi, BitVec.eq_of_toNat_eq ?_⟩
    rw [encode, ← hi, BitVec.zeroExtend, BitVec.toNat_setWidth]
    omega

/-- Settles O3: a word's bytes rebuild the word, and its opcode field is all that is decoded. -/
theorem decodeAfterEncode : Obligations.DecodeAfterEncode :=
  ⟨fun _ _ => decodeBytes_wordBytes (decode_eq_ok_iff.2 (opField_append _ _)),
    fun i rest _ => decodeBytes_encodeBytes i rest, fun _ => encode_of_cmdWordWf⟩

/-- Settles O2: both outcomes of the decoder are conditions on the opcode field, and that is the word modulo 16. -/
theorem decodeLooksOnlyAtTheOpcode : Obligations.DecodeLooksOnlyAtTheOpcode := by
  refine fun w => ⟨fun i => ?_, ?_⟩
  · rw [decode_eq_ok_iff, ← BitVec.toNat_inj, opField_toNat, opcode_toNat]
  · rw [decode_eq_error_iff, commandOf_eq_none_iff, opField_toNat]

/-- Settles O1: the ten words are evaluated. -/
theorem opcodeTableWordsDecode : Obligations.OpcodeTableWordsDecode := by
  unfold Obligations.OpcodeTableWordsDecode
  decide

/-! ## The fields of MODE (R23) -/

theorem topoField_modeOfFields (topo wave unit : BitVec 4) : topoField (modeOfFields topo wave unit) = topo :=
  (BitVec.extractLsb'_append_eq_of_add_le (by decide)).trans BitVec.extractLsb'_append_eq_right

theorem waveField_modeOfFields (topo wave unit : BitVec 4) : waveField (modeOfFields topo wave unit) = wave :=
  (BitVec.extractLsb'_append_eq_of_add_le (by decide)).trans BitVec.extractLsb'_append_eq_left

theorem unitField_modeOfFields (topo wave unit : BitVec 4) : unitField (modeOfFields topo wave unit) = unit :=
  BitVec.extractLsb'_append_eq_left

/-- Settles O5: each field is what MODE was built from, and each code is looked up in its table. -/
theorem modeFieldsResolve : Obligations.ModeFieldsResolve := by
  intro p topo wave unit
  rw [topology, waveform, decayUnit, topoField_modeOfFields, waveField_modeOfFields, unitField_modeOfFields]
  refine ⟨?_, ?_, ?_⟩
  · revert topo
    decide
  · revert wave
    decide
  · generalize p.unitFallback = d
    cases d <;> revert unit <;> decide

end Sys2Proof.Machine
end

section
/-! PROOFS of the statements of spec/40_numerics.md: rounding to nearest even (R121), the four operations (R121, R140), the
square root (R122), minus and floor (R123), clamp (R126) and counts (R135). -/

namespace Sys2Proof.Machine

/-! ## Rounding to nearest with ties to even (R121) -/

/-- Two different multiples of D lie on D or more together away from any point. -/
theorem le_dist_add_dist {D n c v : Int} (hD : 0 ≤ D) (h : c ≠ n) : D ≤ |n * D - v| + |c * D - v| := by
  have h1 : 1 ≤ |n - c| := Int.one_le_abs (sub_ne_zero.2 h.symm)
  calc D = 1 * D := (one_mul D).symm
    _ ≤ |n - c| * D := mul_le_mul_of_nonneg_right h1 hD
    _ = |(n * D - v) - (c * D - v)| := by rw [sub_sub_sub_cancel_right, ← sub_mul, abs_mul, abs_of_nonneg hD]
    _ ≤ |n * D - v| + |c * D - v| := abs_sub _ _

/-- A multiple of D at most D / 2 away from a point is the nearest one, and D / 2 away if another is equally near. -/
theorem nearest_multiple {D n v : Int} (c : Int) (hD : 0 ≤ D) (h : 2 * |n * D - v| ≤ D) :
    |n * D - v| ≤ |c * D - v| ∧ (c ≠ n → |n * D - v| = |c * D - v| → 2 * |n * D - v| = D) := by
  by_cases hc : c = n
  · exact ⟨by rw [hc], fun hne => absurd hc hne⟩
  · have := le_dist_add_dist (v := v) hD hc
    exact ⟨by omega, fun _ _ => by omega⟩

/-- A rounded magnitude is a count of units of the last place, off by half a unit at most, and even if off by just that. -/
theorem exists_roundMag_eq (num : Nat) {den : Nat} (hd : 0 < den) :
    ∃ n : Nat, roundMag num den = n * 2 ^ ulpExp (num / den) ∧
      2 * |(n * (den * 2 ^ ulpExp (num / den) : Nat) : Int) - num| ≤ (den * 2 ^ ulpExp (num / den) : Nat) ∧
      (2 * |(n * (den * 2 ^ ulpExp (num / den) : Nat) : Int) - num| = (den * 2 ^ ulpExp (num / den) : Nat) → 2 ∣ n) := by
  refine ⟨_, rfl, ?_⟩
  have hD : 0 < den * 2 ^ ulpExp (num / den) := Nat.mul_pos hd (Nat.two_pow_pos _)
  generalize den * 2 ^ ulpExp (num / den) = D at *
  have hr := Nat.mod_lt num hD
  have hdm : (num : Int) = (num / D : Nat) * D + (num % D : Nat) := by exact_mod_cast (Nat.div_add_mod' num D).symm
  rw [hdm]
  generalize num % D = r at *
  generalize num / D = m at *
  split
  · next hup =>
    rw [show ((m + 1 : Nat) * D : Int) - (m * D + r) = D - r by push_cast; ring, abs_of_nonneg (by omega)]
    omega
  · next hdown =>
    rw [sub_add_cancel_left, abs_neg, Nat.abs_cast]
    omega

/-- Rounding is to nearest, and to even on a tie: among the multiples of the last place, whose distances are known; what is
representable but no such multiple lies below 2^52 of them, which is itself no nearer than the rounded one. -/
theorem nearest_roundMag (num : Nat) {den : Nat} (hd : 0 < den) : Spec.Nearest num den (roundMag num den) := by
  refine ⟨roundMag_representable _ _, fun M hM => ?_⟩
  have hcases : 2 ^ ulpExp (num / den) ∣ M ∨
      M < 2 ^ 52 * 2 ^ ulpExp (num / den) ∧ 2 ^ 52 * 2 ^ ulpExp (num / den) ≤ num / den := by
    rcases Nat.eq_zero_or_pos (ulpExp (num / den)) with h0 | hpos
    · rw [h0]; exact Or.inl (one_dvd M)
    · exact (representable_dvd_or_lt hM).imp_right fun h => ⟨h, le_of_ulpExp_pos hpos⟩
  obtain ⟨n, hn, hhalf, heven⟩ := exists_roundMag_eq num hd
  rw [hn, Nat.pow_succ]
  generalize ulpExp (num / den) = k at *
  have scale (c : Nat) : ((c * 2 ^ k : Nat) * den : Int) = c * (den * 2 ^ k : Nat) := by push_cast; ring
  have nearest (c : Nat) := nearest_multiple c (Nat.cast_nonneg _) hhalf
  rw [scale]
  rcases hcases with ⟨c, rfl⟩ | ⟨hlow, hle⟩
  · rw [Nat.mul_comm (2 ^ k) c, scale]
    refine ⟨(nearest c).1, fun hne htie => ?_⟩
    rw [Nat.mul_comm n]
    have hcn : (c : Int) ≠ n := fun h => hne (by rw [Nat.cast_injective h])
    exact Nat.mul_dvd_mul_left _ (heven ((nearest c).2 hcn htie))
  · have hfar : |((2 ^ 52 : Nat) * (den * 2 ^ k : Nat) : Int) - num| < |(M * den : Int) - num| := by
      have h1 : (M * den : Int) < (2 ^ 52 * 2 ^ k : Nat) * den := by exact_mod_cast Nat.mul_lt_mul_of_pos_right hlow hd
      have h2 : ((2 ^ 52 * 2 ^ k : Nat) * den : Int) ≤ num := by exact_mod_cast (Nat.le_div_iff_mul_le hd).1 hle
      rw [← scale, abs_of_nonpos (by omega), abs_of_nonpos (by omega)]
      omega
    have := (nearest (2 ^ 52)).1
    exact ⟨by omega, fun _ _ => by omega⟩

/-- Settles O6: the four operations' rounding is `Spec.Nearest`. -/
theorem roundingIsToNearestEven : Obligations.RoundingIsToNearestEven :=
  fun num _ hd => nearest_roundMag num hd

/-! ## The four operations (R121, R140) -/

/-- A rounded magnitude with a sign is the rounding of the exact one (R121). -/
theorem rounds_ieeeOfMag (neg : Bool) (num : Nat) {den : Nat} (hd : 0 < den) :
    Spec.Rounds neg num den (ieeeOfMag neg (roundMag num den)) :=
  ⟨_, nearest_roundMag num hd, rfl⟩

/-- Minus negates the exact value (R123). -/
theorem negate_toInt (x : Fin64) : x.negate.toInt = -x.toInt := by
  obtain ⟨_ | _, m⟩ := x <;> simp [Fin64.negate, Fin64.toInt]

/-- A sum is an exact zero with the sign of IEEE 754, or the rounding of the exact sum (R121, log 18). -/
theorem finAdd_rounds (x y : Fin64) :
    if x.toInt + y.toInt = 0 then finAdd x y = .fin { neg := x.neg && y.neg, mag := 0 }
      else Spec.Rounds (decide (x.toInt + y.toInt < 0)) (x.toInt + y.toInt).natAbs 1 (finAdd x y) := by
  unfold finAdd
  split
  · next h => exact if_pos h
  · next h => rw [if_neg h]; exact rounds_ieeeOfMag _ _ Nat.one_pos

/-- A product is the rounding of the exact product (R121). -/
theorem finMul_rounds (x y : Fin64) : Spec.Rounds (x.neg ^^ y.neg) (x.mag * y.mag) (2 ^ 1074) (finMul x y) :=
  rounds_ieeeOfMag _ _ oneMag_pos

/-- A quotient by zero has no finite value, any other is the rounding of the exact one (R121, R140). -/
theorem finDiv_rounds (x y : Fin64) :
    if y.mag = 0 then valOfIeee (finDiv x y) = none
      else Spec.Rounds (x.neg ^^ y.neg) (x.mag * 2 ^ 1074) y.mag (finDiv x y) := by
  unfold finDiv
  split
  · split <;> rfl
  · next h => exact rounds_ieeeOfMag _ _ (Nat.pos_of_ne_zero h)

/-- An unspecified first operand makes the result unspecified (R140). -/
theorem arith2_none_left (op : Fin64 → Fin64 → Ieee) (v : Val) : arith2 op none v = none := rfl

/-- An unspecified second operand makes the result unspecified (R140). -/
theorem arith2_none_right (op : Fin64 → Fin64 → Ieee) (v : Val) : arith2 op v none = none := by
  cases v <;> rfl

/-- Settles O57: each operation is its exact result rounded once, and passes an unspecified operand on. -/
theorem theFourOperationsRoundOnce : Obligations.TheFourOperationsRoundOnce :=
  ⟨fun x y => ⟨finAdd_rounds x y, negate_toInt y, finMul_rounds x y, finDiv_rounds x y, rfl, rfl, rfl, rfl, rfl⟩,
    fun v => ⟨arith2_none_left _ v, arith2_none_right _ v, arith2_none_left _ v, arith2_none_right _ v,
      arith2_none_left _ v, arith2_none_right _ v, arith2_none_left _ v, arith2_none_right _ v⟩⟩

/-! ## The square root (R122) -/

/-- Scaled by the even power of two that `sqrtMag` takes, a radicand of at least 2^104 has 105 or 106 bits. -/
theorem sqrt_scaled_bounds {x : Nat} (h : 2 ^ 104 ≤ x) :
    2 ^ 104 ≤ x / 4 ^ (x.log2 / 2 - 52) ∧ x / 4 ^ (x.log2 / 2 - 52) < 2 ^ 106 := by
  have h0 : x ≠ 0 := by omega
  have hlog : 104 ≤ x.log2 := (Nat.le_log2 h0).2 h
  have h4 : 4 ^ (x.log2 / 2 - 52) = 2 ^ (2 * (x.log2 / 2 - 52)) := by rw [Nat.pow_mul]
  have hp : 0 < 2 ^ (2 * (x.log2 / 2 - 52)) := Nat.two_pow_pos _
  rw [h4, Nat.le_div_iff_mul_le hp, Nat.div_lt_iff_lt_mul hp, ← Nat.pow_add, ← Nat.pow_add, ← Nat.le_log2 h0,
    ← Nat.log2_lt h0]
  omega

/-- The root that `sqrtMag` truncates to has 53 bits. -/
theorem sqrtBits_bounds {y : Nat} (hl : 2 ^ 104 ≤ y) (hu : y < 2 ^ 106) :
    2 ^ 52 ≤ sqrtBits 54 y 0 ∧ sqrtBits 54 y 0 < 2 ^ 53 ∧
      sqrtBits 54 y 0 ^ 2 ≤ y ∧ y < (sqrtBits 54 y 0 + 1) ^ 2 := by
  obtain ⟨hle, hlt⟩ := sqrtBits_spec 54 y 0 (by omega) (by omega)
  rw [← Nat.pow_two] at hle hlt
  have h52 : (2 ^ 52) ^ 2 < (sqrtBits 54 y 0 + 1) ^ 2 := by omega
  have h53 : sqrtBits 54 y 0 ^ 2 < (2 ^ 53) ^ 2 := by omega
  exact ⟨Nat.lt_succ_iff.1 (lt_of_pow_lt_pow_left₀ 2 (by omega) h52), lt_of_pow_lt_pow_left₀ 2 (by omega) h53, hle, hlt⟩

/-- A midpoint of two 53-bit magnitudes is no root of a representable one: the odd part of its square has over 53 bits. -/
theorem sq_midpoint_ne {mag m : Nat} (k e : Nat) (hM : Representable mag) (hm : 2 ^ 52 ≤ m) :
    (2 * m + 1) ^ 2 * 4 ^ k ≠ 4 * (mag * 2 ^ e) := by
  obtain ⟨a, j, ha, rfl⟩ := hM
  intro h
  have hodd : Nat.Coprime ((2 * m + 1) ^ 2) (2 ^ (2 + (j + e))) :=
    Nat.Coprime.pow _ _ (Nat.coprime_two_right.2 (odd_two_mul_add_one m))
  have hdvd : (2 * m + 1) ^ 2 ∣ a := hodd.dvd_of_dvd_mul_right ⟨4 ^ k, by rw [h]; ring⟩
  have hpos : 0 < (2 * m + 1) ^ 2 * 4 ^ k := by positivity
  have ha0 : 0 < a := Nat.pos_of_ne_zero fun h0 => by rw [h, h0] at hpos; simp at hpos
  have hle := Nat.le_of_dvd ha0 hdvd
  have hlt : 2 * m + 1 < (2 * m + 1) ^ 2 := lt_self_pow₀ (by omega) (by omega)
  omega

/-- The root of a representable magnitude is a 53-bit count m of units 2^k, or one unit more when the exact root lies above
the midpoint; the exact root is no midpoint. -/
theorem exists_sqrtMag_eq {mag : Nat} (h0 : 0 < mag) (hM : Representable mag) :
    ∃ m k : Nat, 2 ^ 52 ≤ m ∧ m < 2 ^ 53 ∧
      (m * 2 ^ k) ^ 2 ≤ mag * oneMag ∧ mag * oneMag < ((m + 1) * 2 ^ k) ^ 2 ∧
      (sqrtMag mag = m * 2 ^ k ∧ 4 * (mag * oneMag) < ((2 * m + 1) * 2 ^ k) ^ 2 ∨
        sqrtMag mag = (m + 1) * 2 ^ k ∧ ((2 * m + 1) * 2 ^ k) ^ 2 < 4 * (mag * oneMag)) := by
  have hx : 2 ^ 104 ≤ mag * oneMag :=
    (Nat.pow_le_pow_right Nat.two_pos (by omega : 104 ≤ 1074)).trans (Nat.le_mul_of_pos_left oneMag h0)
  obtain ⟨hl, hu⟩ := sqrt_scaled_bounds hx
  obtain ⟨h52, h53, hle, hlt⟩ := sqrtBits_bounds hl hu
  have hne := sq_midpoint_ne ((mag * oneMag).log2 / 2 - 52) 1074 hM h52
  rw [← oneMag] at hne
  refine ⟨_, (mag * oneMag).log2 / 2 - 52, h52, h53, ?_⟩
  unfold sqrtMag
  simp only
  generalize (mag * oneMag).log2 / 2 - 52 = k at *
  generalize mag * oneMag = x at *
  generalize sqrtBits 54 (x / 4 ^ k) 0 = m at *
  have hp : 0 < 4 ^ k := by positivity
  have hsq (c : Nat) : (c * 2 ^ k) ^ 2 = c ^ 2 * 4 ^ k := by rw [Nat.mul_pow, Nat.pow_right_comm]
  rw [hsq, hsq, hsq, ← Nat.pow_two]
  refine ⟨(Nat.le_div_iff_mul_le hp).1 hle, (Nat.div_lt_iff_lt_mul hp).1 hlt, ?_⟩
  split
  · next h => exact Or.inr ⟨rfl, by omega⟩
  · next h => exact Or.inl ⟨rfl, by omega⟩

/-- No representable magnitude lies strictly between two neighbouring 53-bit counts of 2^k. -/
theorem representable_le_or_ge {M m : Nat} (k : Nat) (hM : Representable M) (hm : 2 ^ 52 ≤ m) :
    M ≤ m * 2 ^ k ∨ (m + 1) * 2 ^ k ≤ M := by
  rcases representable_dvd_or_lt (k := k) hM with ⟨c, rfl⟩ | hlow
  · rw [Nat.mul_comm (2 ^ k) c]
    exact (Nat.lt_or_ge m c).symm.imp (Nat.mul_le_mul_right _) (Nat.mul_le_mul_right _)
  · exact Or.inl (hlow.le.trans (Nat.mul_le_mul_right _ hm))

/-- A root is representable (R122). -/
theorem sqrtMag_representable {mag : Nat} (h0 : 0 < mag) (hM : Representable mag) : Representable (sqrtMag mag) := by
  obtain ⟨m, k, -, h53, -, -, ⟨hs, -⟩ | ⟨hs, -⟩⟩ := exists_sqrtMag_eq h0 hM
  · rw [hs]; exact representable_of_le h53.le
  · rw [hs]; exact representable_of_le h53

/-- The midpoint of a root and a representable magnitude on either side of it lies on that side of the exact root (R122). -/
theorem sqrtMag_nearest {mag M : Nat} (h0 : 0 < mag) (hmag : Representable mag) (hM : Representable M) :
    (M < sqrtMag mag → (M + sqrtMag mag) ^ 2 < 4 * (mag * oneMag)) ∧
      (sqrtMag mag < M → 4 * (mag * oneMag) < (M + sqrtMag mag) ^ 2) := by
  obtain ⟨m, k, h52, -, hle, hlt, hs⟩ := exists_sqrtMag_eq h0 hmag
  have hgap := representable_le_or_ge k hM h52
  generalize mag * oneMag = x at *
  have hsq (c : Nat) : (2 * c) ^ 2 = 4 * c ^ 2 := by rw [Nat.mul_pow]
  have hmid : (2 * m + 1) * 2 ^ k = m * 2 ^ k + (m + 1) * 2 ^ k := by ring
  have hnext : m * 2 ^ k < (m + 1) * 2 ^ k := Nat.mul_lt_mul_of_pos_right (Nat.lt_succ_self m) (Nat.two_pow_pos k)
  rw [hmid] at hs
  generalize m * 2 ^ k = lo at *
  generalize (m + 1) * 2 ^ k = hi at *
  rcases hs with ⟨hs, hx⟩ | ⟨hs, hx⟩
  · rw [hs]
    refine ⟨fun h => ?_, fun h => hx.trans_le (Nat.pow_le_pow_left (by omega) 2)⟩
    calc (M + lo) ^ 2 < (2 * lo) ^ 2 := Nat.pow_lt_pow_left (by omega) (by omega)
      _ ≤ 4 * x := by rw [hsq]; omega
  · rw [hs]
    refine ⟨fun h => (Nat.pow_le_pow_left (by omega) 2).trans_lt hx, fun h => ?_⟩
    calc 4 * x < (2 * hi) ^ 2 := by rw [hsq]; omega
      _ ≤ (M + hi) ^ 2 := Nat.pow_le_pow_left (by omega) 2

/-- The root of a zero is that zero (R122, log 18). -/
theorem finSqrt_of_zero {x : Fin64} (h : x.mag = 0) : finSqrt x = .fin x := if_pos h

/-- A negative non-zero value has no root (R122). -/
theorem finSqrt_of_neg {x : Fin64} (h : x.mag ≠ 0) (hneg : x.neg = true) : finSqrt x = .nan := by
  rw [finSqrt, if_neg h, if_pos hneg]

/-- The root of a positive value is positive (R122). -/
theorem finSqrt_of_pos {mag : Nat} (h : 0 < mag) :
    finSqrt { neg := false, mag := mag } = .fin { neg := false, mag := sqrtMag mag } := by
  rw [finSqrt, if_neg h.ne', if_neg Bool.false_ne_true]

/-- Settles O7: the three cases of `finSqrt`, and the root's place between its neighbours. -/
theorem sqrtIsCorrectlyRounded : Obligations.SqrtIsCorrectlyRounded :=
  ⟨fun _ h0 _ hM => ⟨finSqrt_of_pos h0, sqrtMag_representable h0 hM, fun _ => sqrtMag_nearest h0 hM⟩,
    fun _ => ⟨finSqrt_of_zero, finSqrt_of_neg, rfl, rfl⟩⟩

/-! ## Minus and floor (R123) -/

/-- Flipping bit 63 of a pattern negates its value (R123). -/
theorem ieeeOfWord_flip_sign (w : Word) : ieeeOfWord (w ^^^ 0x8000000000000000) = ieeeNeg (ieeeOfWord w) := by
  have hs : (w ^^^ 0x8000000000000000).getLsbD 63 = !w.getLsbD 63 := by
    rw [BitVec.getLsbD_xor]; exact Bool.xor_true _
  have he : (w ^^^ 0x8000000000000000).extractLsb' 52 11 = w.extractLsb' 52 11 := by
    rw [BitVec.extractLsb'_xor]; exact BitVec.xor_zero
  have hf : (w ^^^ 0x8000000000000000).extractLsb' 0 52 = w.extractLsb' 0 52 := by
    rw [BitVec.extractLsb'_xor]; exact BitVec.xor_zero
  unfold ieeeOfWord
  simp only [hs, he, hf]
  split
  · split <;> rfl
  · split <;> rfl

@[simp] theorem toInt_mk_false (m : Nat) : (Fin64.mk false m).toInt = m := rfl

@[simp] theorem toInt_mk_true (m : Nat) : (Fin64.mk true m).toInt = -m := rfl

theorem floor_mk_false (m : Nat) : (Fin64.mk false m).floor = ⟨false, m / oneMag * oneMag⟩ := rfl

theorem floor_mk_true (m : Nat) :
    (Fin64.mk true m).floor = ⟨true, (m + (oneMag - 1)) / oneMag * oneMag⟩ := rfl

/-- The floor rounds the exact value down to a multiple of 1.0 (R123). -/
theorem floor_toInt (x : Fin64) : x.floor.toInt = x.toInt / oneMag * oneMag := by
  have hO := oneMag_pos
  obtain ⟨_ | _, m⟩ := x
  · rw [floor_mk_false, toInt_mk_false, toInt_mk_false, Nat.cast_mul, Int.natCast_ediv]
  · rw [floor_mk_true, toInt_mk_true, toInt_mk_true]
    generalize oneMag = u at *
    have hdm := Nat.div_add_mod' (m + (u - 1)) u
    have hlt := Nat.mod_lt (m + (u - 1)) hO
    have hq : (-(m : Int)) / u = -((m + (u - 1)) / u : Nat) := by
      rw [Int.ediv_eq_iff_of_pos (by omega), neg_mul, ← Nat.cast_mul]
      omega
    rw [hq, neg_mul, Nat.cast_mul]

/-- A floor is the largest multiple of 1.0 that is not above the value (R123). -/
theorem floor_greatest (x : Fin64) {z : Int} (hz : (oneMag : Int) ∣ z) (h : z ≤ x.toInt) : z ≤ x.floor.toInt := by
  have hO : (0 : Int) < oneMag := by exact_mod_cast oneMag_pos
  obtain ⟨c, rfl⟩ := hz
  rw [Int.mul_comm] at h ⊢
  rw [floor_toInt]
  exact Int.mul_le_mul_of_nonneg_right ((Int.le_ediv_iff_mul_le hO).2 h) hO.le

/-- A multiple of 1.0 is its own floor. -/
theorem floor_of_dvd {x : Fin64} (h : oneMag ∣ x.mag) : x.floor = x := by
  have hO := oneMag_pos
  obtain ⟨_ | _, m⟩ := x
  · rw [floor_mk_false, Nat.div_mul_cancel h]
  · rw [floor_mk_true]
    obtain ⟨c, hc⟩ := h
    rw [show m = oneMag * c from hc, Nat.mul_add_div hO, Nat.div_eq_of_lt (Nat.sub_lt hO Nat.one_pos), Nat.add_zero,
      Nat.mul_comm]

/-- A floor is a count of 1.0 no larger than any count that the magnitude does not exceed. -/
theorem exists_floor_mag_eq {x : Fin64} {c : Nat} (h : x.mag ≤ c * oneMag) : ∃ q ≤ c, x.floor.mag = q * oneMag := by
  have hO := oneMag_pos
  obtain ⟨_ | _, m⟩ := x
  · exact ⟨m / oneMag, Nat.div_le_of_le_mul (h.trans_eq (Nat.mul_comm _ _)), rfl⟩
  · refine ⟨_, ?_, rfl⟩
    rw [← Nat.lt_succ_iff, Nat.div_lt_iff_lt_mul hO, Nat.succ_mul]
    generalize oneMag = u at *
    exact Nat.add_lt_add_of_le_of_lt h (Nat.sub_lt hO Nat.one_pos)

/-- A representable magnitude is a multiple of 1.0, or below 2^52. -/
theorem oneMag_dvd_or_lt {M : Nat} (h : Representable M) : oneMag ∣ M ∨ M < 2 ^ 52 * oneMag := by
  unfold oneMag
  exact representable_dvd_or_lt (k := 1074) h

/-- The floor of a finite value is one a pattern stands for (R123: it is exact). -/
theorem floor_ok {x : Fin64} (h : x.Ok) : x.floor.Ok := by
  rcases oneMag_dvd_or_lt h.1 with hdvd | hlt
  · rwa [floor_of_dvd hdvd]
  · obtain ⟨q, hq, hmag⟩ := exists_floor_mag_eq hlt.le
    rw [Fin64.Ok, hmag]
    refine ⟨representable_of_le (hq.trans (Nat.pow_le_pow_right Nat.two_pos (by omega))), ?_⟩
    calc q * oneMag ≤ 2 ^ 52 * oneMag := Nat.mul_le_mul_right _ hq
      _ = 2 ^ (52 + 1074) := by rw [oneMag, Nat.pow_add]
      _ < magLimit := Nat.pow_lt_pow_right Nat.one_lt_two (by omega)

/-- Settles O8: minus flips one bit, and the floor is the Euclidean quotient by 1.0. -/
theorem negationAndFloor : Obligations.NegationAndFloor := by
  intro w x hw
  have hok := ok_of_ieeeOfWord hw
  refine ⟨?_, negate_toInt x, floor_ok hok, ?_, ?_, fun z => floor_greatest x, fun hbig => ?_⟩
  · exact pack_of_ieeeOfWord (by rw [ieeeOfWord_flip_sign, hw, ieeeNeg])
  · rw [floor_toInt]
    exact Int.dvd_mul_left _ _
  · rw [floor_toInt]
    exact Int.ediv_mul_le _ (by exact_mod_cast oneMag_pos.ne')
  · exact floor_of_dvd ((oneMag_dvd_or_lt hok.1).resolve_right (Nat.not_lt.2 hbig))

/-! ## Comparison and clamp (R125, R126) -/

/-- The larger of two finite values, the first of two equal ones (R125). -/
theorem fmax_some (x y : Fin64) : fmax (some x) (some y) = if y.toInt ≤ x.toInt then some x else some y := by
  simp [fmax, Fin64.le, apply_ite some]

/-- The smaller of two finite values, the first of two equal ones (R125). -/
theorem fmin_some (x y : Fin64) : fmin (some x) (some y) = if x.toInt ≤ y.toInt then some x else some y := by
  simp [fmin, Fin64.le, apply_ite some]

/-- Settles O9: the lower bound is taken first, then the upper one. -/
theorem clampTakesTheUpperBoundLast : Obligations.ClampTakesTheUpperBoundLast := by
  intro v lo hi
  rw [clamp, fmax_some]
  by_cases hlo : lo.toInt ≤ v.toInt
  · rw [if_pos hlo, if_neg (not_lt.2 hlo), fmin_some]
    exact ⟨fun _ => by simp only [← not_lt, ite_not], fun h => if_neg (not_le.2 (h.trans_le hlo))⟩
  · rw [if_neg hlo, if_pos (not_le.1 hlo), fmin_some]
    exact ⟨fun h => if_pos h, fun h => if_neg (not_le.2 h)⟩

/-! ## Counts (R135) -/

/-- A value that is not negative counts its quotient by 1.0, up to the largest count (R135). -/
theorem lenOf_toNat_of_nonneg (m : Nat) : (lenOf (.fin ⟨false, m⟩)).toNat = min (m / oneMag) 4294967295 := by
  have h1 := Nat.div_eq_zero_iff_lt (x := m) oneMag_pos
  have hsat := Nat.le_div_iff_mul_le (x := 4294967295) (y := m) oneMag_pos
  simp only [lenOf, Bool.false_eq_true, if_false, ← h1, ← hsat]
  generalize m / oneMag = q
  split
  · next hzero => rw [hzero]; rfl
  · split
    · next hfull => rw [min_eq_right hfull]; rfl
    · rw [BitVec.toNat_ofNat]
      omega

/-- Settles O10: a value that is not negative counts its quotient by 1.0 up to the largest count, any other counts 0. -/
theorem countsAreTruncated : Obligations.CountsAreTruncated := by
  refine ⟨rfl, rfl, rfl, fun x => ?_⟩
  have hO := oneMag_pos
  obtain ⟨_ | _, m⟩ := x
  · rw [toInt_mk_false, ← BitVec.toNat_inj, lenOf_toNat_of_nonneg]
    have h1 := Nat.div_eq_zero_iff_lt (x := m) hO
    have hsat := Nat.le_div_iff_mul_le (x := 4294967295) (y := m) hO
    refine ⟨fun h => ?_, fun h => ?_, fun h h' => ?_⟩
    · rw [h1.2 (by exact_mod_cast h)]; rfl
    · exact min_eq_right (hsat.2 (by exact_mod_cast h))
    · have hlt : m / oneMag < 4294967295 := not_le.1 fun hc => (not_le.2 h') (by exact_mod_cast hsat.1 hc)
      rw [min_eq_left hlt.le]
      exact ⟨by exact_mod_cast Nat.div_mul_le_self m oneMag,
        by exact_mod_cast (Nat.lt_mul_div_succ m hO).trans_eq (Nat.mul_comm _ _)⟩
  · rw [toInt_mk_true]
    generalize oneMag = u at *
    exact ⟨fun _ => rfl, by omega, by omega⟩

end Sys2Proof.Machine
end

section
/-! PROOFS of the statements of spec/41_oscillator.md: the phase (R163), the sawtooth (R164), the length the buffer commands
report (R161), and what OSC_SAW and OSC_PULSE write and read (R165, R168). -/

namespace Sys2Proof.Machine

/-! ## Sums as exact values (R121) -/

/-- An exact integer value rounded once, to nearest with ties to even (R121). -/
def roundInt (s : Int) : Int := s.sign * roundMag s.natAbs 1

/-- A representable value is its own rounding. -/
theorem roundInt_exact {s : Int} (h : Representable s.natAbs) : roundInt s = s := by
  have hexact : roundMag s.natAbs 1 = s.natAbs := by simpa using roundMag_exact Nat.one_pos h
  rw [roundInt, hexact, Int.sign_mul_natAbs]

/-- The rounding of a value that is not negative is not negative. -/
theorem roundInt_nonneg {s : Int} (h : 0 ≤ s) : 0 ≤ roundInt s :=
  mul_nonneg (Int.sign_nonneg_iff.2 h) (Int.natCast_nonneg _)

/-- The magnitude of a rounding is at most the rounded magnitude. -/
theorem natAbs_roundInt_le (s : Int) : (roundInt s).natAbs ≤ roundMag s.natAbs 1 := by
  rw [roundInt, Int.natAbs_mul, Int.natAbs_natCast]
  exact mul_le_of_le_one_left' (by rw [Int.natAbs_sign]; split <;> omega)

theorem representable_oneMag : Representable oneMag := ⟨1, 1074, by norm_num, by rw [Nat.one_mul]; rfl⟩

/-- A magnitude of at most 1.0 is rounded to at most 1.0. -/
theorem roundMag_le_one {m : Nat} (h : m ≤ oneMag) : roundMag m 1 ≤ oneMag :=
  roundMag_le Nat.one_pos representable_oneMag (by rwa [Nat.mul_one])

/-- 1.0 in units of 2^-54. -/
theorem oneMag_eq_mul : oneMag = 2 ^ 54 * 2 ^ 1020 := by rw [oneMag, ← Nat.pow_add]

/-- What is more than 2^-54 below 1.0 is rounded to less than 1.0: half the last place of what lies below 1.0 is 2^-54. -/
theorem roundMag_lt_one {m : Nat} (h : m + 2 ^ 1020 < oneMag) : roundMag m 1 < oneMag := by
  have hulp : 2 ^ ulpExp (m / 1) ≤ 2 * 2 ^ 1020 := by
    rw [← Nat.pow_succ']
    refine Nat.pow_le_pow_right Nat.two_pos ?_
    rw [Nat.div_one, ulpExp]
    by_cases h0 : m = 0
    · rw [h0, Nat.log2_zero]; omega
    · have hlog : m.log2 < 1074 := (Nat.log2_lt h0).2 (by unfold oneMag at h; omega)
      omega
  have herr := (roundMag_error m 1 Nat.one_pos).2
  omega

/-- Rounding does not leave [-1, 1]. -/
theorem natAbs_roundInt_le_one {s : Int} (h : s.natAbs ≤ oneMag) : (roundInt s).natAbs ≤ oneMag :=
  (natAbs_roundInt_le s).trans (roundMag_le_one h)

/-- What is more than 2^-54 below 1.0 is rounded to less than 1.0. -/
theorem roundInt_lt_one {s : Int} (h : s + (2 ^ 1020 : Nat) < oneMag) : roundInt s < oneMag := by
  rcases le_or_gt 0 s with h0 | hneg
  · have hmag := roundMag_lt_one (m := s.natAbs) (by omega)
    have hle := natAbs_roundInt_le s
    omega
  · have hsign : s.sign ≤ 0 := (Int.sign_eq_neg_one_of_neg hneg).trans_le (by decide)
    calc roundInt s ≤ 0 := mul_nonpos_of_nonpos_of_nonneg hsign (Int.natCast_nonneg _)
      _ < oneMag := by exact_mod_cast oneMag_pos

/-- The sum of two values that does not leave [-1, 1] is the exact sum rounded once: it does not overflow (R121). -/
theorem finAdd_of_abs_le_one {x y : Fin64} (h : (x.toInt + y.toInt).natAbs ≤ oneMag) :
    ∃ z : Fin64, valOfIeee (finAdd x y) = some z ∧ z.toInt = roundInt (x.toInt + y.toInt) := by
  have hlt : roundMag (x.toInt + y.toInt).natAbs 1 < magLimit :=
    (roundMag_le_one h).trans_lt (Nat.pow_lt_pow_right Nat.one_lt_two (by omega))
  unfold finAdd
  simp only
  generalize x.toInt + y.toInt = s at *
  split
  · next h0 => exact ⟨_, rfl, by rw [h0]; cases x.neg && y.neg <;> rfl⟩
  · next h0 =>
    rw [ieeeOfMag, if_pos hlt]
    refine ⟨_, rfl, ?_⟩
    rcases lt_or_gt_of_ne h0 with hneg | hpos
    · rw [decide_eq_true hneg, toInt_mk_true, roundInt, Int.sign_eq_neg_one_of_neg hneg, neg_one_mul]
    · rw [decide_eq_false hpos.not_gt, toInt_mk_false, roundInt, Int.sign_eq_one_of_pos hpos, one_mul]

/-! ## The phase (R163) -/

/-- An operation's result is specified only where its operands are (R140). -/
theorem arith2_eq_some {op : Fin64 → Fin64 → Ieee} {a b : Val} {z : Fin64} (h : arith2 op a b = some z) :
    ∃ x y, a = some x ∧ b = some y ∧ valOfIeee (op x y) = some z := by
  cases a with
  | none => cases h
  | some x =>
    cases b with
    | none => cases h
    | some y => exact ⟨x, y, rfl, rfl, h⟩

/-- The value p whose fractional part is the phase (R163). -/
def phaseOperand (o : OperandRegs) (i : Count) : Val := fmul (fdiv (u2f i) (valOf o.srate)) (valOf o.freq)

/-- The phase of a given p (R163). -/
theorem phaseAt_of_operand {o : OperandRegs} {i : Count} {v : Val} (h : phaseOperand o i = v) :
    phaseAt o i = fsub v (ffloor v) := by
  rw [← h]
  rfl

/-- The fractional part of a value, in units of 2^-1074: what lies between it and its floor. -/
def Fin64.frac (x : Fin64) : Nat := (x.toInt % oneMag).toNat

/-- The fractional part is the exact difference of the value and its floor (R123). -/
theorem frac_eq_sub_floor (x : Fin64) : (x.frac : Int) = x.toInt - x.floor.toInt := by
  have hO : (oneMag : Int) ≠ 0 := by exact_mod_cast oneMag_pos.ne'
  rw [Fin64.frac, Int.toNat_of_nonneg (Int.emod_nonneg _ hO), floor_toInt, Int.emod_def, Int.mul_comm]

theorem frac_lt_one (x : Fin64) : x.frac < oneMag := by
  have hO : (0 : Int) < oneMag := by exact_mod_cast oneMag_pos
  exact (Int.toNat_lt_of_ne_zero oneMag_pos.ne').2 (Int.emod_lt_of_pos _ hO)

/-- The part of a representable magnitude below a power of two is representable. -/
theorem representable_mod {M : Nat} (k : Nat) (h : Representable M) : Representable (M % 2 ^ k) := by
  obtain ⟨a, j, ha, rfl⟩ := h
  by_cases hjk : j ≤ k
  · refine ⟨a % 2 ^ (k - j), j, (Nat.mod_le _ _).trans_lt ha, ?_⟩
    rw [← Nat.mul_mod_mul_right, ← Nat.pow_add, Nat.sub_add_cancel hjk]
  · have hdvd : 2 ^ k ∣ a * 2 ^ j := Dvd.dvd.mul_left (pow_dvd_pow 2 (by omega)) a
    rw [Nat.mod_eq_zero_of_dvd hdvd]
    exact representable_zero

/-- A value that is not negative is its magnitude. -/
theorem toInt_eq_mag {x : Fin64} (h : 0 ≤ x.toInt) : x.toInt = x.mag := by
  obtain ⟨_ | _, m⟩ := x
  · rfl
  · rw [toInt_mk_true] at h ⊢
    change -(m : Int) = m
    omega

/-- The fractional part of a value that is not negative is representable (R163: the subtraction is exact). -/
theorem frac_representable {x : Fin64} (hok : x.Ok) (h : 0 ≤ x.toInt) : Representable x.frac := by
  have hfrac : x.frac = x.mag % 2 ^ 1074 := by
    rw [Fin64.frac, toInt_eq_mag h, ← Int.natCast_emod, Int.toNat_natCast, oneMag]
  rw [hfrac]
  exact representable_mod _ hok.1

/-- The fractional part is a multiple of every power of two up to 1.0 that the magnitude is a multiple of. -/
theorem dvd_frac {x : Fin64} {k : Nat} (hk : k ≤ 1074) (h : 2 ^ k ∣ x.mag) : 2 ^ k ∣ x.frac := by
  have hO : 2 ^ k ∣ oneMag := pow_dvd_pow 2 hk
  have hx : x.toInt.natAbs = x.mag := by obtain ⟨_ | _, m⟩ := x <;> simp
  rw [← hx, ← Int.natCast_dvd] at h
  rw [← Int.natCast_dvd_natCast, frac_eq_sub_floor, floor_toInt]
  exact dvd_sub h (Dvd.dvd.mul_left (Int.natCast_dvd_natCast.2 hO) _)

/-- The fractional part of a value between -1.0 and 0.0 is 1.0 less its magnitude. -/
theorem frac_neg_of_lt_one {m : Nat} (h0 : 0 < m) (h : m < oneMag) : (Fin64.mk true m).frac + m = oneMag := by
  have hmod : -(m : Int) % oneMag = oneMag - m := by
    rw [← Int.add_emod_right, Int.emod_eq_of_lt] <;> omega
  rw [Fin64.frac, toInt_mk_true, hmod]
  omega

/-- The fractional part of a negative value of magnitude above 2^-54 is more than 2^-54 below 1.0: from 1.0 on the magnitude,
and with it the fractional part, is a multiple of 2^-52. -/
theorem frac_of_lt_neg {x : Fin64} (hok : x.Ok) (h : x.toInt < -(2 ^ 1020 : Nat)) : x.frac + 2 ^ 1020 < oneMag := by
  obtain ⟨_ | _, m⟩ := x
  · rw [toInt_mk_false] at h; omega
  rw [toInt_mk_true] at h
  have hlt := frac_lt_one ⟨true, m⟩
  rw [oneMag_eq_mul] at hlt ⊢
  have h1022 : 2 ^ 1022 = 4 * 2 ^ 1020 := by rw [← Nat.pow_add 2 2 1020]
  rcases representable_dvd_or_lt (k := 1022) hok.1 with hdvd | hlow
  · obtain ⟨b, hb⟩ := dvd_frac (by omega) hdvd
    rw [h1022] at hb
    have hb52 : b < 2 ^ 52 := Nat.lt_of_mul_lt_mul_left (a := 4 * 2 ^ 1020) (by omega)
    have hnext := Nat.mul_le_mul_left (4 * 2 ^ 1020) hb52
    omega
  · rw [h1022] at hlow
    change m < _ at hlow
    have hsum := frac_neg_of_lt_one (m := m) (by omega) (by rw [oneMag_eq_mul]; omega)
    rw [oneMag_eq_mul] at hsum
    omega

/-- A value less its floor is its fractional part rounded once (R163). -/
theorem sub_floor_eq (p : Fin64) :
    ∃ ph : Fin64, fsub (some p) (ffloor (some p)) = some ph ∧ ph.toInt = roundInt p.frac := by
  have hsum : p.toInt + p.floor.negate.toInt = p.frac := by rw [negate_toInt, frac_eq_sub_floor, sub_eq_add_neg]
  obtain ⟨ph, hph, hval⟩ := finAdd_of_abs_le_one (x := p) (y := p.floor.negate)
    (by rw [hsum, Int.natAbs_natCast]; exact (frac_lt_one p).le)
  exact ⟨ph, hph, by rw [hval, hsum]⟩

/-- Settles O13: the phase is the fractional part of p rounded once, and of a p that is not negative that part is exact. -/
theorem phaseLiesInTheUnitInterval : Obligations.PhaseLiesInTheUnitInterval := by
  refine fun o i => ⟨fun hp => ?_, fun p hp => ?_⟩
  · exact (phaseAt_of_operand hp).trans (arith2_none_left _ _)
  obtain ⟨_, _, -, -, hmul⟩ := arith2_eq_some hp
  have hok := finMul_ok hmul
  obtain ⟨ph, hph, hval⟩ := sub_floor_eq p
  have hfrac := frac_lt_one p
  have hexact : 0 ≤ p.toInt → ph.toInt = p.frac := fun hpos => hval.trans (roundInt_exact (frac_representable hok hpos))
  have h0 : 0 ≤ ph.toInt := hval ▸ roundInt_nonneg (Int.natCast_nonneg _)
  have h1 := natAbs_roundInt_le_one (s := p.frac) (by rw [Int.natAbs_natCast]; exact hfrac.le)
  refine ⟨ph, (phaseAt_of_operand hp).trans hph, hph, h0, by omega, fun hpos => ?_, fun hone => ⟨?_, ?_⟩⟩
  · rw [← frac_eq_sub_floor, hexact hpos]
    exact ⟨by exact_mod_cast hfrac, rfl⟩
  · by_contra hneg
    have := hexact (not_lt.1 hneg)
    omega
  · by_contra hbelow
    have hsmall : p.frac + 2 ^ 1020 < oneMag := frac_of_lt_neg hok (by exact_mod_cast not_le.1 hbelow)
    have := roundInt_lt_one (s := p.frac) (by exact_mod_cast hsmall)
    omega

/-! ## The sawtooth (R164) -/

theorem cOne_eq : cOne = some ⟨false, oneMag⟩ := by decide +kernel

theorem cMinusOne_eq : cMinusOne = some ⟨true, oneMag⟩ := by decide +kernel

theorem cTwo_eq : cTwo = some ⟨false, 2 * oneMag⟩ := by decide +kernel

theorem representable_two_mul {M : Nat} (h : Representable M) : Representable (2 * M) := by
  obtain ⟨a, j, ha, rfl⟩ := h
  exact ⟨a, j + 1, ha, by rw [Nat.pow_succ]; ring⟩

theorem toInt_mk_two_mul (x : Fin64) : (Fin64.mk x.neg (2 * x.mag)).toInt = 2 * x.toInt := by
  obtain ⟨_ | _, m⟩ := x <;> simp

/-- Doubling a value of magnitude up to 1.0 is exact. -/
theorem finMul_two {x : Fin64} (hx : Representable x.mag) (h : x.mag ≤ oneMag) :
    finMul ⟨false, 2 * oneMag⟩ x = .fin ⟨x.neg, 2 * x.mag⟩ := by
  have hlt : 2 * x.mag < magLimit :=
    calc 2 * x.mag ≤ 2 ^ 1075 := by rw [Nat.pow_succ']; exact Nat.mul_le_mul_left 2 h
      _ < magLimit := Nat.pow_lt_pow_right Nat.one_lt_two (by omega)
  rw [finMul, Nat.mul_right_comm, roundMag_exact oneMag_pos (representable_two_mul hx), ieeeOfMag, if_pos hlt,
    Bool.false_xor]

/-- The sawtooth sample of a phase in [0, 1] is 2.0 times the phase less 1.0, rounded once: the doubling is exact (R164). -/
theorem saw_of_unit {ph : Fin64} (hok : ph.Ok) (h0 : 0 ≤ ph.toInt) (h1 : ph.toInt ≤ oneMag) :
    ∃ y : Fin64, fsub (fmul cTwo (some ph)) cOne = some y ∧ y.toInt = roundInt (2 * ph.toInt - oneMag) := by
  have hmag := toInt_eq_mag h0
  have htwo : fmul cTwo (some ph) = some ⟨ph.neg, 2 * ph.mag⟩ := by
    rw [cTwo_eq, fmul, arith2, finMul_two hok.1 (by omega), valOfIeee]
  have hsum : (Fin64.mk ph.neg (2 * ph.mag)).toInt + (Fin64.mk false oneMag).negate.toInt = 2 * ph.toInt - oneMag := by
    rw [toInt_mk_two_mul, negate_toInt, toInt_mk_false, sub_eq_add_neg]
  have hsaw := finAdd_of_abs_le_one (x := ⟨ph.neg, 2 * ph.mag⟩) (y := (Fin64.mk false oneMag).negate)
    (by rw [hsum]; omega)
  rw [hsum] at hsaw
  rw [htwo, cOne_eq]
  exact hsaw

/-- A value is not negative when its sign is positive or it is a zero. -/
theorem toInt_nonneg_iff {x : Fin64} : 0 ≤ x.toInt ↔ x.neg = false ∨ x.mag = 0 := by
  obtain ⟨_ | _, m⟩ := x <;> simp

/-- A rounded result is not negative when its sign is positive or the exact result is zero. -/
theorem nonneg_of_ieeeOfMag {neg : Bool} {num den : Nat} {z : Fin64} (hd : 0 < den) (h : neg = false ∨ num = 0)
    (hz : valOfIeee (ieeeOfMag neg (roundMag num den)) = some z) : 0 ≤ z.toInt := by
  obtain ⟨rfl, -⟩ := ok_of_ieeeOfMag (roundMag_representable _ _) hz
  refine toInt_nonneg_iff.2 (h.imp_right ?_)
  rintro rfl
  simpa using roundMag_exact hd representable_zero

/-- The product of two values that are not negative is not negative. -/
theorem finMul_nonneg {x y z : Fin64} (hx : 0 ≤ x.toInt) (hy : 0 ≤ y.toInt) (h : valOfIeee (finMul x y) = some z) :
    0 ≤ z.toInt := by
  refine nonneg_of_ieeeOfMag oneMag_pos ?_ h
  rcases toInt_nonneg_iff.1 hx with hx | hx <;> rcases toInt_nonneg_iff.1 hy with hy | hy <;> simp [hx, hy]

/-- The quotient of two values that are not negative is not negative. -/
theorem finDiv_nonneg {x y z : Fin64} (hx : 0 ≤ x.toInt) (hy : 0 ≤ y.toInt) (h : valOfIeee (finDiv x y) = some z) :
    0 ≤ z.toInt := by
  have hy0 : y.mag ≠ 0 := by
    intro h0
    have hnone := finDiv_rounds x y
    rw [if_pos h0, h] at hnone
    cases hnone
  rw [finDiv, if_neg hy0] at h
  refine nonneg_of_ieeeOfMag (Nat.pos_of_ne_zero hy0) ?_ h
  rcases toInt_nonneg_iff.1 hx with hx | hx <;> simp [hx, (toInt_nonneg_iff.1 hy).resolve_right hy0]

/-- The sawtooth sample of a specified phase is specified (R164). -/
theorem sawAt_of_phase {o : OperandRegs} {i : Count} {ph : Fin64} (h : phaseAt o i = some ph) :
    ∃ y : Fin64, sawAt o i = some y ∧ y.toInt = roundInt (2 * ph.toInt - oneMag) := by
  obtain ⟨p, _, hp, -, hadd⟩ := arith2_eq_some h
  obtain ⟨ph', hph', -, h0, h1, -⟩ := (phaseLiesInTheUnitInterval o i).2 p hp
  cases h.symm.trans hph'
  rw [sawAt, h]
  exact saw_of_unit (finAdd_ok hadd) h0 h1

/-- Only -m itself has the exact value of -m, m above zero. -/
theorem eq_of_toInt_eq_neg {x : Fin64} {m : Nat} (hm : 0 < m) (h : x.toInt = -m) : x = ⟨true, m⟩ := by
  obtain ⟨_ | _, k⟩ := x
  · rw [toInt_mk_false] at h; omega
  · rw [toInt_mk_true] at h
    rw [show k = m by omega]

/-- Where the phase is a zero the sawtooth sample is -1.0 (R164). -/
theorem sawAt_of_phase_zero {o : OperandRegs} {i : Count} {ph : Fin64} (h : phaseAt o i = some ph) (h0 : ph.toInt = 0) :
    sawAt o i = cMinusOne := by
  obtain ⟨y, hy, hval⟩ := sawAt_of_phase h
  have hexact : roundInt (-oneMag) = -oneMag := roundInt_exact (by rw [Int.natAbs_neg]; exact representable_oneMag)
  rw [h0, mul_zero, zero_sub, hexact] at hval
  rw [hy, cMinusOne_eq, eq_of_toInt_eq_neg oneMag_pos hval]

/-- For FREQ and SRATE that are not negative p is not negative (R163). -/
theorem phaseOperand_nonneg {o : OperandRegs} {i : Count} {p : Fin64} (hfreq : finiteWith (0 ≤ ·) o.freq)
    (hsrate : finiteWith (0 ≤ ·) o.srate) (h : phaseOperand o i = some p) :
    0 ≤ p.toInt := by
  obtain ⟨f, hf, hf0⟩ := hfreq
  obtain ⟨r, hr, hr0⟩ := hsrate
  obtain ⟨t, f', ht, hf', hp⟩ := arith2_eq_some h
  obtain ⟨n, r', hn, hr', hdiv⟩ := arith2_eq_some ht
  cases hf.symm.trans hf'
  cases hr.symm.trans hr'
  cases hn
  exact finMul_nonneg (finDiv_nonneg (Int.natCast_nonneg _) hr0 hdiv) hf0 hp

/-- A representable magnitude below 1.0 is at least 2^-53 below it. -/
theorem representable_lt_one {M : Nat} (hM : Representable M) (h : M < oneMag) : M + 2 * 2 ^ 1020 ≤ oneMag := by
  have hgap := representable_le_or_ge (m := 2 ^ 53 - 1) 1021 hM (by omega)
  have h1021 : 2 ^ 1021 = 2 * 2 ^ 1020 := by rw [← Nat.pow_succ']
  rw [h1021] at hgap
  rw [oneMag_eq_mul] at h ⊢
  omega

/-- Where FREQ and SRATE are not negative, a specified phase is at least 2^-53 below 1.0 (R163). -/
theorem phaseAt_gap {o : OperandRegs} {i : Count} {ph : Fin64} (hfreq : finiteWith (0 ≤ ·) o.freq)
    (hsrate : finiteWith (0 ≤ ·) o.srate) (h : phaseAt o i = some ph) :
    0 ≤ ph.toInt ∧ ph.toInt + (2 * 2 ^ 1020 : Nat) ≤ oneMag := by
  obtain ⟨p, _, hp, -, hadd⟩ := arith2_eq_some h
  obtain ⟨ph', hph', -, h0, -, hbelow, -⟩ := (phaseLiesInTheUnitInterval o i).2 p hp
  cases h.symm.trans hph'
  obtain ⟨hlt, -⟩ := hbelow (phaseOperand_nonneg hfreq hsrate hp)
  rw [toInt_eq_mag h0] at hlt ⊢
  exact ⟨Int.natCast_nonneg _, by exact_mod_cast representable_lt_one (finAdd_ok hadd).1 (by exact_mod_cast hlt)⟩

/-- Settles O14: twice a phase that is at least 2^-53 below 1.0, less 1.0, is far enough below 1.0 not to be rounded up to it. -/
theorem sawtoothStaysBelowOne : Obligations.SawtoothStaysBelowOne := by
  refine fun o i => ⟨rfl, fun ph => sawAt_of_phase_zero, fun y hfreq hsrate hy => ?_⟩
  obtain ⟨_, _, htwo, -, -⟩ := arith2_eq_some hy
  obtain ⟨_, ph, -, hph, -⟩ := arith2_eq_some htwo
  obtain ⟨h0, hgap⟩ := phaseAt_gap hfreq (hsrate.imp fun _ h => h.imp_right le_of_lt) hph
  obtain ⟨y', hy', hval⟩ := sawAt_of_phase hph
  cases hy.symm.trans hy'
  have hp := Nat.two_pow_pos 1020
  have hlow := natAbs_roundInt_le_one (s := 2 * ph.toInt - oneMag) (by omega)
  have hhigh := roundInt_lt_one (s := 2 * ph.toInt - oneMag) (by omega)
  omega

/-! ## The buffer commands and their length (R161, R222) -/

/-- Capacity is exceeded when the length of the buffer is above NMAX (R161, R263). -/
theorem overCapacity_iff (s : State) : overCapacity s = true ↔ s.params.nmax < Spec.Length s.opr :=
  decide_eq_true_iff

/-- A buffer command ends in the Capacity fault, or runs from its opened buffer to its end (R162, R263). -/
theorem exec_buffer {i : Instr} (hi : i = .oscSaw ∨ i = .oscPulse ∨ i = .render) (s : State) :
    exec i s = .next (if overCapacity s then Spec.CapacityFaulted s else finish (openBuffer (accept i s))) := by
  have hstart : startCommand i s = startBuffer i s := by rcases hi with rfl | rfl | rfl <;> rfl
  rw [exec_eq_finish_startCommand, hstart, finish_startBuffer]
  rfl

/-- A buffer command whose length is above NMAX ends in the Capacity fault (R263). -/
theorem exec_of_overlong {i : Instr} {s : State} (hi : i = .oscSaw ∨ i = .oscPulse ∨ i = .render)
    (hlong : s.params.nmax < Spec.Length s.opr) : exec i s = .next (Spec.CapacityFaulted s) := by
  rw [exec_buffer hi, if_pos ((overCapacity_iff s).2 hlong)]

/-- The oscillator command of a waveform: the pulse's or the sawtooth's. -/
def oscCommand (pulse : Bool) : Instr := if pulse then .oscPulse else .oscSaw

/-- The waveform an oscillator command generates, whatever MODE holds (R172). -/
def oscWave (pulse : Bool) : Waveform := if pulse then .pulse else .sawtooth

theorem oscCommand_isBuffer (pulse : Bool) :
    oscCommand pulse = .oscSaw ∨ oscCommand pulse = .oscPulse ∨ oscCommand pulse = .render := by
  cases pulse <;> decide

/-- Filling an opened buffer generates as many samples as the length and leaves IDX there (R162, R165). -/
theorem fillDry_openBuffer (w : Waveform) (s : State) :
    fillDry w (openBuffer s) =
      { openBuffer s with
        idx := bufferLen s.opr, dry := (generate w (bufferLen s.opr).toNat (openBuffer s)).dry
        draws := s.draws + (bufferLen s.opr).toNat } := by
  rw [fillDry, gen_eq_generate _ _ _ rfl, count_ofNat_toNat, generate_frame]
  rfl

/-- The next state t of an oscillator command that fits, from s: N and IDX agree, words of DRY and free values are taken, the
command has completed, and everything else is as before (R33, R165, R168). -/
def OscFrame (s t : State) : Prop :=
  t = { s with
    n := t.n, idx := t.n, dry := t.dry, draws := t.draws, phase := .idle, running := none
    status := { s.status with busy := false, done := true } }

/-- An oscillator command whose length fits leaves N and IDX at the length and the samples below N (R165, R168). -/
theorem exec_osc_of_fits (pulse : Bool) {s : State} (hfit : Spec.Length s.opr ≤ s.params.nmax) :
    ∃ t, exec (oscCommand pulse) s = .next t ∧ OscFrame s t ∧ t.n.toNat = Spec.Length s.opr ∧
      ∀ j : Nat, memGet j t.dry =
        if j < Spec.Length s.opr then some (sampleWord (oscWave pulse) s.opr (BitVec.ofNat 32 j) (s.draws + j))
        else memGet j s.dry := by
  have hwave : runningWave (accept (oscCommand pulse) s) = oscWave pulse := by cases pulse <;> rfl
  rw [exec_buffer (oscCommand_isBuffer pulse), if_neg ((overCapacity_iff s).not.2 hfit.not_gt),
    finish_openBuffer_osc (by cases pulse <;> decide), hwave, fillDry_openBuffer]
  exact ⟨_, rfl, rfl, rfl, generate_dry _ _ (openBuffer (accept (oscCommand pulse) s)) (bufferLen s.opr).isLt.le⟩

/-- A RENDER that fits leaves N and IDX at the length (R222). -/
theorem exec_render_length {s t : State} (hfit : Spec.Length s.opr ≤ s.params.nmax) (h : exec .render s = .next t) :
    t.idx = t.n ∧ t.n.toNat = Spec.Length s.opr := by
  obtain rfl := exec_render_of_fits hfit h
  have hlt : Spec.Length s.opr < 2 ^ 32 := (bufferLen s.opr).isLt
  have hn : (repeatStep (Spec.Length s.opr) filterSample (renderOpened s)).n.toNat = Spec.Length s.opr := by
    rw [repeatStep_keeps State.n filterSample_n]
    exact renderOpened_n s
  have hidx : (repeatStep (Spec.Length s.opr) filterSample (renderOpened s)).idx.toNat = Spec.Length s.opr := by
    rw [filt_idx _ _ (by rw [renderOpened_idx]; omega), renderOpened_idx, Nat.zero_add]
  exact ⟨BitVec.eq_of_toNat_eq (hidx.trans hn.symm), hn⟩

/-- A buffer command ends with IDX = N, the length of the buffer, or 0 when that is above NMAX (R161, R222, R263). -/
theorem exec_buffer_length {i : Instr} {s t : State} (hi : i = .oscSaw ∨ i = .oscPulse ∨ i = .render)
    (h : exec i s = .next t) :
    t.idx = t.n ∧ t.n.toNat = if Spec.Length s.opr ≤ s.params.nmax then Spec.Length s.opr else 0 := by
  split
  · next hfit =>
    have osc (pulse : Bool) (h : exec (oscCommand pulse) s = .next t) : t.idx = t.n ∧ t.n.toNat = Spec.Length s.opr := by
      obtain ⟨u, hu, hframe, hn, -⟩ := exec_osc_of_fits pulse hfit
      cases hu.symm.trans h
      exact ⟨congrArg State.idx hframe, hn⟩
    rcases hi with rfl | rfl | rfl
    · exact osc false h
    · exact osc true h
    · exact exec_render_length hfit h
  · next hlong =>
    cases (exec_of_overlong hi (not_le.1 hlong)).symm.trans h
    exact ⟨rfl, rfl⟩

/-- Settles O15: each command's N is a function of the length and NMAX, and the length is one of SRATE and DUR. -/
theorem bufferCommandsAgreeOnTheLength : Obligations.BufferCommandsAgreeOnTheLength := by
  intro i j s u t v hi hj hsrate hdur hnmax ht hv
  obtain ⟨hidx, hn⟩ := exec_buffer_length hi ht
  obtain ⟨hidx', hn'⟩ := exec_buffer_length hj hv
  have hlen : Spec.Length u.opr = Spec.Length s.opr := by rw [Spec.Length, Spec.Length, hsrate, hdur]
  rw [hlen, ← hnmax] at hn'
  exact ⟨BitVec.eq_of_toNat_eq (hn.trans hn'.symm), hidx, hidx', hn⟩

/-! ## The samples of the oscillator commands (R165, R168) -/

/-- The word of a sample is one the spec allows (R164, R167; log 6). -/
theorem sample_sampleWord (pulse : Bool) (o : OperandRegs) (i k : Nat) :
    Spec.Sample o pulse i (sampleWord (oscWave pulse) o (BitVec.ofNat 32 i) k) := by
  cases pulse
  · intro x hx
    change sawAt o (BitVec.ofNat 32 i) = some x at hx
    change orFree (sawAt o (BitVec.ofNat 32 i)) k = x.pack
    rw [hx, orFree]
  · refine ⟨_, rfl, fun x d hx hd => ?_⟩
    change phaseAt o (BitVec.ofNat 32 i) = some x at hx
    change dutyOf o = some d at hd
    rw [pulseHigh, hx, hd]
    rfl

/-- What an oscillator command does from every state: the Capacity fault, or the samples of its waveform in DRY. -/
theorem exec_osc (pulse : Bool) (s : State) :
    (s.params.nmax < Spec.Length s.opr → exec (oscCommand pulse) s = .next (Spec.CapacityFaulted s)) ∧
      (Spec.Length s.opr ≤ s.params.nmax →
        ∃ t, exec (oscCommand pulse) s = .next t ∧ OscFrame s t ∧ t.n.toNat = Spec.Length s.opr ∧
          ∀ i : Nat,
            if i < Spec.Length s.opr then ∃ w, memGet i t.dry = some w ∧ Spec.Sample s.opr pulse i w
            else memGet i t.dry = memGet i s.dry) := by
  refine ⟨exec_of_overlong (oscCommand_isBuffer pulse), fun hfit => ?_⟩
  obtain ⟨t, ht, hframe, hn, hdry⟩ := exec_osc_of_fits pulse hfit
  refine ⟨t, ht, hframe, hn, fun i => ?_⟩
  rw [hdry]
  split
  · exact ⟨_, rfl, sample_sampleWord pulse s.opr i _⟩
  · rfl

/-- Settles O11: the loop writes the sawtooth's samples. -/
theorem oscSawWritesTheSawtooth : Obligations.OscSawWritesTheSawtooth := exec_osc false

/-- Settles O12: the loop writes the pulse's samples, each one of the two levels. -/
theorem oscPulseWritesThePulse : Obligations.OscPulseWritesThePulse := exec_osc true

/-- A sample reads FREQ, SRATE and, of the pulse, DUTY, and no other operand (R163, R166). -/
theorem sampleWord_congr {pulse : Bool} {o o' : OperandRegs} (hfreq : o.freq = o'.freq) (hsrate : o.srate = o'.srate)
    (hduty : pulse = true → o.duty = o'.duty) (i : Count) (k : Nat) :
    sampleWord (oscWave pulse) o i k = sampleWord (oscWave pulse) o' i k := by
  have hphase : phaseAt o i = phaseAt o' i := by simp only [phaseAt, hfreq, hsrate]
  cases pulse
  · simp only [oscWave, Bool.false_eq_true, if_false, sampleWord, sawAt, hphase]
  · simp only [oscWave, if_true, sampleWord, pulseHigh, dutyOf, hphase, hduty rfl]

/-- Below N the words an oscillator command leaves in DRY are its samples. -/
theorem exec_osc_dry {pulse : Bool} {s t : State} (h : exec (oscCommand pulse) s = .next t) {k : Nat} (hk : k < t.n.toNat) :
    memGet k t.dry = some (sampleWord (oscWave pulse) s.opr (BitVec.ofNat 32 k) (s.draws + k)) := by
  obtain ⟨-, hlen⟩ := exec_buffer_length (oscCommand_isBuffer pulse) h
  split at hlen
  · next hfit =>
    obtain ⟨u, hu, -, -, hdry⟩ := exec_osc_of_fits pulse hfit
    cases hu.symm.trans h
    rw [hdry, if_pos (hlen ▸ hk)]
  · omega

/-- Settles O16: below N the words are samples, which read only the operands named. -/
theorem oscillatorReadsOnlyItsOperands : Obligations.OscillatorReadsOnlyItsOperands := by
  intro s u t v i hi hfreq hsrate hdur hduty hparams hdraws ht hv
  obtain ⟨pulse, rfl⟩ : ∃ pulse, i = oscCommand pulse := hi.elim (⟨false, ·⟩) (⟨true, ·⟩)
  have hbuf := oscCommand_isBuffer pulse
  obtain ⟨hn, hidx, hidx', -⟩ :=
    bufferCommandsAgreeOnTheLength _ _ s u t v hbuf hbuf hsrate hdur (by rw [hparams]) ht hv
  refine ⟨hn, by rw [hidx, hidx', hn], fun k hk => ?_⟩
  have hduty' : pulse = true → s.opr.duty = u.opr.duty := fun h => hduty (by rw [h]; rfl)
  rw [exec_osc_dry ht hk, exec_osc_dry hv (hn ▸ hk), hdraws, sampleWord_congr hfreq hsrate hduty']

end Sys2Proof.Machine
end

section
/-! PROOFS of the statements of spec/42_biquad.md: what the four filter commands do to the state (R181, R183, R204, R208), the
rows of the coefficient table (R188 to R199), and the cutoff and α (R185 to R187). -/

namespace Sys2Proof.Machine

/-! ## The filter commands (R181, R183, R204, R208) -/

/-- Settles O17: the effect of BQ_NEW, written out. -/
theorem bqNewZeroesTheFilter : Obligations.BqNewZeroesTheFilter := fun s => exec_eq .bqNew s

/-- Settles O21: the effect of BQ_RESET, written out. -/
theorem bqResetClearsOnlyTheHistory : Obligations.BqResetClearsOnlyTheHistory := fun s => exec_eq .bqReset s

/-- A register that is given a value shows it (R140). -/
theorem shows_orFree (v : Val) (k : Nat) : Shows v (orFree v k) := by
  rintro x rfl
  rfl

/-- A word that is moved is copied (R205). -/
theorem copied_copyWord (w : Word) (k : Nat) : Copied w (copyWord w k) :=
  fun _ h => copyWord_of_some h k

/-- TOPO is MODE modulo 16 (R23). -/
theorem topoField_toNat (mode : BitVec 12) : (topoField mode).toNat = mode.toNat % 16 := by
  rw [topoField, BitVec.extractLsb'_toNat, Nat.shiftRight_zero]

/-- The LowShelf row, normalised (R195, R199). -/
theorem normalise_rawLowShelf (cs al : Val) : normalise (rawLowShelf cs al) = Spec.LowShelf cs (beta al) := by
  simp only [normalise, rawLowShelf, Spec.LowShelf, Spec.Divided]

/-- The HighShelf row, normalised (R197, R199). -/
theorem normalise_rawHighShelf (cs al : Val) : normalise (rawHighShelf cs al) = Spec.HighShelf cs (beta al) := by
  simp only [normalise, rawHighShelf, Spec.HighShelf, Spec.Divided]

/-- The model's row of a topology is the one the rules give its TOPO code, a fallback code's too (R188 to R201). -/
theorem normalise_rawCoefs_topology (mode : BitVec 12) (cs al : Val) :
    normalise (rawCoefs (topology mode) cs al) = Spec.Row (mode.toNat % 16) cs al := by
  rw [topology, topoField_toNat]
  generalize mode.toNat % 16 = n
  unfold Spec.Row
  split
  case h_5 => exact normalise_rawLowShelf cs al
  case h_6 => exact normalise_rawHighShelf cs al
  case h_7 h1 h2 h3 h4 h5 h6 =>
    rw [if_neg h1, if_neg h2, if_neg h3, if_neg h4, if_neg h5, if_neg h6]
    rfl
  all_goals rfl

/-- The five values of the rules are those the model computes (R184). -/
theorem coefVals_topology (nm : Config.Numerics) (mode : BitVec 12) (fs fc q : Val) :
    coefVals nm (topology mode) fs fc q = Spec.Coefficients nm (mode.toNat % 16) fs fc q :=
  normalise_rawCoefs_topology mode _ _

/-- Stored coefficients show the five values (R184). -/
theorem coefsShow_storeCoefs (c : CoefVals) (s : State) : Spec.CoefsShow c (storeCoefs c s).coef :=
  ⟨shows_orFree _ _, shows_orFree _ _, shows_orFree _ _, shows_orFree _ _, shows_orFree _ _⟩

/-- Settles O18: BQ_SETC stores the values of the row of its topology, which is the row of the TOPO code. -/
theorem bqSetcStoresTheTopologysCoefficients : Obligations.BqSetcStoresTheTopologysCoefficients := by
  intro s
  refine ⟨runBqSetc s, exec_eq .bqSetc s, rfl, ?_⟩
  rw [← coefVals_topology]
  exact coefsShow_storeCoefs _ (accept .bqSetc s)

/-- Settles O19: BQ_STEP stores the value of the recurrence and moves three words of the history. -/
theorem bqStepRunsTheRecurrence : Obligations.BqStepRunsTheRecurrence := fun s =>
  ⟨runBqStep s, exec_eq .bqStep s, rfl, shows_orFree _ _, copied_copyWord _ _, copied_copyWord _ _, rfl,
    copied_copyWord _ _⟩

/-! ## Zero coefficients (R206) -/

/-- The value is a zero, of either sign (R40). -/
def Val.IsZero (v : Val) : Prop := ∃ n : Bool, v = some ⟨n, 0⟩

/-- A rounded zero is a zero. -/
theorem ieeeOfMag_round_zero (n : Bool) {den : Nat} (hd : 0 < den) :
    ieeeOfMag n (roundMag 0 den) = .fin ⟨n, 0⟩ := by
  have h0 : roundMag 0 den = 0 := by simpa using roundMag_exact hd representable_zero
  rw [h0, ieeeOfMag, if_pos (show 0 < magLimit from Nat.two_pow_pos 2098)]

theorem Val.IsZero.fmul {v : Val} (hv : v.IsZero) (x : Fin64) : (fmul v (some x)).IsZero := by
  obtain ⟨n, rfl⟩ := hv
  refine ⟨n ^^ x.neg, ?_⟩
  change valOfIeee (finMul ⟨n, 0⟩ x) = _
  rw [finMul, Nat.zero_mul, ieeeOfMag_round_zero _ oneMag_pos, valOfIeee]

theorem finAdd_zeros (n m : Bool) : finAdd ⟨n, 0⟩ ⟨m, 0⟩ = .fin ⟨n && m, 0⟩ := by
  cases n <;> cases m <;> rfl

theorem Val.IsZero.fadd {v w : Val} (hv : v.IsZero) (hw : w.IsZero) : (fadd v w).IsZero := by
  obtain ⟨n, rfl⟩ := hv
  obtain ⟨m, rfl⟩ := hw
  exact ⟨n && m, congrArg valOfIeee (finAdd_zeros n m)⟩

theorem Val.IsZero.fsub {v w : Val} (hv : v.IsZero) (hw : w.IsZero) : (fsub v w).IsZero := by
  obtain ⟨n, rfl⟩ := hv
  obtain ⟨m, rfl⟩ := hw
  exact ⟨n && !m, congrArg valOfIeee (finAdd_zeros n !m)⟩

/-- The word 0 is +0.0 (R10). -/
theorem valOf_zero : valOf 0 = some ⟨false, 0⟩ := rfl

/-- +0.0 times a finite word is a zero. -/
theorem fmul_zero_word {w : Word} (h : finiteWith (fun _ => True) w) : (fmul (valOf 0) (valOf w)).IsZero := by
  obtain ⟨x, hx, -⟩ := h
  rw [hx]
  exact Val.IsZero.fmul ⟨false, valOf_zero⟩ x

/-- With zero coefficients the recurrence of finite words is a zero (R206). -/
theorem recurrence_zero {h : History} {x : Word} (hx : finiteWith (fun _ => True) x)
    (hx1 : finiteWith (fun _ => True) h.x1) (hx2 : finiteWith (fun _ => True) h.x2)
    (hy1 : finiteWith (fun _ => True) h.y1) (hy2 : finiteWith (fun _ => True) h.y2) :
    (recurrence Coefs.zero h x).IsZero :=
  ((((fmul_zero_word hx).fadd (fmul_zero_word hx1)).fadd (fmul_zero_word hx2)).fsub (fmul_zero_word hy1)).fsub
    (fmul_zero_word hy2)

/-- A register that is given a zero holds one of the two zero patterns (R10). -/
theorem orFree_of_isZero {v : Val} (h : v.IsZero) (k : Nat) :
    orFree v k = 0x0000000000000000 ∨ orFree v k = 0x8000000000000000 := by
  obtain ⟨_ | _, rfl⟩ := h
  · exact .inl rfl
  · exact .inr rfl

/-- Settles O20: the products, and so their sums, are zeros. -/
theorem zeroCoefficientsGiveZero : Obligations.ZeroCoefficientsGiveZero := by
  intro s t hcoef hx hx1 hx2 hy1 hy2 ht
  rw [exec_eq] at ht
  cases ht
  have hzero : (recurrence s.coef s.hist s.opr.xin).IsZero := by
    rw [hcoef]
    exact recurrence_zero hx hx1 hx2 hy1 hy2
  obtain ⟨x, hx, -⟩ := hx
  exact ⟨orFree_of_isZero hzero _, copyWord_of_some hx _⟩

/-! ## The rows of the table (R188 to R193) -/

/-- A specified quotient of a value by itself is 1.0 (R121). -/
theorem eq_one_of_fdiv_self {a : Val} {x : Fin64} (h : fdiv a a = some x) : x = ⟨false, oneMag⟩ := by
  obtain ⟨y, z, rfl, hz, hdiv⟩ := arith2_eq_some h
  cases hz
  have hy : y.mag ≠ 0 := by
    intro h0
    have hnone := finDiv_rounds y y
    rw [if_pos h0, hdiv] at hnone
    cases hnone
  rw [finDiv_self hy] at hdiv
  exact (Option.some.inj hdiv).symm

/-- The pattern of 1.0 (R133). -/
theorem pack_one : (Fin64.mk false oneMag).pack = 0x3FF0000000000000 := by decide +kernel

/-- A specified quotient of a value by itself has the pattern of 1.0. -/
theorem pack_of_fdiv_self {a : Val} {x : Fin64} (h : fdiv a a = some x) : x.pack = 0x3FF0000000000000 := by
  rw [eq_one_of_fdiv_self h, pack_one]

/-- All topologies are computed from one cosine and one α (R186, R187). -/
theorem exists_coefVals_eq (nm : Config.Numerics) (fs fc q : Val) :
    ∃ cs al : Val, ∀ topo : Topology, coefVals nm topo fs fc q = normalise (rawCoefs topo cs al) :=
  ⟨_, _, fun _ => rfl⟩

/-- Settles O22: B2 is a quotient of a0 by itself, and the other two are the quotients of A2 and A1. -/
theorem allPassMirrorsItsDenominator : Obligations.AllPassMirrorsItsDenominator := by
  intro nm fs fc q
  obtain ⟨cs, al, h⟩ := exists_coefVals_eq nm fs fc q
  simp only [h]
  exact ⟨rfl, rfl, fun _ => pack_of_fdiv_self⟩

/-- Dividing a negated finite value negates the quotient (R121, R123). -/
theorem finDiv_negate (x y : Fin64) : valOfIeee (finDiv x.negate y) = fneg (valOfIeee (finDiv x y)) := by
  have hsign : (!x.neg ^^ y.neg) = !(x.neg ^^ y.neg) := Bool.not_xor _ _
  simp only [finDiv, Fin64.negate, hsign, ieeeOfMag]
  split
  · split <;> rfl
  · split <;> rfl

/-- Dividing a negated value negates the quotient. -/
theorem fdiv_fneg (a b : Val) : fdiv (fneg a) b = fneg (fdiv a b) := by
  cases a with
  | none => rfl
  | some x =>
    cases b with
    | none => rfl
    | some y => exact finDiv_negate x y

/-- A specified quotient of a zero is a zero. -/
theorem Val.IsZero.fdiv {v w : Val} (hv : v.IsZero) {x : Fin64} (h : fdiv v w = some x) : x.mag = 0 := by
  obtain ⟨n, rfl⟩ := hv
  obtain ⟨_, y, hz, -, hdiv⟩ := arith2_eq_some h
  cases hz
  unfold finDiv at hdiv
  split at hdiv
  · cases hdiv
  · next hy =>
    rw [Nat.zero_mul, ieeeOfMag_round_zero _ (Nat.pos_of_ne_zero hy)] at hdiv
    cases hdiv
    rfl

/-- Settles O23: the five rows share their denominator; BandPass's b1 is a zero and its b2 the negated b0. -/
theorem rowsOfTheCoefficientTable : Obligations.RowsOfTheCoefficientTable := by
  intro nm fs fc q
  obtain ⟨cs, al, h⟩ := exists_coefVals_eq nm fs fc q
  simp only [h]
  exact ⟨⟨rfl, rfl, rfl, rfl⟩, ⟨rfl, rfl, rfl, rfl⟩, fun _ => Val.IsZero.fdiv ⟨false, valOf_zero⟩, fdiv_fneg _ _,
    rfl, rfl, rfl, rfl⟩

/-! ## The halving of the LowPass numerator (R189) -/

/-- Half of a representable even magnitude is representable. -/
theorem representable_of_two_mul {M : Nat} (h : Representable (2 * M)) : Representable M := by
  obtain ⟨a, k, ha, hM⟩ := h
  cases k with
  | zero => exact ⟨M, 0, by omega, by omega⟩
  | succ k => exact ⟨a, k, ha, by rw [Nat.pow_succ] at hM; linarith⟩

/-- Halving an even magnitude is exact (R189). -/
theorem finDiv_two {n : Bool} {m : Nat} (h : (Fin64.mk n (2 * m)).Ok) :
    finDiv ⟨n, 2 * m⟩ ⟨false, 2 * oneMag⟩ = .fin ⟨n, m⟩ := by
  obtain ⟨hr, hl⟩ := h
  change 2 * m < magLimit at hl
  have hO := oneMag_pos
  have hexact : 2 * m * oneMag = m * (2 * oneMag) := by ring
  rw [finDiv, if_neg (show 2 * oneMag ≠ 0 by omega), hexact, roundMag_exact (by omega) (representable_of_two_mul hr), ieeeOfMag,
    if_pos (by omega), Bool.xor_false]

/-- Doubling a magnitude is exact while the result is finite. -/
theorem finMul_two_of_ok {n : Bool} {m : Nat} (h : (Fin64.mk n (2 * m)).Ok) :
    finMul ⟨false, 2 * oneMag⟩ ⟨n, m⟩ = .fin ⟨n, 2 * m⟩ := by
  obtain ⟨hr, hl⟩ := h
  rw [finMul, Nat.mul_right_comm, roundMag_exact oneMag_pos hr, ieeeOfMag, if_pos hl, Bool.false_xor]

/-- 1.0 less a finite value is zero or at least 2^53 units: a small value is far from 1.0, and any other one is a multiple of
2^53 units, as 1.0 is. -/
theorem one_sub_far {c : Fin64} (hc : c.Ok) (h0 : (oneMag : Int) - c.toInt ≠ 0) :
    2 ^ 53 ≤ ((oneMag : Int) - c.toInt).natAbs := by
  have hO : 2 ^ 53 ∣ oneMag := pow_dvd_pow 2 (by omega)
  have hbig : 2 ^ 106 ≤ oneMag := Nat.pow_le_pow_right Nat.two_pos (by omega)
  have hmag : c.toInt.natAbs = c.mag := by obtain ⟨_ | _, m⟩ := c <;> simp
  rcases representable_dvd_or_lt (k := 53) hc.1 with hdvd | hsmall
  · rw [← hmag, ← Int.natCast_dvd] at hdvd
    exact Nat.le_of_dvd (Int.natAbs_pos.2 h0) (Int.natCast_dvd.1 (dvd_sub (Int.natCast_dvd_natCast.2 hO) hdvd))
  · omega

/-- A specified 1.0 less a finite value has an even magnitude (R189). -/
theorem two_dvd_one_sub {c b : Fin64} (hc : c.Ok) (h : valOfIeee (finAdd ⟨false, oneMag⟩ c.negate) = some b) :
    2 ∣ b.mag := by
  have hsum : (Fin64.mk false oneMag).toInt + c.negate.toInt = oneMag - c.toInt := by
    rw [negate_toInt, toInt_mk_false, sub_eq_add_neg]
  simp only [finAdd, hsum] at h
  split at h
  · cases h
    exact dvd_zero 2
  · next h0 =>
    have hrep := roundMag_representable ((oneMag : Int) - c.toInt).natAbs 1
    obtain ⟨rfl, -⟩ := ok_of_ieeeOfMag hrep h
    have hfar : 2 ^ 53 ≤ roundMag ((oneMag : Int) - c.toInt).natAbs 1 :=
      le_roundMag Nat.one_pos ⟨1, 53, by omega, by omega⟩ (by rw [Nat.mul_one]; exact one_sub_far hc h0)
    exact (representable_dvd_or_lt (k := 1) hrep).resolve_right (by omega)

/-- Settles O24: b1 has an even magnitude, so halving and doubling are exact. -/
theorem lowPassHalvingIsExact : Obligations.LowPassHalvingIsExact := by
  intro w al b1 hb1
  change fsub cOne (valOf w) = some b1 at hb1
  have hraw : (rawLowPass (valOf w) al).b0 = fdiv (some b1) cTwo ∧ (rawLowPass (valOf w) al).b2 = fdiv (some b1) cTwo := by
    rw [← hb1]
    exact ⟨rfl, rfl⟩
  obtain ⟨x, c, hx, hc, hadd⟩ := arith2_eq_some hb1
  rw [cOne_eq] at hx
  cases hx
  obtain ⟨m, hm⟩ := two_dvd_one_sub (ok_of_valOf hc) hadd
  have hok := finAdd_ok hadd
  obtain ⟨n, M⟩ := b1
  obtain rfl : M = 2 * m := hm
  have hhalf : fdiv (some ⟨n, 2 * m⟩) cTwo = some ⟨n, m⟩ := by
    rw [cTwo_eq, fdiv, arith2, finDiv_two hok, valOfIeee]
  refine ⟨⟨n, m⟩, hraw.1.trans hhalf, hraw.2.trans hhalf, (toInt_mk_two_mul ⟨n, m⟩).symm, ?_⟩
  rw [cTwo_eq, fmul, arith2, finMul_two_of_ok hok, valOfIeee]

/-! ## The shelves with A = 1.0 (R194 to R198) -/

/-- The predicate of R198 is symmetric. -/
theorem sameValue_symm {a b : Val} (h : Spec.SameValue a b) : Spec.SameValue b a := by
  rcases h with ⟨ha, hb⟩ | ⟨x, y, hx, hy, he⟩
  · exact .inl ⟨hb, ha⟩
  · exact .inr ⟨y, x, hy, hx, he.symm⟩

theorem sameValue_refl (a : Val) : Spec.SameValue a a := by
  cases a with
  | none => exact .inl ⟨rfl, rfl⟩
  | some x => exact .inr ⟨x, x, rfl, rfl, rfl⟩

/-- Two finite values have the same exact value when their magnitudes agree, and their signs too or the magnitude is zero. -/
theorem toInt_eq_iff {x y : Fin64} : x.toInt = y.toInt ↔ x.mag = y.mag ∧ (x.mag = 0 ∨ x.neg = y.neg) := by
  obtain ⟨_ | _, m⟩ := x <;> obtain ⟨_ | _, k⟩ := y <;> simp <;> omega

/-- One exact magnitude rounded with two signs, which may differ when it is zero, gives the same value (R121). -/
theorem sameValue_ieeeOfMag {n n' : Bool} {num den : Nat} (hd : 0 < den) (h : num = 0 ∨ n = n') :
    Spec.SameValue (valOfIeee (ieeeOfMag n (roundMag num den))) (valOfIeee (ieeeOfMag n' (roundMag num den))) := by
  rcases h with rfl | rfl
  · rw [ieeeOfMag_round_zero n hd, ieeeOfMag_round_zero n' hd]
    exact .inr ⟨⟨n, 0⟩, ⟨n', 0⟩, rfl, rfl, toInt_eq_iff.2 ⟨rfl, .inl rfl⟩⟩
  · exact sameValue_refl _

/-- Quotients of the same value are the same value. -/
theorem sameValue_fdiv {a b : Val} (h : Spec.SameValue a b) (d : Val) : Spec.SameValue (fdiv a d) (fdiv b d) := by
  rcases h with ⟨rfl, rfl⟩ | ⟨x, y, rfl, rfl, he⟩
  · exact sameValue_refl _
  cases d with
  | none => exact sameValue_refl _
  | some z =>
    obtain ⟨hmag, hneg⟩ := toInt_eq_iff.1 he
    change Spec.SameValue (valOfIeee (finDiv x z)) (valOfIeee (finDiv y z))
    by_cases hz : z.mag = 0
    · have hx := finDiv_rounds x z
      have hy := finDiv_rounds y z
      rw [if_pos hz] at hx hy
      exact .inl ⟨hx, hy⟩
    · rw [finDiv, finDiv, if_neg hz, if_neg hz, ← hmag]
      exact sameValue_ieeeOfMag (Nat.pos_of_ne_zero hz) (hneg.imp (by simp [·]) (by rw [·]))

/-- Products of a factor and of its negation, with a value and its negation, are the same value. -/
theorem sameValue_fmul_negate {x y y' : Fin64} (h : y'.toInt = -y.toInt) :
    Spec.SameValue (fmul (some x) (some y)) (fmul (some x.negate) (some y')) := by
  rw [← negate_toInt] at h
  obtain ⟨hmag, hneg⟩ := toInt_eq_iff.1 h
  change y'.mag = y.mag at hmag
  simp only [fmul, arith2, finMul, Fin64.negate, hmag]
  refine sameValue_ieeeOfMag oneMag_pos ?_
  rcases hneg with h0 | hs
  · exact .inl (by rw [← hmag, h0, Nat.mul_zero])
  · exact .inr (by rw [hs]; simp [Fin64.negate])

/-- A sum that is not zero depends on the exact values of its terms only (R121). -/
theorem finAdd_congr {x y x' y' : Fin64} (h : x.toInt + y.toInt ≠ 0) (he : x'.toInt + y'.toInt = x.toInt + y.toInt) :
    finAdd x' y' = finAdd x y := by
  simp only [finAdd, he, if_neg h]

/-- The sum of +0.0 and a finite value has that value (R121). -/
theorem exists_finAdd_zero {z : Fin64} (hz : z.Ok) :
    ∃ w : Fin64, finAdd ⟨false, 0⟩ z = .fin w ∧ w.toInt = z.toInt := by
  by_cases h0 : z.toInt = 0
  · refine ⟨⟨false && z.neg, 0⟩, ?_, by rw [h0]; cases z.neg <;> rfl⟩
    rw [finAdd, toInt_mk_false, h0]
    rfl
  · refine ⟨z, ?_, rfl⟩
    have hmag : z.toInt.natAbs = z.mag := by obtain ⟨_ | _, m⟩ := z <;> simp
    have hneg : decide (z.toInt < 0) = z.neg := by
      obtain ⟨_ | _, m⟩ := z
      · exact decide_eq_false (Int.natCast_nonneg m).not_gt
      · rw [toInt_mk_true] at h0 ⊢
        exact decide_eq_true (by omega)
    have hexact : roundMag z.mag 1 = z.mag := by simpa using roundMag_exact Nat.one_pos hz.1
    simp only [finAdd, toInt_mk_false, Nat.cast_zero, zero_add, if_neg h0]
    rw [hmag, hneg, hexact, ieeeOfMag, if_pos hz.2]

/-- A + 1.0 with A = 1.0 (R195). -/
theorem fadd_one_one : fadd cOne cOne = cTwo := by decide +kernel

/-- A − 1.0 with A = 1.0 (R195). -/
theorem fsub_one_one : fsub cOne cOne = some ⟨false, 0⟩ := by decide +kernel

theorem cMinusTwo_eq : cMinusTwo = some (Fin64.mk false (2 * oneMag)).negate := by decide +kernel

theorem fmul_two_one : fmul cTwo cOne = cTwo := by decide +kernel

theorem fmul_minusTwo_one : fmul cMinusTwo cOne = cMinusTwo := by decide +kernel

/-- With A = 1.0 the terms (A + 1) + (A − 1)·cs and (A + 1) − (A − 1)·cs are one: the product is a zero (R198). -/
theorem shelf_terms_eq (cs : Val) :
    fsub (fadd cOne cOne) (fmul (fsub cOne cOne) cs) = fadd (fadd cOne cOne) (fmul (fsub cOne cOne) cs) := by
  cases cs with
  | none =>
    have hnone : fmul (fsub cOne cOne) none = none := arith2_none_right _ _
    rw [hnone]
    exact (arith2_none_right _ _).trans (arith2_none_right _ _).symm
  | some c =>
    obtain ⟨n, hn⟩ := Val.IsZero.fmul ⟨false, fsub_one_one⟩ c
    have hz (k : Bool) : (Fin64.mk k 0).toInt = 0 := by cases k <;> rfl
    have hO := oneMag_pos
    rw [fadd_one_one, hn, cTwo_eq]
    refine congrArg valOfIeee (finAdd_congr ?_ ?_)
    · rw [hz, toInt_mk_false]
      omega
    · rw [negate_toInt, hz, neg_zero]

/-- A specified sum is one a pattern stands for. -/
theorem fadd_ok {a b : Val} {z : Fin64} (h : fadd a b = some z) : z.Ok := by
  obtain ⟨_, _, -, -, hadd⟩ := arith2_eq_some h
  exact finAdd_ok hadd

/-- A specified difference is one a pattern stands for. -/
theorem fsub_ok {a b : Val} {z : Fin64} (h : fsub a b = some z) : z.Ok := by
  obtain ⟨_, _, -, -, hadd⟩ := arith2_eq_some h
  exact finAdd_ok hadd

/-- A specified product is one a pattern stands for. -/
theorem fmul_ok {a b : Val} {z : Fin64} (h : fmul a b = some z) : z.Ok := by
  obtain ⟨_, _, -, -, hmul⟩ := arith2_eq_some h
  exact finMul_ok hmul

/-- A specified quotient is one a pattern stands for. -/
theorem fdiv_ok {a b : Val} {z : Fin64} (h : fdiv a b = some z) : z.Ok := by
  obtain ⟨_, _, -, -, hdiv⟩ := arith2_eq_some h
  exact finDiv_ok hdiv

/-- A value is not changed by a multiplication by 1.0 (R121). -/
theorem fmul_one {v : Val} (h : ∀ z, v = some z → z.Ok) : fmul cOne v = v := by
  cases v with
  | none => exact arith2_none_right _ _
  | some z => rw [cOne_eq, fmul, arith2, finMul_one (h z rfl), valOfIeee]

theorem fmul_one_fadd (a b : Val) : fmul cOne (fadd a b) = fadd a b := fmul_one fun _ => fadd_ok

theorem fmul_one_fsub (a b : Val) : fmul cOne (fsub a b) = fsub a b := fmul_one fun _ => fsub_ok

/-- With A = 1.0 the numerators 2.0·((A − 1) − (A + 1)·cs) and −2.0·((A − 1) + (A + 1)·cs) are the same value (R198). -/
theorem shelf_numerators_same (cs : Val) :
    Spec.SameValue (fmul cTwo (fsub (fsub cOne cOne) (fmul (fadd cOne cOne) cs)))
      (fmul cMinusTwo (fadd (fsub cOne cOne) (fmul (fadd cOne cOne) cs))) := by
  rw [fsub_one_one]
  cases hp : fmul (fadd cOne cOne) cs with
  | none => exact .inl ⟨arith2_none_right _ _, arith2_none_right _ _⟩
  | some p =>
    have hok := fmul_ok hp
    obtain ⟨u, hu, hut⟩ := exists_finAdd_zero (z := p.negate) hok
    obtain ⟨v, hv, hvt⟩ := exists_finAdd_zero hok
    have hsub : fsub (some ⟨false, 0⟩) (some p) = some u := by simp only [fsub, arith2, hu, valOfIeee]
    have hadd : fadd (some ⟨false, 0⟩) (some p) = some v := by simp only [fadd, arith2, hv, valOfIeee]
    rw [hsub, hadd, cTwo_eq, cMinusTwo_eq]
    exact sameValue_fmul_negate (by rw [hut, hvt, negate_toInt, neg_neg])

/-- The unnormalised rows of the two shelves with A = 1.0: numerator and denominator agree but for b1 and a1, which trade
places from one shelf to the other (R198). -/
structure ShelfRows (lo hi : RawCoefs) : Prop where
  b0 : lo.b0 = lo.a0
  b2 : lo.b2 = lo.a2
  b1 : Spec.SameValue lo.b1 lo.a1
  b0' : hi.b0 = lo.b0
  b1' : hi.b1 = lo.a1
  b2' : hi.b2 = lo.b2
  a0' : hi.a0 = lo.a0
  a1' : hi.a1 = lo.b1
  a2' : hi.a2 = lo.a2

theorem shelfRows (cs al : Val) : ShelfRows (rawLowShelf cs al) (rawHighShelf cs al) := by
  constructor <;>
    simp only [rawLowShelf, rawHighShelf, shelf_terms_eq, fmul_one_fadd, fmul_one_fsub, fmul_two_one, fmul_minusTwo_one]
  exact shelf_numerators_same cs

/-- Settles O25: the rows agree as `ShelfRows` says, and normalisation keeps that. -/
theorem shelvesAreTheIdentityFilter : Obligations.ShelvesAreTheIdentityFilter := by
  intro nm fs fc q
  obtain ⟨cs, al, h⟩ := exists_coefVals_eq nm (valOf fs) (valOf fc) (valOf q)
  obtain ⟨hb0, hb2, hb1, hb0', hb1', hb2', ha0', ha1', ha2'⟩ := shelfRows cs al
  simp only [h, rawCoefs, normalise, hb0, hb2, hb0', hb1', hb2', ha0', ha1', ha2']
  have hsame := sameValue_fdiv hb1 (rawLowShelf cs al).a0
  exact ⟨fun _ => pack_of_fdiv_self, hsame, trivial, fun _ => pack_of_fdiv_self, sameValue_symm hsame, trivial, trivial,
    hsame, trivial⟩

/-! ## The clamped cutoff (R185) -/

/-- The magnitude of 2.5. -/
def twoPointFiveMag : Nat := 5 * 2 ^ 1073

theorem two_mul_twoPointFiveMag : 2 * twoPointFiveMag = 5 * oneMag := by decide +kernel

theorem cTwoPointFive_eq : cTwoPointFive = some ⟨false, twoPointFiveMag⟩ := by decide +kernel

/-- A value above zero has a positive sign. -/
theorem exists_eq_of_toInt_pos {x : Fin64} (h : 0 < x.toInt) : ∃ m, x = ⟨false, m⟩ := by
  obtain ⟨_ | _, m⟩ := x
  · exact ⟨m, rfl⟩
  · rw [toInt_mk_true] at h; omega

/-- Only m itself has the exact value of m, m above zero. -/
theorem eq_of_toInt_eq_pos {x : Fin64} {m : Nat} (hm : 0 < m) (h : x.toInt = m) : x = ⟨false, m⟩ := by
  obtain ⟨_ | _, k⟩ := x
  · rw [toInt_mk_false] at h
    rw [Nat.cast_injective h]
  · rw [toInt_mk_true] at h; omega

/-- The upper bound of the cutoff: the magnitude of FS / 2.5, for FS of magnitude m (R185). -/
def cutoffBound (m : Nat) : Nat := roundMag (m * oneMag) twoPointFiveMag

theorem twoPointFiveMag_pos : 0 < twoPointFiveMag := Nat.mul_pos (by omega) (Nat.two_pow_pos 1073)

/-- A value that is not negative can be divided by 2.5. -/
theorem fdiv_twoPointFive {m : Nat} (h : (Fin64.mk false m).Ok) :
    fdiv (some ⟨false, m⟩) cTwoPointFive = some ⟨false, cutoffBound m⟩ := by
  obtain ⟨hr, hl⟩ := h
  have h0 := twoPointFiveMag_pos
  have hle : cutoffBound m ≤ m := roundMag_le h0 hr (Nat.mul_le_mul_left m (by have := two_mul_twoPointFiveMag; omega))
  have hlt : cutoffBound m < magLimit := hle.trans_lt hl
  have hdiv : finDiv ⟨false, m⟩ ⟨false, twoPointFiveMag⟩ = .fin ⟨false, cutoffBound m⟩ := by
    unfold cutoffBound at hlt ⊢
    rw [finDiv, if_neg (show twoPointFiveMag ≠ 0 from h0.ne'), ieeeOfMag, if_pos hlt, Bool.false_xor]
  rw [cTwoPointFive_eq, fdiv, arith2, hdiv, valOfIeee]

/-- From FS = 2.5 on the bound is at least 1.0: the division does not round below it. -/
theorem one_le_cutoffBound {m : Nat} (h : 5 * oneMag ≤ 2 * m) : oneMag ≤ cutoffBound m := by
  refine le_roundMag twoPointFiveMag_pos representable_oneMag ?_
  rw [Nat.mul_comm]
  exact Nat.mul_le_mul_right _ (by have := two_mul_twoPointFiveMag; omega)

/-- Below FS = 2.5 the bound is at most 1.0. -/
theorem cutoffBound_le_one {m : Nat} (h : 2 * m < 5 * oneMag) : cutoffBound m ≤ oneMag := by
  refine roundMag_le twoPointFiveMag_pos representable_oneMag ?_
  rw [Nat.mul_comm oneMag]
  exact Nat.mul_le_mul_right _ (by have := two_mul_twoPointFiveMag; omega)

/-- A value clamped to a range that is not empty lies in it (R126). -/
theorem clamp_mem {v lo hi : Fin64} (h : lo.toInt ≤ hi.toInt) :
    ∃ y : Fin64, clamp (some v) (some lo) (some hi) = some y ∧ lo.toInt ≤ y.toInt ∧ y.toInt ≤ hi.toInt := by
  rw [(clampTakesTheUpperBoundLast v lo hi).1 h]
  split
  · exact ⟨lo, rfl, le_rfl, h⟩
  · split
    · exact ⟨hi, rfl, h, le_rfl⟩
    · exact ⟨v, rfl, by omega, by omega⟩

/-- A value clamped to a range from 1.0 up to a bound of at most 1.0 is that bound: only one finite value equals 1.0 (R126). -/
theorem clamp_of_le_one {v hi : Fin64} (h : hi.toInt ≤ oneMag) : clamp (some v) cOne (some hi) = some hi := by
  rw [cOne_eq]
  rcases h.lt_or_eq with hlt | heq
  · exact (clampTakesTheUpperBoundLast v ⟨false, oneMag⟩ hi).2 hlt
  · obtain ⟨y, hy, hl, hu⟩ := clamp_mem (v := v) (lo := ⟨false, oneMag⟩) heq.ge
    have hone : y.toInt = oneMag := le_antisymm (hu.trans heq.le) hl
    rw [hy, eq_of_toInt_eq_pos oneMag_pos heq, eq_of_toInt_eq_pos oneMag_pos hone]

/-- The clamped cutoff of a finite positive FS and a finite cutoff (R185). -/
theorem clampedCutoff_eq {m : Nat} (h : (Fin64.mk false m).Ok) (c : Fin64) :
    ∃ y : Fin64, clampedCutoff (some ⟨false, m⟩) (some c) = some y ∧
      (5 * oneMag ≤ 2 * m → (oneMag : Int) ≤ y.toInt ∧ y.toInt ≤ cutoffBound m) ∧
      (2 * m < 5 * oneMag → y = ⟨false, cutoffBound m⟩) := by
  rw [clampedCutoff, fdiv_twoPointFive h]
  rcases Nat.lt_or_ge (2 * m) (5 * oneMag) with hlow | hhigh
  · have hle : (Fin64.mk false (cutoffBound m)).toInt ≤ oneMag := Int.ofNat_le.2 (cutoffBound_le_one hlow)
    exact ⟨_, clamp_of_le_one hle, fun h => absurd h (by omega), fun _ => rfl⟩
  · have hle : (Fin64.mk false oneMag).toInt ≤ (Fin64.mk false (cutoffBound m)).toInt :=
      Int.ofNat_le.2 (one_le_cutoffBound hhigh)
    obtain ⟨y, hy, hmem⟩ := clamp_mem (v := c) hle
    rw [← cOne_eq] at hy
    exact ⟨y, hy, fun _ => hmem, fun h => absurd h (by omega)⟩

/-- Settles O26: the two ranges of FS are those where FS / 2.5 is at least and at most 1.0. -/
theorem cutoffIsClamped : Obligations.CutoffIsClamped := by
  intro fs fc f c hf hc hpos
  obtain ⟨m, rfl⟩ : ∃ m, f = ⟨false, m⟩ := exists_eq_of_toInt_pos hpos
  have hok := ok_of_valOf hf
  obtain ⟨y, hy, hhigh, hlow⟩ := clampedCutoff_eq hok c
  rw [hf, hc, toInt_mk_false]
  exact ⟨_, y, fdiv_twoPointFive hok, hy, fun h => hhigh (by omega), fun h => hlow (by omega)⟩

/-! ## α (R186, R187) -/

/-- From 2^52 units on, a rounding is off by less than a hundredth. -/
theorem roundMag_le_percent {num den : Nat} (hd : 0 < den) (h : 2 ^ 52 * den ≤ num) :
    100 * (roundMag num den * den) ≤ 101 * num := by
  have herr := (roundMag_error num den hd).2
  have hulp : 2 ^ 52 * (den * 2 ^ ulpExp (num / den)) ≤ num := by
    rcases Nat.eq_zero_or_pos (ulpExp (num / den)) with h0 | hpos
    · rwa [h0, Nat.pow_zero, Nat.mul_one]
    · calc 2 ^ 52 * (den * 2 ^ ulpExp (num / den)) = 2 ^ 52 * 2 ^ ulpExp (num / den) * den := by ring
        _ ≤ num := (Nat.le_div_iff_mul_le hd).1 (le_of_ulpExp_pos hpos)
  omega

/-- The magnitude of 2.0 × PI (R186). -/
def twoPiMag : Nat := 0x1921FB54442D18 * 2 ^ 1024

/-- The magnitude of 2.6, the bound of T2. -/
def twoPointSixMag : Nat := 0x14CCCCCCCCCCCD * 2 ^ 1023

theorem fmul_two_pi : fmul cTwo cPi = some ⟨false, twoPiMag⟩ := by decide +kernel

theorem cTwoPointSix_eq : cTwoPointSix = some ⟨false, twoPointSixMag⟩ := by decide +kernel

theorem representable_twoPointSixMag : Representable twoPointSixMag := ⟨_, _, by decide, rfl⟩

/-- 2.0 × PI is between 1.0 and 6.29, and the bound of T2 at least 2.6. -/
theorem twoPiMag_bounds : oneMag ≤ twoPiMag ∧ 100 * twoPiMag ≤ 629 * oneMag ∧ 13 * oneMag ≤ 5 * twoPointSixMag := by
  decide +kernel

/-- The angle of a cutoff y between u and m / h is at most x, for u, p, h and x in the place of 1.0, 2.0 × PI, 2.5 and 2.6 and m
in that of FS: the bound m / h and the product p × y are off by less than a hundredth each, and the last division does not
cross x (R185, R186). -/
theorem angle_le_of_bounds {u p h x m y : Nat} (hu : 2 ^ 52 ≤ u) (hp : u ≤ p) (hp' : 100 * p ≤ 629 * u)
    (hh : 2 * h = 5 * u) (hx : 13 * u ≤ 5 * x) (hrep : Representable x) (hm : 5 * u ≤ 2 * m) (h1 : u ≤ y)
    (hy : y ≤ roundMag (m * u) h) : roundMag (roundMag (p * y) u * u) m ≤ x := by
  have hu0 : 0 < u := by omega
  have hbound : 100 * (roundMag (m * u) h * h) ≤ 101 * (m * u) :=
    roundMag_le_percent (by omega) (by rw [Nat.mul_comm m]; exact Nat.mul_le_mul hu (by omega))
  have hturn : 100 * (roundMag (p * y) u * u) ≤ 101 * (p * y) :=
    roundMag_le_percent hu0 (by rw [Nat.mul_comm p]; exact Nat.mul_le_mul (hu.trans h1) hp)
  refine roundMag_le (by omega) hrep ?_
  generalize roundMag (p * y) u = t at *
  generalize roundMag (m * u) h = b at *
  have hb : 500 * b ≤ 202 * m := Nat.le_of_mul_le_mul_right (c := u) (by linear_combination 2 * hbound + 100 * b * hh.symm) hu0
  have ht : 10000 * t ≤ 63529 * y :=
    Nat.le_of_mul_le_mul_right (c := u) (by linear_combination 100 * hturn + 101 * y * hp') hu0
  have htm : 5 * t ≤ 13 * m := by omega
  have hfive : 5 * (t * u) ≤ 5 * (x * m) := by linear_combination u * htm + m * hx
  omega

theorem two_pow_le_oneMag : 2 ^ 52 ≤ oneMag := Nat.pow_le_pow_right Nat.two_pos (by omega)

/-- The angle of a cutoff between 1.0 and the bound is at most 2.6 (R186). -/
theorem angle_le {m y : Nat} (hm : 5 * oneMag ≤ 2 * m) (h1 : oneMag ≤ y) (hy : y ≤ cutoffBound m) :
    roundMag (roundMag (twoPiMag * y) oneMag * oneMag) m ≤ twoPointSixMag := by
  obtain ⟨hpi, hpi', hsix⟩ := twoPiMag_bounds
  exact angle_le_of_bounds two_pow_le_oneMag hpi hpi' two_mul_twoPointFiveMag hsix representable_twoPointSixMag hm h1 hy

/-- With FS ≥ 2.5 a specified angle lies in [0, 2.6] (R186). -/
theorem omega_mem {m : Nat} {c w : Fin64} (h : (Fin64.mk false m).Ok) (hm : 5 * oneMag ≤ 2 * m)
    (hw : omega (some ⟨false, m⟩) (some c) = some w) : 0 ≤ w.toInt ∧ w.toInt ≤ twoPointSixMag := by
  have hO := oneMag_pos
  obtain ⟨y, hy, hmem, -⟩ := clampedCutoff_eq h c
  obtain ⟨h1, hb⟩ := hmem hm
  obtain ⟨k, rfl⟩ := exists_eq_of_toInt_pos (x := y) (by omega)
  rw [toInt_mk_false] at h1 hb
  rw [omega, hy, fmul_two_pi] at hw
  obtain ⟨t, _, ht, hf, hdiv⟩ := arith2_eq_some hw
  cases hf
  simp only [fmul, arith2, finMul] at ht
  obtain ⟨rfl, -⟩ := ok_of_ieeeOfMag (roundMag_representable _ _) ht
  rw [finDiv, if_neg (show m ≠ 0 by omega)] at hdiv
  obtain ⟨rfl, -⟩ := ok_of_ieeeOfMag (roundMag_representable _ _) hdiv
  exact ⟨Int.natCast_nonneg _, Int.ofNat_le.2 (angle_le hm (Int.ofNat_le.1 h1) (Int.ofNat_le.1 hb))⟩

/-- With T2 the sine of an angle in [0, 2.6] is not negative (R130). -/
theorem fsin_nonneg {nm : Config.Numerics} (hT2 : T2 nm) {w sn : Fin64} (hok : w.Ok) (h0 : 0 ≤ w.toInt)
    (h1 : w.toInt ≤ twoPointSixMag) (h : fsin nm (some w) = some sn) : 0 ≤ sn.toInt := by
  have hw := valOf_pack hok
  have hlo : Val.leq cZero (valOf w.pack) := ⟨_, w, valOf_zero, hw, h0⟩
  have hhi : Val.leq (valOf w.pack) cTwoPointSix := ⟨w, _, hw, cTwoPointSix_eq, h1⟩
  obtain ⟨x, y, hx, hy, hle⟩ := hT2 w.pack hlo hhi
  cases valOf_zero.symm.trans hx
  cases h.symm.trans hy
  exact hle

/-- The quotient of a value that is not negative by 2.0 × q, q > 0, is not negative (R187). -/
theorem alpha_nonneg {sn q al : Fin64} (hsn : 0 ≤ sn.toInt) (hq : 0 < q.toInt) (h : alpha (some sn) (some q) = some al) :
    0 ≤ al.toInt := by
  rw [alpha, cTwo_eq] at h
  obtain ⟨_, d, hsn', hd, hdiv⟩ := arith2_eq_some h
  cases hsn'
  have htwo : 0 ≤ (Fin64.mk false (2 * oneMag)).toInt := toInt_nonneg_iff.2 (.inl rfl)
  exact finDiv_nonneg hsn (finMul_nonneg htwo hq.le hd) hdiv

/-- A specified α has a specified sine (R187). -/
theorem exists_sin_of_alpha {sn q : Val} {al : Fin64} (h : alpha sn q = some al) : ∃ x, sn = some x := by
  rw [alpha] at h
  obtain ⟨x, _, hx, -⟩ := arith2_eq_some h
  exact ⟨x, hx⟩

/-- Settles O27: the sine of an angle in [0, 2.6] is not negative, and so is its quotient by 2.0 × q. -/
theorem alphaIsNotNegative : Obligations.AlphaIsNotNegative := by
  intro nm fs fc q f c qv al hT2 hf hfs hc hq hqpos hal
  have hO := oneMag_pos
  obtain ⟨m, rfl⟩ := exists_eq_of_toInt_pos (x := f) (by omega)
  rw [toInt_mk_false] at hfs
  rw [hf, hc, hq] at hal
  obtain ⟨sn, hsn⟩ := exists_sin_of_alpha hal
  rw [hsn] at hal
  cases hw : omega (some ⟨false, m⟩) (some c) with
  | none => rw [hw] at hsn; cases hsn
  | some w =>
    rw [hw] at hsn
    obtain ⟨h0, h1⟩ := omega_mem (ok_of_valOf hf) (by omega) hw
    exact alpha_nonneg (fsin_nonneg hT2 (fdiv_ok hw) h0 h1 hsn) hqpos hal

end Sys2Proof.Machine
end

section
/-! PROOFS of the statements of spec/43_render.md: the decay schedule (R227 to R242) and what RENDER does to the state (R221 to
R239). -/

namespace Sys2Proof.Machine

/-! ## The decay schedule (R227 to R233) -/

/-- The larger of two values is specified only where both are (R140). -/
theorem fmax_none_right (a : Val) : fmax a none = none := by
  cases a <;> rfl

/-- A specified larger one of two values is their maximum (R125). -/
theorem fmax_eq_some {a b : Val} {z : Fin64} (h : fmax a b = some z) :
    ∃ x y : Fin64, a = some x ∧ b = some y ∧ z.toInt = max x.toInt y.toInt := by
  cases a with
  | none => cases h
  | some x =>
    cases b with
    | none => cases h
    | some y =>
      refine ⟨x, y, rfl, rfl, ?_⟩
      rw [fmax_some] at h
      split at h
      · next hle => cases h; exact (max_eq_left hle).symm
      · next hlt => cases h; exact (max_eq_right (not_le.1 hlt).le).symm

/-- What is floored at 1.0 has the larger exact value of the two (R229). -/
theorem fmax_one_toInt {v : Val} {z : Fin64} (h : fmax cOne v = some z) :
    ∃ y : Fin64, v = some y ∧ z.toInt = max (oneMag : Int) y.toInt := by
  obtain ⟨x, y, hx, hy, hz⟩ := fmax_eq_some h
  rw [cOne_eq] at hx
  cases hx
  exact ⟨y, hy, by rw [hz, toInt_mk_false]⟩

/-- The cutoff of either unit is floored at 1.0 (R229, R230). -/
theorem exists_cutoffAt_eq_fmax (nm : Config.Numerics) (u : Config.DecayUnit) (cutoff0 rate tms : Val) :
    ∃ v : Val, cutoffAt nm u cutoff0 rate tms = fmax cOne v := by
  cases u with
  | hz => exact ⟨_, rfl⟩
  | cent => exact ⟨_, rfl⟩

/-- Settles O33: both units floor the cutoff at 1.0. -/
theorem cutoffNeverFallsBelowOne : Obligations.CutoffNeverFallsBelowOne := by
  intro nm p o i y hy
  obtain ⟨v, hv⟩ := exists_cutoffAt_eq_fmax nm (decayUnit p o.mode) (valOf o.cutoff0) (valOf o.rate)
    (elapsedMs (valOf o.srate) i)
  obtain ⟨z, -, hz⟩ := fmax_one_toInt (hv.symm.trans hy)
  exact (le_max_left _ _).trans_eq hz.symm

/-- A product does not depend on the order of its factors (R121). -/
theorem fmul_comm (a b : Val) : fmul a b = fmul b a := by
  cases a with
  | none => exact (arith2_none_right _ b).symm
  | some x =>
    cases b with
    | none => rfl
    | some y => simp only [fmul, arith2, finMul, Bool.xor_comm, Nat.mul_comm]

/-- The exact value of a zero is 0, of either sign. -/
theorem toInt_zero (n : Bool) : (Fin64.mk n 0).toInt = 0 := by
  cases n <;> rfl

theorem mag_ne_zero {x : Fin64} (h : x.toInt ≠ 0) : x.mag ≠ 0 := by
  obtain ⟨n, m⟩ := x
  rintro rfl
  exact h (toInt_zero n)

/-- A zero divided by a value that is not zero is a zero. -/
theorem Val.IsZero.fdiv_of_ne {v : Val} (hv : v.IsZero) {y : Fin64} (hy : y.mag ≠ 0) : (Machine.fdiv v (some y)).IsZero := by
  obtain ⟨n, rfl⟩ := hv
  refine ⟨n ^^ y.neg, ?_⟩
  change valOfIeee (finDiv ⟨n, 0⟩ y) = _
  rw [finDiv, if_neg hy, Nat.zero_mul, ieeeOfMag_round_zero _ (Nat.pos_of_ne_zero hy), valOfIeee]

/-- The negation of a zero is a zero (R123). -/
theorem Val.IsZero.fneg {v : Val} (hv : v.IsZero) : (fneg v).IsZero := by
  obtain ⟨n, rfl⟩ := hv
  exact ⟨!n, rfl⟩

/-- 1200.0 is not zero (R133). -/
theorem exists_c1200_eq : ∃ y : Fin64, c1200 = some y ∧ y.mag ≠ 0 :=
  ⟨⟨false, 1200 * oneMag⟩, by decide +kernel, (Nat.mul_pos (by omega) oneMag_pos).ne'⟩

/-- With T3 the EXP2 of a zero is 1.0 (R130). -/
theorem fexp2_of_isZero {nm : Config.Numerics} (hT3 : T3 nm) {v : Val} (h : v.IsZero) : fexp2 nm v = cOne := by
  obtain ⟨_ | _, rfl⟩ := h
  · exact congrArg valOf hT3.1
  · exact congrArg valOf hT3.2

/-- Cent decay with no cents elapsed: the ratio is 1.0, but for a max_cents below zero, which is then the decay (R230). -/
theorem fexp2_of_zero_cents {nm : Config.Numerics} (hT3 : T3 nm) {cents : Val} (h : cents.IsZero) (mc : Fin64) :
    fexp2 nm (fdiv (fneg (fmin cents (some mc))) c1200) =
      if 0 ≤ mc.toInt then cOne else fexp2 nm (fdiv (fneg (some mc)) c1200) := by
  obtain ⟨n, rfl⟩ := h
  obtain ⟨y, hy, hne⟩ := exists_c1200_eq
  rw [fmin_some, toInt_zero]
  split
  · rw [hy]
    exact fexp2_of_isZero hT3 (Val.IsZero.fdiv_of_ne (Val.IsZero.fneg ⟨n, rfl⟩) hne)
  · rfl

theorem cThousand_eq : cThousand = some ⟨false, 1000 * oneMag⟩ := by decide +kernel

/-- The time elapsed at index 0 is a zero for every sample rate that is not zero (R227). -/
theorem elapsedMs_zero {f : Fin64} (hf : f.mag ≠ 0) : (elapsedMs (some f) 0).IsZero := by
  rw [elapsedMs, cThousand_eq]
  have h0 : u2f 0 = some ⟨false, 0⟩ := by simp [u2f]
  exact Val.IsZero.fmul (Val.IsZero.fdiv_of_ne ⟨false, h0⟩ hf) _

/-- A value of at least 1.0 is not changed by the floor at 1.0. -/
theorem fmax_one_of_le {c : Fin64} (h : (oneMag : Int) ≤ c.toInt) : fmax cOne (some c) = some c := by
  rw [cOne_eq, fmax_some, toInt_mk_false]
  split
  · next hle => rw [eq_of_toInt_eq_pos oneMag_pos (le_antisymm hle h)]
  · rfl

/-- Settles O34: at index 0 no cents have elapsed, so that the ratio is 1.0. -/
theorem centDecayStartsAtTheInitialCutoff : Obligations.CentDecayStartsAtTheInitialCutoff := by
  intro nm cutoff0 rate srate c r f mc hT3 hc hc1 hr hf hf0 hmc hmc0
  have hcents : (fmul (elapsedMs (valOf srate) 0) (valOf rate)).IsZero := by
    rw [hf, hr]
    exact (elapsedMs_zero (mag_ne_zero hf0)).fmul r
  rw [centCutoff, hmc, fexp2_of_zero_cents hT3 hcents, if_pos hmc0, hc, fmul_comm,
    fmul_one (fun _ hz => ok_of_valOf (hc.trans hz)), fmax_one_of_le hc1]

/-- Adding a zero of either sign keeps the exact value of a finite value (R121). -/
theorem exists_finAdd_of_zero {x y : Fin64} (hx : x.Ok) (hy : y.toInt = 0) :
    ∃ w : Fin64, finAdd x y = .fin w ∧ w.toInt = x.toInt := by
  by_cases h0 : x.toInt = 0
  · refine ⟨⟨x.neg && y.neg, 0⟩, ?_, (toInt_zero _).trans h0.symm⟩
    rw [finAdd, h0, hy]
    rfl
  · rw [finAdd_congr (x := ⟨false, 0⟩) (y := x)]
    · exact exists_finAdd_zero hx
    · rwa [toInt_zero, zero_add]
    · rw [toInt_zero, hy, zero_add, add_zero]

/-- With no decay the Hz cutoff is CUTOFF0 floored at 1.0 (R229). -/
theorem hzCutoff_of_zero {cutoff0 : Word} {rate tms : Val} {z : Fin64} (h : (fmul tms rate).IsZero)
    (hz : hzCutoff (valOf cutoff0) rate tms = some z) :
    ∃ c : Fin64, valOf cutoff0 = some c ∧ z.toInt = max (oneMag : Int) c.toInt := by
  obtain ⟨n, hn⟩ := h
  obtain ⟨y, hy, hzy⟩ := fmax_one_toInt hz
  rw [hn] at hy
  obtain ⟨c, _, hc, hz0, hadd⟩ := arith2_eq_some hy
  cases hz0
  obtain ⟨w, hw, hwc⟩ := exists_finAdd_of_zero (ok_of_valOf hc) (y := (Fin64.mk n 0).negate) (toInt_zero _)
  rw [hw] at hadd
  cases hadd
  exact ⟨c, hc, by rw [hzy, hwc]⟩

/-- With T3 and no decay the Cent cutoff does not depend on the time (R230). -/
theorem centCutoff_of_zero {nm : Config.Numerics} (hT3 : T3 nm) {cutoff0 rate tms tms' : Val}
    (h : (fmul tms rate).IsZero) (h' : (fmul tms' rate).IsZero) :
    centCutoff nm cutoff0 rate tms = centCutoff nm cutoff0 rate tms' := by
  simp only [centCutoff]
  cases fmul c1200 (flog2 nm cutoff0) with
  | none =>
    obtain ⟨n, hn⟩ := h
    obtain ⟨n', hn'⟩ := h'
    rw [hn, hn']
    rfl
  | some mc => rw [fexp2_of_zero_cents hT3 h, fexp2_of_zero_cents hT3 h']

/-- The cutoff of an unspecified time is unspecified (R140). -/
theorem cutoffAt_none (nm : Config.Numerics) (u : Config.DecayUnit) (cutoff0 rate : Val) :
    cutoffAt nm u cutoff0 rate none = none := by
  cases u with
  | hz => exact (congrArg (fmax cOne) (arith2_none_right _ cutoff0)).trans (fmax_none_right _)
  | cent => exact (congrArg (fmax cOne) (arith2_none_right _ cutoff0)).trans (fmax_none_right _)

/-- With RATE = 0 the decay at an index with a specified cutoff is a zero (R242). -/
theorem decay_of_zero_rate {nm : Config.Numerics} {p : Config.Params} {o : OperandRegs} {i : Count} {x : Fin64}
    (hrate : (valOf o.rate).IsZero) (h : scheduledCutoff nm p o i = some x) :
    (fmul (elapsedMs (valOf o.srate) i) (valOf o.rate)).IsZero := by
  rw [scheduledCutoff] at h
  cases htms : elapsedMs (valOf o.srate) i with
  | none => rw [htms, cutoffAt_none] at h; cases h
  | some t => rw [fmul_comm]; exact hrate.fmul t

/-- Settles O35: with RATE = 0 nothing is taken off in Hz, and in Cent the time no longer matters. -/
theorem zeroRateKeepsTheCutoff : Obligations.ZeroRateKeepsTheCutoff := by
  intro nm p o i j x y hrate hx hy
  have hzero : (valOf o.rate).IsZero := by
    rcases hrate with h | h
    · exact ⟨false, by rw [h]; rfl⟩
    · exact ⟨true, by rw [h]; rfl⟩
  have hdx := decay_of_zero_rate hzero hx
  have hdy := decay_of_zero_rate hzero hy
  rw [scheduledCutoff] at hx hy
  cases hu : decayUnit p o.mode with
  | hz =>
    rw [hu] at hx hy
    obtain ⟨c, hc, hxc⟩ := hzCutoff_of_zero hdx hx
    obtain ⟨c', hc', hyc⟩ := hzCutoff_of_zero hdy hy
    cases hc.symm.trans hc'
    exact ⟨fun _ => hxc.trans hyc.symm, fun _ => ⟨c, hc, hxc⟩⟩
  | cent =>
    rw [hu] at hx hy
    refine ⟨fun hT3 => ?_, fun h => by cases h⟩
    cases hx.symm.trans ((centCutoff_of_zero hT3 hdx hdy).trans hy)
    rfl

/-! ## The schedule the rules give (R227 to R232) -/

/-- UNIT is MODE divided by 256 (R23). -/
theorem unitField_toNat (mode : BitVec 12) : (unitField mode).toNat = mode.toNat / 256 := by
  have := mode.isLt
  rw [unitField, BitVec.extractLsb'_toNat, Nat.shiftRight_eq_div_pow]
  omega

/-- The model's schedule is the one the rules give (R227 to R232). -/
theorem scheduledCutoff_eq (nm : Config.Numerics) (p : Config.Params) (o : OperandRegs) (i : Nat) :
    scheduledCutoff nm p o (BitVec.ofNat 32 i) = Spec.Cutoff nm p o i := by
  rw [scheduledCutoff, decayUnit, unitField_toNat, Spec.Cutoff]
  generalize o.mode.toNat / 256 = unit
  match unit with
  | 0 => rfl
  | 1 => rfl
  | _ + 2 => cases p.unitFallback <;> rfl

/-! ## One turn of the filter loop (R226, R228) -/

/-- The values of the coefficients' update at index i, at the sample rate fs (R228). -/
def tickCoefs (s : State) (fs : Word) (i : Nat) : CoefVals :=
  Spec.Coefficients Config.numerics (s.opr.mode.toNat % 16) (valOf fs) (Spec.Cutoff Config.numerics s.params s.opr i)
    (valOf s.opr.q)

/-- A turn gives the coefficients of the cutoff at IDX at a tick, and keeps them otherwise (R226, R228). -/
theorem filterSample_coef (s : State) :
    if s.idx.toNat % s.spu.toNat = 0 then Spec.CoefsShow (tickCoefs s s.fs s.idx.toNat) (filterSample s).coef
    else (filterSample s).coef = s.coef := by
  split
  · next htick =>
    rw [filterSample_coef_tick (decide_eq_true htick), updateCoefs_coef, setc_coef, tickCoefs, ← coefVals_topology,
      ← scheduledCutoff_eq, count_ofNat_toNat]
    exact coefsShow_storeCoefs _ _
  · next hoff => exact filterSample_coef_off_tick (decide_eq_false hoff)

/-- A turn moves DRY[IDX], X1 and Y1 one place on in the history (R205, R228). -/
theorem filterSample_moves (s : State) :
    Copied (dryWord s s.idx.toNat) (filterSample s).hist.x1 ∧ Copied s.hist.x1 (filterSample s).hist.x2 ∧
      Copied s.hist.y1 (filterSample s).hist.y2 := by
  obtain ⟨k, hk⟩ := filterSample_hist s
  rw [hk]
  exact ⟨copied_copyWord _ _, copied_copyWord _ _, copied_copyWord _ _⟩

/-- The new Y1 is the recurrence's value with the turn's coefficients (R205, R228). -/
theorem filterSample_output (s : State) :
    Shows (Spec.Output (filterSample s).coef s.hist (dryWord s s.idx.toNat)) (filterSample s).hist.y1 := by
  unfold filterSample
  split <;> exact shows_orFree _ _

/-! ## The turns of RENDER's loop (R221, R228) -/

/-- WAVE is MODE divided by 16, modulo 16 (R23). -/
theorem waveField_toNat (mode : BitVec 12) : (waveField mode).toNat = mode.toNat / 16 % 16 := by
  rw [waveField, BitVec.extractLsb'_toNat, Nat.shiftRight_eq_div_pow]

/-- MODE's waveform is the pulse exactly for WAVE = 1 (R101). -/
theorem waveform_eq_oscWave (mode : BitVec 12) : waveform mode = oscWave (mode.toNat / 16 % 16 = 1) := by
  rw [waveform, waveField_toNat]
  split
  · next h => rw [h]; rfl
  · next h => rw [decide_eq_false h]; rfl

/-- The word RENDER generates for sample i (R223). -/
def renderSample (s : State) (i : Nat) : Word :=
  sampleWord (waveform s.opr.mode) s.opr (BitVec.ofNat 32 i) (s.draws + i)

/-- The word RENDER generates is a sample of MODE's waveform (R223). -/
theorem sample_renderSample (s : State) (i : Nat) :
    Spec.Sample s.opr (s.opr.mode.toNat / 16 % 16 = 1) i (renderSample s i) := by
  rw [renderSample, waveform_eq_oscWave]
  exact sample_sampleWord _ _ _ _

/-- Opening the filter leaves OUT (R221). -/
theorem renderOpened_out (s : State) : (renderOpened s).out = s.out := by
  rw [renderOpened, prepareRender_frame]
  rfl

/-- With a length of 0 nothing is generated (R239). -/
theorem renderOpened_dry_of_empty {s : State} (h0 : Spec.Length s.opr = 0) : (renderOpened s).dry = s.dry := by
  rw [renderOpened, prepareRender_frame]
  change (generate _ (Spec.Length s.opr) _).dry = s.dry
  rw [h0]
  rfl

/-- The state before turn i of RENDER's filter loop. -/
def renderTurn (s : State) (i : Nat) : State := repeatStep i filterSample (renderOpened s)

theorem renderTurn_succ (s : State) (i : Nat) : renderTurn s (i + 1) = filterSample (renderTurn s i) :=
  repeatStep_succ_last i filterSample _

/-- What RENDER has written before turn i: N, IDX, SPU, the filter, the phase, and words of the buffers (R221 to R225). -/
theorem renderTurn_frame (s : State) (i : Nat) :
    renderTurn s i =
      { s with
        n := bufferLen s.opr, idx := (renderTurn s i).idx, spu := updateInterval s.opr (s.draws + Spec.Length s.opr)
        fs := s.opr.srate, coef := (renderTurn s i).coef, hist := (renderTurn s i).hist
        dry := (generate (waveform s.opr.mode) (Spec.Length s.opr) (openBuffer (accept .render s))).dry
        out := (renderTurn s i).out, draws := (renderTurn s i).draws, phase := .filt, running := some .render
        status := s.status.accepted } := by
  refine (filt_frame i (renderOpened s)).trans ?_
  rw [← renderTurn, renderOpened, prepareRender_frame]
  rfl

@[simp] theorem renderTurn_opr (s : State) (i : Nat) : (renderTurn s i).opr = s.opr := by rw [renderTurn_frame]
@[simp] theorem renderTurn_params (s : State) (i : Nat) : (renderTurn s i).params = s.params := by rw [renderTurn_frame]
@[simp] theorem renderTurn_n (s : State) (i : Nat) : (renderTurn s i).n = bufferLen s.opr := by rw [renderTurn_frame]
@[simp] theorem renderTurn_fs (s : State) (i : Nat) : (renderTurn s i).fs = s.opr.srate := by rw [renderTurn_frame]
@[simp] theorem renderTurn_spu (s : State) (i : Nat) :
    (renderTurn s i).spu = updateInterval s.opr (s.draws + Spec.Length s.opr) := by rw [renderTurn_frame]

/-- The loop starts with BQ_NEW's zero coefficients (R181, R224). -/
theorem renderTurn_coef_zero (s : State) : (renderTurn s 0).coef = Coefs.zero := openFilter_coef _

/-- The loop starts with BQ_NEW's zero history (R181, R224). -/
theorem renderTurn_hist_zero (s : State) : (renderTurn s 0).hist = History.zero := openFilter_hist _

/-- Before turn i IDX is i (R30). -/
theorem renderTurn_idx (s : State) {i : Nat} (hi : i < 2 ^ 32) : (renderTurn s i).idx.toNat = i := by
  have h0 := renderOpened_idx s
  rw [renderTurn, filt_idx i _ (by omega), h0, Nat.zero_add]

/-- Throughout the loop DRY holds the samples below N and its old words from N on (R223). -/
theorem memGet_renderTurn_dry (s : State) (i j : Nat) :
    memGet j (renderTurn s i).dry = if j < Spec.Length s.opr then some (renderSample s j) else memGet j s.dry := by
  rw [renderTurn_frame]
  exact generate_dry _ _ _ (bufferLen s.opr).isLt.le j

/-- Before turn i OUT holds the Y1 of each turn before it, and its old words from i on (R228). -/
theorem memGet_renderTurn_out (s : State) {i : Nat} (hi : i < 2 ^ 32) (j : Nat) :
    memGet j (renderTurn s i).out = if j < i then some (renderTurn s (j + 1)).hist.y1 else memGet j s.out := by
  have h0 := renderOpened_idx s
  rw [renderTurn, filt_out i _ (by omega), h0, renderOpened_out]
  simp only [Nat.zero_le, true_and, Nat.zero_add, Nat.sub_zero, renderTurn]

/-- Turn i reads the sample of index i (R228). -/
theorem renderTurn_dryWord (s : State) {i : Nat} (hi : i < Spec.Length s.opr) :
    dryWord (renderTurn s i) (renderTurn s i).idx.toNat = renderSample s i := by
  rw [renderTurn_idx s (hi.trans (bufferLen s.opr).isLt), dryWord, memGet_renderTurn_dry, if_pos hi, Option.getD_some]

/-- The coefficients after turn i: those of the cutoff at i at a tick, the same as before otherwise (R226, R228). -/
theorem renderTurn_coef (s : State) {i : Nat} (hi : i < 2 ^ 32) :
    if i % (updateInterval s.opr (s.draws + Spec.Length s.opr)).toNat = 0 then
      Spec.CoefsShow (tickCoefs s s.opr.srate i) (renderTurn s (i + 1)).coef
    else (renderTurn s (i + 1)).coef = (renderTurn s i).coef := by
  have h := filterSample_coef (renderTurn s i)
  rwa [← renderTurn_succ, renderTurn_idx s hi, renderTurn_spu, tickCoefs, renderTurn_opr, renderTurn_params,
    renderTurn_fs, ← tickCoefs] at h

/-- The history after turn i: the sample, the output and the words moved (R205, R228). -/
theorem renderTurn_hist (s : State) {i : Nat} (hi : i < Spec.Length s.opr) :
    Copied (renderSample s i) (renderTurn s (i + 1)).hist.x1 ∧
      Copied (renderTurn s i).hist.x1 (renderTurn s (i + 1)).hist.x2 ∧
      Copied (renderTurn s i).hist.y1 (renderTurn s (i + 1)).hist.y2 ∧
      Shows (Spec.Output (renderTurn s (i + 1)).coef (renderTurn s i).hist (renderSample s i))
        (renderTurn s (i + 1)).hist.y1 := by
  obtain ⟨hx1, hx2, hy2⟩ := filterSample_moves (renderTurn s i)
  have hy1 := filterSample_output (renderTurn s i)
  rw [← renderTurn_succ, renderTurn_dryWord s hi] at hx1 hy1
  rw [← renderTurn_succ] at hx2 hy2
  exact ⟨hx1, hx2, hy2, hy1⟩

/-! ## What RENDER does (R221 to R239) -/

/-- What RENDER may change, from s to t: N and IDX, which agree, SPU, the filter, the buffers and the free values; the command
has completed (R221). -/
def RenderFrame (s t : State) : Prop :=
  t = { s with
    n := t.n, idx := t.n, spu := t.spu, fs := s.opr.srate, coef := t.coef, hist := t.hist
    dry := t.dry, out := t.out, draws := t.draws, phase := .idle, running := none
    status := { s.status with busy := false, done := true } }

/-- A RENDER that fits ends with the state after as many turns as the length (R221). -/
theorem exec_render_eq {s : State} (hfit : Spec.Length s.opr ≤ s.params.nmax) :
    exec .render s = .next (complete (renderTurn s (Spec.Length s.opr))) := by
  have hrun := exec_eq .render s
  rw [hrun, exec_render_of_fits hfit hrun]
  rfl

/-- The state after all turns, completed, differs from the one before RENDER only as `RenderFrame` allows. -/
theorem renderFrame_complete (s : State) :
    RenderFrame s (complete (renderTurn s (Spec.Length s.opr))) := by
  have hidx : (renderTurn s (Spec.Length s.opr)).idx = bufferLen s.opr :=
    BitVec.eq_of_toNat_eq (renderTurn_idx s (bufferLen s.opr).isLt)
  have hframe := renderTurn_frame s (Spec.Length s.opr)
  rw [hidx] at hframe
  rw [RenderFrame, hframe]
  rfl

/-- SPU is at least 1, and of a finite product the count R225 gives. -/
theorem spu_updateInterval (o : OperandRegs) (k : Nat) :
    1 ≤ (updateInterval o k).toNat ∧
      ∀ x, ieeeMul (ieeeOfWord o.srate) (ieeeOfWord 0x3F50624DD2F1A9FC) = .fin x →
        (updateInterval o k).toNat = max 1 (lenOf (.fin x)).toNat :=
  ⟨one_le_updateInterval o k, fun _ => updateInterval_of_fin k⟩

/-- Settles O28: c and h are the coefficients and the history before each turn. -/
theorem renderFiltersTheDryBuffer : Obligations.RenderFiltersTheDryBuffer := by
  refine fun s => ⟨exec_of_overlong (.inr (.inr rfl)), fun hfit => ?_⟩
  have hexec := exec_render_eq hfit
  obtain ⟨-, hn⟩ := exec_render_length hfit hexec
  have hlt : Spec.Length s.opr < 2 ^ 32 := (bufferLen s.opr).isLt
  obtain ⟨hspu, hfin⟩ := spu_updateInterval s.opr (s.draws + Spec.Length s.opr)
  refine ⟨_, hexec, renderFrame_complete s, hn, ?_⟩
  simp only [complete_spu, complete_dry, complete_out, complete_coef, complete_hist, renderTurn_spu,
    memGet_renderTurn_dry, memGet_renderTurn_out s hlt]
  refine ⟨hspu, hfin, fun i hi => ⟨if_neg hi.not_gt, if_neg hi.not_gt⟩, fun i => (renderTurn s i).coef,
    fun i => (renderTurn s i).hist, renderTurn_coef_zero s, renderTurn_hist_zero s, rfl, rfl, fun i hi => ?_⟩
  obtain ⟨hx1, hx2, hy2, hy1⟩ := renderTurn_hist s hi
  exact ⟨renderSample s i, _, if_pos hi, if_pos hi, sample_renderSample s i, renderTurn_coef s (hi.trans hlt), hx1, hx2, rfl,
    hy2, hy1⟩

/-- A word that is copied and copied on is copied (R205). -/
theorem Copied.trans {a b c : Word} (h : Copied a b) (h' : Copied b c) : Copied a c := by
  intro x hx
  have hb := h x hx
  rw [h' x (hb ▸ hx), hb]

/-- A zero is copied to a zero. -/
theorem Copied.eq_zero {w : Word} (h : Copied 0 w) : w = 0 := h _ valOf_zero

/-- Coefficients that are set to v i at each tick i and kept otherwise are, after turn i, those of the last tick (R238). -/
theorem coefsShow_last_tick {n spu : Nat} {c : Nat → Coefs} {v : Nat → CoefVals}
    (h : ∀ i < n, if i % spu = 0 then Spec.CoefsShow (v i) (c (i + 1)) else c (i + 1) = c i) (i : Nat) (hi : i < n) :
    Spec.CoefsShow (v (i / spu * spu)) (c (i + 1)) := by
  have hturn := h i hi
  split at hturn
  · next htick => rwa [Nat.div_mul_cancel (Nat.dvd_of_mod_eq_zero htick)]
  · next hoff =>
    cases i with
    | zero => exact absurd (Nat.zero_mod spu) hoff
    | succ i =>
      have hdiv : (i + 1) / spu = i / spu := Nat.succ_div_of_mod_ne_zero hoff
      rw [hturn, hdiv]
      exact coefsShow_last_tick h i (by omega)

/-- Settles O29: what O28 says of the last two turns, and of the last tick among all. -/
theorem renderEndState : Obligations.RenderEndState := by
  intro s t hfit ht
  obtain ⟨u, hu, hframe, hn, -, -, -, c, h, -, h0, hc, hh, hturn⟩ := (renderFiltersTheDryBuffer s).2 hfit
  cases hu.symm.trans ht
  refine ⟨congrArg State.idx hframe, congrArg State.fs hframe, congrArg (·.status.busy) hframe,
    congrArg (·.status.done) hframe, ?_⟩
  rw [← hc, ← hh, hn]
  generalize Spec.Length s.opr = n at *
  refine ⟨fun h1 => ?_, ?_, fun h2 => ?_⟩
  · obtain ⟨k, rfl⟩ := Nat.exists_eq_add_of_le' h1
    obtain ⟨x, y, hx, hy, -, -, hx1, -, rfl, -, -⟩ := hturn k k.lt_succ_self
    refine ⟨⟨x, hx, hx1⟩, hy, coefsShow_last_tick (v := tickCoefs s s.opr.srate) (fun i hi => ?_) k k.lt_succ_self⟩
    obtain ⟨_, _, -, -, -, hcoef, -⟩ := hturn i hi
    exact hcoef
  · rintro rfl
    obtain ⟨x, y, -, -, -, -, -, hx2, -, hy2, -⟩ := hturn 0 Nat.one_pos
    rw [h0] at hx2 hy2
    exact ⟨hx2.eq_zero, hy2.eq_zero⟩
  · obtain ⟨k, rfl⟩ := Nat.exists_eq_add_of_le' h2
    obtain ⟨x, y, hx, hy, -, -, hx1, -, rfl, -, -⟩ := hturn k (by omega)
    obtain ⟨-, -, -, -, -, -, -, hx2, -, hy2, -⟩ := hturn (k + 1) (by omega)
    exact ⟨⟨x, hx, hx1.trans hx2⟩, _, hy, hy2⟩

/-- Settles O30: with no sample the state is that before turn 0. -/
theorem emptyRenderStillBuildsTheFilter : Obligations.EmptyRenderStillBuildsTheFilter := by
  intro s h0
  have hexec := exec_render_eq (s := s) (by omega)
  have hlen : bufferLen s.opr = 0 := BitVec.eq_of_toNat_eq h0
  have hframe := renderFrame_complete s
  rw [h0] at hexec hframe
  obtain ⟨hspu, hfin⟩ := spu_updateInterval s.opr (s.draws + Spec.Length s.opr)
  rw [← renderTurn_spu s 0] at hspu hfin
  refine ⟨_, hexec, ?_, hspu, hfin⟩
  have hdry : (renderTurn s 0).dry = s.dry := renderOpened_dry_of_empty h0
  have hout : (renderTurn s 0).out = s.out := renderOpened_out s
  rwa [RenderFrame, complete_n, complete_coef, complete_hist, complete_dry, complete_out, renderTurn_n, hlen,
    renderTurn_coef_zero, renderTurn_hist_zero, hdry, hout] at hframe

end Sys2Proof.Machine
end

section
/-! PROOFS of the statements of spec/60_exceptions.md: the two faults (R263, R264), and that no step stops the machine or changes
an idle core on its own (R260, R265, R276). -/

namespace Sys2Proof.Machine

/-! ## The two faults (R263, R264) -/

/-- Settles O36: the capacity check comes before anything else is written. -/
theorem capacityFaultWritesNothingElse : Obligations.CapacityFaultWritesNothingElse :=
  fun _ _ => exec_of_overlong

/-- A CMD write of a word the decoder rejects raises IllegalCommand while BUSY = 0 (R96, R264). -/
theorem commandWrite_of_rejected {w : Word} {s : State} (hb : s.status.busy = false) (hd : ∃ e, decode w = .error e) :
    commandWrite w s = .next (raiseIllegal s) := by
  obtain ⟨e, hd⟩ := hd
  simp [commandWrite, hb, hd]

/-- Settles O37: the decoder rejects exactly the reserved opcodes, and the core then raises IllegalCommand. -/
theorem reservedOpcodeSetsOnlyIllcmd : Obligations.ReservedOpcodeSetsOnlyIllcmd := by
  intro s w rest hp hb hop
  have hd : ∃ e, decode w = .error e := by
    rwa [decode_eq_error_iff, commandOf_eq_none_iff, opField_toNat]
  calc step s = commandWrite w { s with pending := rest } := step_of_pending_cons hp
    _ = .next (raiseIllegal { s with pending := rest }) := commandWrite_of_rejected hb hd

/-! ## Every step goes on (R260, R265, R276) -/

/-- A CMD write answers a next state, whether it is dropped, runs a command or raises IllegalCommand (R260). -/
theorem exists_commandWrite (w : Word) (s : State) : ∃ t, commandWrite w s = .next t := by
  unfold commandWrite
  split
  · exact ⟨_, rfl⟩
  · split
    · exact ⟨_, exec_eq _ s⟩
    · exact ⟨_, rfl⟩

/-- Every access of the host answers a next state (R260, R265). -/
theorem exists_perform (a : HostAct) (s : State) : ∃ t, perform a s = .next t := by
  cases a with
  | write addr w =>
    simp only [perform]
    split
    · exact exists_commandWrite w s
    · exact ⟨_, rfl⟩
  | read | reset | start | tick | wait => exact ⟨_, rfl⟩

/-- Settles O41: neither the core's own step nor an access of the host stops the machine. -/
theorem everyStepGoesOn : Obligations.EveryStepGoesOn := by
  intro s
  cases hp : s.pending with
  | nil => exact ⟨_, step_of_pending_nil hp⟩
  | cons a rest =>
    rw [step_of_pending_cons hp]
    exact exists_perform a _

/-- In phase IDLE the sequencer does nothing (R276). -/
theorem tick_of_idle {s : State} (h : s.phase = .idle) : tick s = s := by
  simp [tick, h]

/-- Settles O52: with nothing pending a step is the sequencer's, which does nothing in phase IDLE. -/
theorem idleCoreWaits : Obligations.IdleCoreWaits := by
  intro s hidle hp
  rw [step_of_pending_nil hp, tick_of_idle hidle]

end Sys2Proof.Machine
end

section
/-! PROOFS of the statements of spec/70_reset_and_hazards.md: when a running RENDER changes the coefficients (R307), and what the
host's accesses do while BUSY = 1 (R300). -/

namespace Sys2Proof.Machine

/-! ## The coefficients of a running RENDER (R228, R307) -/

/-- A step of phase FILT is a turn of the filter loop below N, and the end of the command from N on (R228, R236). -/
theorem tick_filt_cases {s : State} (h : s.phase = .filt) :
    (s.idx.toNat < s.n.toNat ∧ tick s = filterSample s) ∨ (s.n.toNat ≤ s.idx.toNat ∧ tick s = complete s) := by
  simpa [h] using tick_cases s

/-- Settles O32: of the two steps of phase FILT the command's end keeps the coefficients, and so does a turn off the ticks. -/
theorem coefficientsChangeOnlyAtTicks : Obligations.CoefficientsChangeOnlyAtTicks := by
  intro s t hfilt hp hstep hne
  rw [step_of_pending_nil hp] at hstep
  cases hstep
  rcases tick_filt_cases hfilt with ⟨hlt, e⟩ | ⟨-, e⟩ <;> rw [e] at hne ⊢
  · have hcoef := filterSample_coef s
    split at hcoef
    · next htick => exact ⟨htick, hlt, hcoef⟩
    · exact absurd hcoef hne
  · exact absurd (complete_coef s) hne

/-! ## The host's accesses while BUSY = 1 (R300) -/

/-- While BUSY = 1 a write of any address is dropped (R300). -/
theorem perform_write_of_busy {s : State} (hb : s.status.busy = true) (addr : Addr) (w : Word) :
    perform (.write addr w) s = .next s := by
  simp [perform, commandWrite, hb, busWrite_busy hb]

/-- While BUSY = 1 no command is started (R300). -/
theorem perform_start_of_busy {s : State} (hb : s.status.busy = true) (w : Word) : perform (.start w) s = .next s := by
  simp [perform, commandStart, hb]

/-- While BUSY = 1 a read of STATUS returns it and changes nothing else (R300). -/
theorem perform_read_status_of_busy {s : State} (hb : s.status.busy = true) :
    perform (.read statusAddr) s = .next { s with rdata := statusWord s.status } := by
  simp [perform, busRead, hb]

/-- Settles O50: a write and a start are dropped, and a read writes the word read and the count of free values alone. -/
theorem busyCoreIgnoresTheHost : Obligations.BusyCoreIgnoresTheHost := by
  intro s a rest hp hb
  rw [step_of_pending_cons hp]
  have hb' : ({ s with pending := rest } : State).status.busy = true := hb
  refine ⟨fun ha => ?_, fun hmay => ?_⟩
  · rw [ha]
    exact perform_read_status_of_busy hb'
  · cases a with
    | write addr w => exact ⟨_, perform_write_of_busy hb' addr w, rfl, fun _ => rfl⟩
    | start w => exact ⟨_, perform_start_of_busy hb' w, rfl, fun _ => rfl⟩
    | read addr => exact ⟨_, rfl, busRead_frame addr _, fun h => absurd rfl (h addr)⟩
    | reset | tick | wait => cases hmay

end Sys2Proof.Machine
end
